-- ==== Sys2Proof/Word.lean ====
section
/-! DEFINITION. The machine's words: 32-bit command and register words, the exact reals of the
exact instance (rule R16) and the element, one FP value (rule R13). -/

namespace Sys2Proof

/-- A command word or a CSR value: 32 bits (rules R32, R71). -/
abbrev Word := BitVec 32

/-- A real number written as a term: what an element of the exact instance holds (rule R16, "the
sample type as the real numbers"). The terms are those the reference values of rules R19 and R92
need: rationals, π, cosine and sine of a rational fraction of a turn, and the field operations.
`cosTurn a n` stands for cos(2π·a/n), `sinTurn a n` for sin(2π·a/n). Log 9. -/
inductive ExactReal where
  | rat (q : Rat)
  | pi
  | cosTurn (a n : Nat)
  | sinTurn (a n : Nat)
  | add (u v : ExactReal)
  | mul (u v : ExactReal)
  | inv (u : ExactReal)
  deriving DecidableEq, Repr, Inhabited

/-- What one element of an instance is: an IEEE 754 bit pattern of one width (rule R13), or an
exact real in the exact instance (rule R16). -/
inductive ElemKind where
  | binary32
  | binary64
  | exact
  deriving DecidableEq, Repr

/-- One element of a memory: the unit of every address and length (rule R13, glossary of
`00_scope.md`). -/
inductive Elem where
  | b32 (w : BitVec 32)
  | b64 (w : BitVec 64)
  | real (v : ExactReal)
  deriving DecidableEq, Repr, Inhabited

/-- The kind of an element. -/
def Elem.kind : Elem → ElemKind
  | .b32 _ => .binary32
  | .b64 _ => .binary64
  | .real _ => .exact

/-- `+0.0` of a kind: every element's value at reset (rule R51). -/
def ElemKind.zero : ElemKind → Elem
  | .binary32 => .b32 0
  | .binary64 => .b64 0
  | .exact => .real (.rat 0)

end Sys2Proof
end

