-- ==== Sys2Proof/Syntax.lean ====
section
/-! DEFINITION. The commands of the FCE command set, version 1: one constructor per row of the
opcode map (rule R74). -/

namespace Sys2Proof

/-- The region selector of `CONV` (rule R77): `SUB` = 0 is `IO`, `SUB` = 1 is `X`; no other
region can be the target of a convolution. -/
inductive Sel where
  | io
  | x
  deriving DecidableEq, Repr

/-- A command (rule R74). `len` is the length operand of rule R73, in elements. -/
inductive Instr where
  | nop
  | kgen
  | kfft
  | kfreq
  | conv (r : Sel) (len : Nat)
  | ovlwrap (len : Nat)
  | ovlunwrap
  | ovlreset
  | ovsbegin (len : Nat)
  | ovsend
  | zstuff (len : Nat)
  | decim (len : Nat)
  | diagclr
  deriving DecidableEq, Repr

end Sys2Proof
end

