-- ==== Sys2Proof/WellFormed.lean ====
section
/-! DEFINITION. Which commands a word can hold: the length operand has 24 bits (rule R73). -/

namespace Sys2Proof

/-- A length that field LEN[23:0] can hold: 0 ≤ len ≤ 2^24 − 1 (rule R73). -/
abbrev LenFits (len : Nat) : Prop := len < 2 ^ 24

/-- A command that has a word (rules R73, R76). -/
def WellFormed : Instr → Prop
  | .nop => True
  | .kgen => True
  | .kfft => True
  | .kfreq => True
  | .conv _ len => LenFits len
  | .ovlwrap len => LenFits len
  | .ovlunwrap => True
  | .ovlreset => True
  | .ovsbegin len => LenFits len
  | .ovsend => True
  | .zstuff len => LenFits len
  | .decim len => LenFits len
  | .diagclr => True

/-- `WellFormed` as a test. -/
def wellFormed : Instr → Bool
  | .nop => true
  | .kgen => true
  | .kfft => true
  | .kfreq => true
  | .conv _ len => decide (LenFits len)
  | .ovlwrap len => decide (LenFits len)
  | .ovlunwrap => true
  | .ovlreset => true
  | .ovsbegin len => decide (LenFits len)
  | .ovsend => true
  | .zstuff len => decide (LenFits len)
  | .decim len => decide (LenFits len)
  | .diagclr => true

end Sys2Proof
end

