-- ==== Sys2Proof/Decode.lean ====
section
/-! DEFINITION. The decoder of rule R80, total on all 2^32 words, and the encoder of rules R71
to R77. -/

namespace Sys2Proof

/-- Field OP, bits [31:28] (rule R71). -/
def opField (w : Word) : BitVec 4 := w.extractLsb' 28 4

/-- Field SUB, bits [27:24] (rule R71). -/
def subField (w : Word) : BitVec 4 := w.extractLsb' 24 4

/-- Field LEN, bits [23:0] (rule R71). -/
def lenField (w : Word) : BitVec 24 := w.extractLsb' 0 24

/-- A command without operands: SUB and LEN must be 0 (rule R75). -/
def plainCommand (w : Word) (i : Instr) : Option Instr :=
  if subField w = 0 ∧ lenField w = 0 then some i else none

/-- A command with a length operand only: SUB must be 0 (rule R75); `len = zext_24(w[23:0])`
(rule R73). -/
def lengthCommand (w : Word) (f : Nat → Instr) : Option Instr :=
  if subField w = 0 then some (f (lenField w).toNat) else none

/-- `CONV`: SUB must be 0 (`IO`) or 1 (`X`) (rules R75, R77). -/
def convCommand (w : Word) : Option Instr :=
  if subField w = 0 then some (.conv .io (lenField w).toNat)
  else if subField w = 1 then some (.conv .x (lenField w).toNat)
  else none

/-- Rule R80: the command a word is, or `none` for an illegal word (rule R76). -/
def decode (w : Word) : Option Instr :=
  match (opField w).toNat with
  | 0x0 => plainCommand w .nop
  | 0x1 => plainCommand w .kgen
  | 0x2 => plainCommand w .kfft
  | 0x3 => plainCommand w .kfreq
  | 0x4 => convCommand w
  | 0x5 => lengthCommand w .ovlwrap
  | 0x6 => plainCommand w .ovlunwrap
  | 0x7 => plainCommand w .ovlreset
  | 0x8 => lengthCommand w .ovsbegin
  | 0x9 => plainCommand w .ovsend
  | 0xA => lengthCommand w .zstuff
  | 0xB => lengthCommand w .decim
  | 0xC => plainCommand w .diagclr
  | _ => none

/-- The opcode of a command (rule R74). -/
def opcode : Instr → BitVec 4
  | .nop => 0x0
  | .kgen => 0x1
  | .kfft => 0x2
  | .kfreq => 0x3
  | .conv _ _ => 0x4
  | .ovlwrap _ => 0x5
  | .ovlunwrap => 0x6
  | .ovlreset => 0x7
  | .ovsbegin _ => 0x8
  | .ovsend => 0x9
  | .zstuff _ => 0xA
  | .decim _ => 0xB
  | .diagclr => 0xC

/-- The SUB code of a region selector (rule R77). -/
def selCode : Sel → BitVec 4
  | .io => 0
  | .x => 1

/-- The SUB field of a command (rules R75, R77). -/
def subCode : Instr → BitVec 4
  | .nop => 0
  | .kgen => 0
  | .kfft => 0
  | .kfreq => 0
  | .conv r _ => selCode r
  | .ovlwrap _ => 0
  | .ovlunwrap => 0
  | .ovlreset => 0
  | .ovsbegin _ => 0
  | .ovsend => 0
  | .zstuff _ => 0
  | .decim _ => 0
  | .diagclr => 0

/-- The length operand of a command, 0 where it takes none (rules R73, R75). -/
def lenOperand : Instr → Nat
  | .nop => 0
  | .kgen => 0
  | .kfft => 0
  | .kfreq => 0
  | .conv _ len => len
  | .ovlwrap len => len
  | .ovlunwrap => 0
  | .ovlreset => 0
  | .ovsbegin len => len
  | .ovsend => 0
  | .zstuff len => len
  | .decim len => len
  | .diagclr => 0

/-- The word of a command: OP ‖ SUB ‖ LEN (rule R71). -/
def encode (i : Instr) : Word :=
  opcode i ++ subCode i ++ BitVec.ofNat 24 (lenOperand i)

/-- The decoder on a table word of `nbits` bits (log 22: more than 32 bits is no command). -/
def decodeTableWord (nbits w : Nat) : Option Instr :=
  if w % 2 ^ nbits < 2 ^ 32 then decode (BitVec.ofNat 32 (w % 2 ^ nbits)) else none

end Sys2Proof
end

