-- ==== Sys2Proof/Config.lean ====
section
/-! DEFINITION. The parameters of one instance (rules R9 to R16) and the values the spec leaves
open, as constants without a body. -/

namespace Sys2Proof

/-- `FP`, the element format (rule R13). -/
inductive FpFormat where
  | binary32
  | binary64
  deriving DecidableEq, Repr

/-- `TAIL_ADD` (rule R14). -/
inductive TailAdd where
  | pre
  | post
  deriving DecidableEq, Repr

/-- `numerics` (rule R16): `ieee`, the FP data path with its three configuration functions;
`exact`, the exact instance, whose results are the reference values. -/
inductive Arith where
  | ieee
  | exact
  deriving DecidableEq, Repr

/-- β, any finite real (rule R9), as plain data: rational bounds of the real number, equal where
it is rational, and a name that tells apart reals with the same bounds. `betaSettled` says that
the bounds settle L, `BetaHolds` which reals the data stands for. Log 2. -/
structure Beta where
  lo : Rat
  hi : Rat
  name : Nat
  deriving DecidableEq, Repr

/-- A rational β. -/
def Config.exactBeta (q : Rat) : Beta := ⟨q, q, 0⟩

/-- The parameters of one instance, fixed for its lifetime (rules R9, R12 to R16). -/
structure Params where
  F : Nat
  M : Nat
  beta : Beta
  iocap : Nat
  fp : FpFormat
  tailAdd : TailAdd
  latDiv : Nat
  arith : Arith
  deriving DecidableEq, Repr

/-- What an element of the instance is (rules R13, R16). -/
def Params.kind (p : Params) : ElemKind :=
  match p.arith, p.fp with
  | .exact, _ => .exact
  | .ieee, .binary32 => .binary32
  | .ieee, .binary64 => .binary64

/-- `NMAX` (rule R11). -/
def Config.NMAX : Nat := 2 ^ 23

/-- The largest `IOCAP` (rule R12). -/
def Config.IOCAPMAX : Nat := 2 ^ 24 - 1

/-- The instance `State.reset` is built with: I-E of `95_test_vectors.md`, with the defaults of
rules R12 to R15. DESIGN CHOICE, log 1: the spec fixes no F, M or β. -/
def Config.resetParams : Params where
  F := 4
  M := 16
  beta := Config.exactBeta 1
  iocap := 136
  fp := .binary32
  tailAdd := .pre
  latDiv := 4
  arith := .ieee

/-- `numerics.kgen` (rules R16, R98): the bits of coefficient i. Free value, log 7. -/
opaque Config.kgenBits : Params → Nat → BitVec 64

/-- `numerics.dft_kernel` (rules R16, R101): the bits of element j of `H` from the N elements of
`K`. Free value, log 7. -/
opaque Config.dftKernelBits : Params → List Elem → Nat → BitVec 64

/-- `numerics.cconv` (rules R16, R110): the bits of result element k from the 2N elements of `H`
and the m elements of the block. Free value, log 7. -/
opaque Config.cconvBits : Params → List Elem → List Elem → Nat → BitVec 64

/-- The bits of a NaN result's sign and payload (U4 of `93_implementation_defined.md`: payload
"any value"), by draw and element index. Free value, log 8. -/
opaque Config.nanBits : Nat → Nat → BitVec 64

/-- What `W` holds after a transform of an FP instance, by draw and index (rule R48, U2). Free
value, log 5. -/
opaque Config.workBits : Nat → Nat → BitVec 64

/-- What `W` and `S` hold in an exact instance where no rule says, by draw and index (rules R48,
R49, R51, U2). Free value, log 5. -/
opaque Config.hiddenReal : Nat → Nat → ExactReal

/-- The size of the transform scratch `S` (rule R49: implementation-defined). Log 5. -/
opaque Config.scratchLen : Params → Nat

/-- What `S` holds after a transform of an FP instance, by draw and index (rule R49, U2). Free
value, log 5. -/
opaque Config.scratchBits : Nat → Nat → BitVec 64

end Sys2Proof
end

