-- ==== Sys2Proof/Machine/State.lean ====
section
/-! DEFINITION. The state of one FCE instance (rules R22 to R52) as plain data, the host's moves
(rule R21), the refusals, and the state after reset (rule R51). -/

namespace Sys2Proof.Machine

/-- `phase` (rule R27). -/
inductive Phase where
  | unbuilt
  | ready
  | inner
  | callback
  | fault
  deriving DecidableEq, Repr

/-- The fault causes (rule R163); `none` is code 0. Codes 5 to 15 are never recorded (U7). -/
inductive FaultCode where
  | none
  | assertBlock
  | illegalCmd
  | badPhase
  | badOperand
  deriving DecidableEq, Repr

/-- The diagnostic causes (rule R161). -/
inductive Diag where
  | short
  | long
  | trunc
  deriving DecidableEq, Repr

/-- The eight memories (rules R42 to R49). `w` holds each complex number as two elements, real
part first; `scr` is the scratch `S`. -/
inductive Mem where
  | io
  | x
  | k
  | h
  | pad
  | os
  | w
  | scr
  deriving DecidableEq, Repr

/-- The registers of the CSR space (rule R32). -/
inductive Csr where
  | id
  | cmd
  | status
  | faultcode
  | faultcmd
  | actlen
  | viewlen
  | cfgFactor
  | cfgMaxblk
  | cfgKlen
  | cfgPad
  | cfgN
  | cfgOb
  | cfgIocap
  | cfgFlags
  | latency
  | diagShort
  | diagLong
  | diagTrunc
  deriving DecidableEq, Repr

/-- The host's moves (rule R21). A sample address is a 4-bit region code and a 24-bit index
(rule R57); a CSR address is a byte offset (rule R56). -/
inductive Move where
  | reset
  | csrRead (off : Nat)
  | csrWrite (off : Nat) (v : Word)
  | smpRead (r : BitVec 4) (i : BitVec 24)
  | smpWrite (r : BitVec 4) (i : BitVec 24) (v : Elem)
  deriving DecidableEq, Repr

/-- What a move answers the host: a register's value, an element, or completion without a value
(rule R21). `none` before the first move. -/
inductive Reply where
  | none
  | done
  | csr (v : Word)
  | sample (v : Elem)
  deriving DecidableEq, Repr

/-- One memory: (index, element) pairs, indices strictly rising, no element equal to `+0.0`; an
index that is not listed reads as `+0.0` (rule R51). `Memory.wf` says the form. Log 17. -/
abbrev Region := List (Nat × Elem)

/-- The state of one instance (rule R22). `cfg`, `moves`, `reply` and `draws` are the model's own
fields (log 1, log 3, log 6). -/
structure State where
  /-- The instance's constants (rules R9 to R16). No step changes them. -/
  cfg : Params
  /-- Rule R27. -/
  phase : Phase
  /-- `ACTLEN` (rules R24, R25). -/
  actlen : BitVec 24
  /-- `FAULTCODE` (rule R29). -/
  faultCode : FaultCode
  /-- `FAULTCMD` (rule R30). -/
  faultCmd : Word
  /-- `DIAG_SHORT` (rule R31). -/
  diagShort : Word
  /-- `DIAG_LONG` (rule R31). -/
  diagLong : Word
  /-- `DIAG_TRUNC` (rule R31). -/
  diagTrunc : Word
  /-- `IO` (rule R42). -/
  io : Region
  /-- `X` (rule R43). -/
  x : Region
  /-- `K` (rule R44). -/
  k : Region
  /-- `H` (rules R45, R64). -/
  h : Region
  /-- `PAD` (rule R46). -/
  pad : Region
  /-- `OS` (rule R47). -/
  os : Region
  /-- `W` (rule R48). -/
  w : Region
  /-- `S` (rule R49). -/
  scr : Region
  /-- The host's moves still to come, oldest first (log 3). -/
  moves : List Move
  /-- What the last move answered (log 3). -/
  reply : Reply
  /-- How many draws of free values have been made (log 6). -/
  draws : Nat
  deriving DecidableEq, Repr

/-- The model's own fault outcome. It has no constructor: every fault of the FCE is a next state,
phase FAULT (rule R166), so no step stops with a fault. Safe. Log 14. -/
inductive Fault where
  deriving DecidableEq, Repr

/-- Why a step has no next state. Only host accesses are refused; no command is. -/
inductive Refusal where
  /-- Raised by no arm: every command has its meaning. Safe. -/
  | notModelled (mnemonic : String)
  /-- Raised by the move `CsrRead` of an unmapped offset and by `CsrWrite` of any offset but
  0x04 (rule R41: "a model gives such a move no step (it is refused)"). Safe. Log 4. -/
  | csrAccess (off : Nat)
  /-- Raised by the moves `SmpRead` and `SmpWrite` where rule R62 grants no right, the index is
  at or above the bound, or the region code is reserved (rule R63: "a model gives the move no
  step"). Safe. Log 4. -/
  | sampleAccess (r : BitVec 4) (i : BitVec 24)
  /-- Raised by the move `SmpWrite` with an element that is no FP value of the instance (rule
  R13); no host can make such an access. Safe. Log 13. -/
  | wrongFormat (v : Elem)
  deriving DecidableEq, Repr

/-- The state after reset of an instance with parameters `p` (rule R51). `w` and `scr` are
"unspecified" there: DESIGN CHOICE, log 5. -/
def State.resetOf (p : Params) : State where
  cfg := p
  phase := .unbuilt
  actlen := 0
  faultCode := .none
  faultCmd := 0
  diagShort := 0
  diagLong := 0
  diagTrunc := 0
  io := []
  x := []
  k := []
  h := []
  pad := []
  os := []
  w := []
  scr := []
  moves := []
  reply := .none
  draws := 0

/-- The machine right after reset: the state of rule R51 for the instance log 1 names. -/
def State.reset : State := State.resetOf Config.resetParams

end Sys2Proof.Machine
end

