-- ==== Sys2Proof/Machine/Sizes.lean ====
section
/-! DEFINITION. The derived constants of an instance (rules R10, R90), which parameter sets are
legal (rules R9, R11, R12, R15), and the capacity of each memory (rules R42 to R49). -/

namespace Sys2Proof

/-- L0 = ceil(4 / max(β, 10^-10)), over exact numbers (rules R10, R90). -/
def kernelLen0 (beta : Rat) : Nat :=
  if beta.num * 10 ^ 10 ≤ (beta.den : Int) then 4 * 10 ^ 10
  else (4 * beta.den + beta.num.toNat - 1) / beta.num.toNat

/-- `kernel_length(β)` (rule R90): L0, made odd by adding 1 when even. -/
def kernelLength (beta : Rat) : Nat :=
  if kernelLen0 beta % 2 = 0 then kernelLen0 beta + 1 else kernelLen0 beta

/-- The bounds of β settle L0, which does not increase with β (rule R90): every real between them
has the same kernel length. -/
def betaSettled (b : Beta) : Bool :=
  decide (b.lo ≤ b.hi) && decide (kernelLen0 b.lo = kernelLen0 b.hi)

/-- L (rule R10). -/
def Params.L (p : Params) : Nat := kernelLength p.beta.hi

/-- P = L − 1 (rule R10). -/
def Params.P (p : Params) : Nat := p.L - 1

/-- OB = M·F (rule R10). -/
def Params.OB (p : Params) : Nat := p.M * p.F

/-- N = OB + P (rule R10). -/
def Params.N (p : Params) : Nat := p.OB + p.P

/-- The latency report, floor(P / LAT_DIV) (rule R147). -/
def Params.latencySamples (p : Params) : Nat := p.P / p.latDiv

/-- A legal instance: F ≥ 1, M ≥ 1 (R9), N ≤ NMAX (R11), N ≤ IOCAP ≤ 2^24 − 1 (R12),
LAT_DIV ≥ 1 (R15). U3 also refuses a zero raw sum: there is none, `rawCoefficientSum_pos` (log
11). -/
def Params.legal (p : Params) : Bool :=
  betaSettled p.beta && decide (1 ≤ p.F) && decide (1 ≤ p.M) && decide (p.N ≤ Config.NMAX) &&
    decide (p.N ≤ p.iocap) && decide (p.iocap ≤ Config.IOCAPMAX) && decide (1 ≤ p.latDiv)

/-- The parameters with the defaults of rules R12 to R15: IOCAP = 2N, binary32, PRE,
LAT_DIV = F. -/
def Params.ofFactor (F M : Nat) (beta : Beta) (arith : Arith) : Params where
  F := F
  M := M
  beta := beta
  iocap := 2 * (M * F + (kernelLength beta.hi - 1))
  fp := .binary32
  tailAdd := .pre
  latDiv := F
  arith := arith

/-- The number of elements of each memory (rules R42 to R49). -/
def Params.capacity (p : Params) : Machine.Mem → Nat
  | .io => p.iocap
  | .x => p.N
  | .k => p.N
  | .h => 2 * p.N
  | .pad => p.P
  | .os => p.OB
  | .w => 2 * p.N
  | .scr => Config.scratchLen p

/-- Elaborating an instance (rules R11, R12, U15): an illegal parameter set is rejected. -/
def Machine.State.build (p : Params) : Option Machine.State :=
  if p.legal then some (Machine.State.resetOf p) else none

end Sys2Proof
end

