-- ==== Sys2Proof/Machine/Ieee.lean ====
section
/-! DEFINITION. The single IEEE 754 addition and the single multiplication by F of rule R16,
round-to-nearest-even, on bit patterns as numbers. The formats are those of rule R13
(PRESUMED, log 10). A finite value is held as an integer multiple of the smallest subnormal. -/

namespace Sys2Proof.Machine

/-- Width of the exponent field. -/
def expBits : FpFormat → Nat
  | .binary32 => 8
  | .binary64 => 11

/-- Width of the fraction field. -/
def fracBits : FpFormat → Nat
  | .binary32 => 23
  | .binary64 => 52

/-- The pattern of +infinity: exponent all ones, fraction 0. -/
def infPattern (f : FpFormat) : Nat := (2 ^ expBits f - 1) * 2 ^ fracBits f

/-- The weight of the sign bit. -/
def signWeight (f : FpFormat) : Nat := 2 ^ (expBits f + fracBits f)

/-- The pattern without its sign bit. -/
def fpMagBits (f : FpFormat) (w : Nat) : Nat := w % signWeight f

/-- The sign bit. -/
def fpNegative (f : FpFormat) (w : Nat) : Bool := decide (w / signWeight f % 2 = 1)

def fpIsNan (f : FpFormat) (w : Nat) : Bool := decide (infPattern f < fpMagBits f w)

def fpIsInf (f : FpFormat) (w : Nat) : Bool := decide (fpMagBits f w = infPattern f)

/-- The magnitude of a finite pattern (sign removed), in units of the smallest subnormal: the
fraction itself when the exponent field is 0, else (2^frac + fraction)·2^(exponent − 1). -/
def magnitudeOf (f : FpFormat) (m : Nat) : Nat :=
  let e := m / 2 ^ fracBits f
  let t := m % 2 ^ fracBits f
  if e = 0 then t else (2 ^ fracBits f + t) * 2 ^ (e - 1)

/-- The exact value of a finite pattern, in units of the smallest subnormal. -/
def fpValue (f : FpFormat) (w : Nat) : Int :=
  if fpNegative f w then -(magnitudeOf f (fpMagBits f w) : Int) else magnitudeOf f (fpMagBits f w)

/-- A pattern from a sign and a magnitude pattern. -/
def fpPack (f : FpFormat) (neg : Bool) (m : Nat) : Nat :=
  (if neg then signWeight f else 0) + m

/-- How many low bits of `n` do not fit in frac + 1 significant bits. -/
def roundShift (f : FpFormat) (n : Nat) : Nat :=
  if n < 2 ^ (fracBits f + 1) then 0 else Nat.log2 n - fracBits f

/-- Whether the dropped bits `rem` of `2^k` round the kept `q` up: to nearest, ties to even. -/
def roundsUp (q rem k : Nat) : Bool :=
  decide (2 ^ k < 2 * rem) || (decide (2 * rem = 2 ^ k) && decide (q % 2 = 1))

/-- The magnitude pattern nearest to the exact magnitude `n` (units of the smallest subnormal),
ties to even; infinity when it is too large. -/
def roundMagnitude (f : FpFormat) (n : Nat) : Nat :=
  let k := roundShift f n
  let q := n / 2 ^ k
  let q' := if roundsUp q (n % 2 ^ k) k then q + 1 else q
  min (k * 2 ^ fracBits f + q') (infPattern f)

/-- Some NaN: its sign and payload are the free value `bits` (U4, log 8). -/
def freeNan (f : FpFormat) (bits : Nat) : Nat :=
  fpPack f (decide (bits / 2 ^ fracBits f % 2 = 1)) (infPattern f + max 1 (bits % 2 ^ fracBits f))

/-- The correctly rounded value of an exact non-zero sum or product. -/
def fpRound (f : FpFormat) (v : Int) : Nat :=
  fpPack f (decide (v < 0)) (roundMagnitude f v.natAbs)

/-- One IEEE addition (rule R16). `bits` feeds a NaN result (log 8). An exact zero sum is −0 only
when both operands are negative. -/
def fpAdd (f : FpFormat) (bits a b : Nat) : Nat :=
  if fpIsNan f a || fpIsNan f b then freeNan f bits
  else if fpIsInf f a then
    if fpIsInf f b && (fpNegative f a != fpNegative f b) then freeNan f bits
    else fpPack f (fpNegative f a) (infPattern f)
  else if fpIsInf f b then fpPack f (fpNegative f b) (infPattern f)
  else if fpValue f a + fpValue f b = 0 then fpPack f (fpNegative f a && fpNegative f b) 0
  else fpRound f (fpValue f a + fpValue f b)

/-- One IEEE multiplication by the positive integer `n` (rule R16, the product F·x of rule R136).
The sign of the operand is kept, zeros included. -/
def fpScale (f : FpFormat) (bits n a : Nat) : Nat :=
  if fpIsNan f a then freeNan f bits
  else if fpIsInf f a then fpPack f (fpNegative f a) (infPattern f)
  else fpPack f (fpNegative f a) (roundMagnitude f (n * magnitudeOf f (fpMagBits f a)))

end Sys2Proof.Machine
end

