-- ==== Sys2Proof/Machine/Exact.lean ====
section
/-! DEFINITION. Arithmetic of the exact instance (rule R16) on exact-real terms, and the
reference functions of rules R19, R92 and R105 to R109 computed with it. Log 9, log 21. -/

namespace Sys2Proof.Machine

/-- The sum; rationals are added at once. -/
def exactAdd : ExactReal → ExactReal → ExactReal
  | .rat a, .rat b => .rat (a + b)
  | .rat a, v => if a = 0 then v else .add (.rat a) v
  | u, .rat b => if b = 0 then u else .add u (.rat b)
  | u, v => .add u v

/-- The product; rationals are multiplied at once. -/
def exactMul : ExactReal → ExactReal → ExactReal
  | .rat a, .rat b => .rat (a * b)
  | .rat a, v => if a = 0 then .rat 0 else if a = 1 then v else .mul (.rat a) v
  | u, .rat b => if b = 0 then .rat 0 else if b = 1 then u else .mul u (.rat b)
  | u, v => .mul u v

/-- The reciprocal. -/
def exactInv : ExactReal → ExactReal
  | .rat a => .rat a⁻¹
  | u => .inv u

def exactNeg (u : ExactReal) : ExactReal := exactMul (.rat (-1)) u

/-- cos(2π·a/n) for a < n; the rational values are given at once (log 21). -/
def exactCos (a n : Nat) : ExactReal :=
  if a = 0 then .rat 1
  else if 4 * a = n ∨ 4 * a = 3 * n then .rat 0
  else if 2 * a = n then .rat (-1)
  else if 6 * a = n ∨ 6 * a = 5 * n then .rat (1 / 2)
  else if 3 * a = n ∨ 3 * a = 2 * n then .rat (-1 / 2)
  else .cosTurn a n

/-- sin(2π·a/n) for a < n; the rational values are given at once (log 21). -/
def exactSin (a n : Nat) : ExactReal :=
  if a = 0 ∨ 2 * a = n then .rat 0
  else if 4 * a = n then .rat 1
  else if 4 * a = 3 * n then .rat (-1)
  else if 12 * a = n ∨ 12 * a = 5 * n then .rat (1 / 2)
  else if 12 * a = 7 * n ∨ 12 * a = 11 * n then .rat (-1 / 2)
  else .sinTurn a n

/-- Σ of the first n values of f. -/
def exactSum : Nat → (Nat → ExactReal) → ExactReal
  | 0, _ => .rat 0
  | n + 1, f => exactAdd (exactSum n f) (f n)

/-- A complex number: an entry of `W` (rule R48) or of `Hc` (rule R64). -/
structure Cplx where
  re : ExactReal
  im : ExactReal
  deriving DecidableEq, Repr

def Cplx.zero : Cplx := ⟨.rat 0, .rat 0⟩

/-- The complex product (rule R107). -/
def Cplx.times (u v : Cplx) : Cplx where
  re := exactAdd (exactMul u.re v.re) (exactNeg (exactMul u.im v.im))
  im := exactAdd (exactMul u.re v.im) (exactMul u.im v.re)

/-- exp(−2πi·a/n). -/
def forwardRoot (a n : Nat) : Cplx := ⟨exactCos (a % n) n, exactNeg (exactSin (a % n) n)⟩

/-- exp(+2πi·a/n). -/
def inverseRoot (a n : Nat) : Cplx := ⟨exactCos (a % n) n, exactSin (a % n) n⟩

/-- f on 0 … n−1, each value computed once; zero from n on. -/
def tabulate (n : Nat) (f : Nat → Cplx) : Nat → Cplx :=
  let l := (List.range n).map f
  fun i => l.getD i Cplx.zero

/-- Σ_k w[k]·root(j·k), one entry of a transform of length n. -/
def transformBin (n : Nat) (root : Nat → Nat → Cplx) (w : Nat → Cplx) (j : Nat) : Cplx where
  re := exactSum n (fun k => ((w k).times (root (j * k) n)).re)
  im := exactSum n (fun k => ((w k).times (root (j * k) n)).im)

/-- DFT_N, unscaled (rules R19, R106). -/
def exactDft (n : Nat) (w : Nat → Cplx) : Nat → Cplx :=
  tabulate n (transformBin n forwardRoot w)

/-- IDFT_N, unscaled (rules R19, R108). -/
def exactIdft (n : Nat) (w : Nat → Cplx) : Nat → Cplx :=
  tabulate n (transformBin n inverseRoot w)

/-- The exact value an element of the exact instance holds; other elements never occur there. -/
def exactOf : Elem → ExactReal
  | .real v => v
  | .b32 _ => .rat 0
  | .b64 _ => .rat 0

/-- Element i of a block as an exact value, zero beyond its end (rule R105, "the remainder is
treated as implicitly zero"). -/
def exactAt (l : List Elem) (i : Nat) : ExactReal := exactOf (l.getD i (.real (.rat 0)))

/-- Real samples as complex numbers (rules R101, R105). -/
def loadReal (l : List Elem) (i : Nat) : Cplx := ⟨exactAt l i, .rat 0⟩

/-- Bin j of the frequency-domain kernel, H[2j] + i·H[2j+1] (rule R64). -/
def kernelBin (h : List Elem) (j : Nat) : Cplx := ⟨exactAt h (2 * j), exactAt h (2 * j + 1)⟩

/-- `W` after rules R105 to R108: load, forward transform, product, inverse transform. -/
def exactConvWork (n : Nat) (h x : List Elem) : Nat → Cplx :=
  let w1 := exactDft n (loadReal x)
  let w2 := tabulate n (fun j => (w1 j).times (kernelBin h j))
  exactIdft n w2

/-- The real component divided by N (rule R109). -/
def exactConv (n : Nat) (h x : List Elem) : Nat → ExactReal :=
  let w := exactConvWork n h x
  fun k => exactMul (w k).re (.rat (1 / (n : Rat)))

/-- An interleaved complex array (rule R64): element 2j is the real part of entry j, element
2j + 1 the imaginary part. -/
def interleave (f : Nat → Cplx) (i : Nat) : ExactReal :=
  if i % 2 = 0 then (f (i / 2)).re else (f (i / 2)).im

/-- The centre tap m = (L − 1)/2 (rule R92). -/
def Params.centre (p : Params) : Nat := (p.L - 1) / 2

/-- |i − m|. -/
def centreDistance (p : Params) (i : Nat) : Nat :=
  if i ≤ Params.centre p then Params.centre p - i else i - Params.centre p

/-- sinc(π·(i − m)/F) (rules R19, R92), through |i − m| since sinc is even (log 21). -/
def sincTap (p : Params) (i : Nat) : ExactReal :=
  if centreDistance p i = 0 then .rat 1
  else exactMul (exactSin (centreDistance p i % (2 * p.F)) (2 * p.F))
    (exactInv (exactMul (.rat ((centreDistance p i : Rat) / (p.F : Rat))) .pi))

/-- w[i] = 0.54 − 0.46·cos(2π·i/L) (rule R92). -/
def windowTap (p : Params) (i : Nat) : ExactReal :=
  exactAdd (.rat (54 / 100)) (exactMul (.rat (-46 / 100)) (exactCos (i % p.L) p.L))

/-- c[i] (rule R92). -/
def rawTap (p : Params) (i : Nat) : ExactReal := exactMul (sincTap p i) (windowTap p i)

/-- Σ of the L raw coefficients (rule R93). -/
def rawSum (p : Params) : ExactReal := exactSum p.L (rawTap p)

/-- K[i] = c[i] / Σ c for i < L (rule R93). -/
def kernelTap (p : Params) (i : Nat) : ExactReal := exactMul (rawTap p i) (exactInv (rawSum p))

end Sys2Proof.Machine
end

