-- ==== Sys2Proof/Machine/Numerics.lean ====
section
/-! DEFINITION. The FP data path (rule R16): the single addition and multiplication, and the
three functions of the record `numerics`, for each kind of instance. -/

namespace Sys2Proof.Machine

/-- The 32 bits of a binary32 element; other elements never occur in a binary32 instance. -/
def word32 : Elem → BitVec 32
  | .b32 w => w
  | .b64 _ => 0
  | .real _ => 0

/-- The 64 bits of a binary64 element; other elements never occur in a binary64 instance. -/
def word64 : Elem → BitVec 64
  | .b64 w => w
  | .b32 _ => 0
  | .real _ => 0

/-- An element of the instance from free bits, or from an exact value in the exact instance. -/
def elemOf (p : Params) (bits : BitVec 64) (v : ExactReal) : Elem :=
  match p.kind with
  | .binary32 => .b32 (bits.setWidth 32)
  | .binary64 => .b64 bits
  | .exact => .real v

/-- One addition (rules R16, R122, R127). `draw` and `j` pick the free NaN (log 8). -/
def elemAdd (p : Params) (draw j : Nat) (a b : Elem) : Elem :=
  match p.kind with
  | .binary32 => .b32 (BitVec.ofNat 32
      (fpAdd .binary32 (Config.nanBits draw j).toNat (word32 a).toNat (word32 b).toNat))
  | .binary64 => .b64 (BitVec.ofNat 64
      (fpAdd .binary64 (Config.nanBits draw j).toNat (word64 a).toNat (word64 b).toNat))
  | .exact => .real (exactAdd (exactOf a) (exactOf b))

/-- The product F·x (rules R16, R136). -/
def elemScale (p : Params) (draw j : Nat) (a : Elem) : Elem :=
  match p.kind with
  | .binary32 => .b32 (BitVec.ofNat 32
      (fpScale .binary32 (Config.nanBits draw j).toNat p.F (word32 a).toNat))
  | .binary64 => .b64 (BitVec.ofNat 64
      (fpScale .binary64 (Config.nanBits draw j).toNat p.F (word64 a).toNat))
  | .exact => .real (exactMul (.rat (p.F : Rat)) (exactOf a))

/-- Element i of `K` after `KGEN`, i < L (rules R92, R93, R98). -/
def kgenElem (p : Params) (i : Nat) : Elem := elemOf p (Config.kgenBits p i) (kernelTap p i)

/-- Element i of `H` after `KFFT`, from the N elements of `K` (rule R101). -/
def dftKernelElem (p : Params) (k : List Elem) : Nat → Elem :=
  let w := exactDft p.N (loadReal k)
  fun i => elemOf p (Config.dftKernelBits p k i) (interleave w i)

/-- Result element k of a convolution, from the 2N elements of `H` and the block (rule R110). -/
def cconvElem (p : Params) (h x : List Elem) : Nat → Elem :=
  let y := exactConv p.N h x
  fun k => elemOf p (Config.cconvBits p h x k) (y k)

/-- Element i of `W` after a transform: the exact instance holds what rules R101 and R110 leave
there, an FP instance a free value (rule R48, log 5). -/
def workElem (p : Params) (draw : Nat) (w : Nat → Cplx) (i : Nat) : Elem :=
  elemOf p (Config.workBits draw i) (interleave w i)

/-- Element i of a hidden memory whose content no rule gives (rules R49, R51, log 5). -/
def hiddenElem (p : Params) (draw i : Nat) : Elem :=
  elemOf p (Config.scratchBits draw i) (Config.hiddenReal draw i)

end Sys2Proof.Machine
end

