-- ==== Sys2Proof/Machine/Flags.lean ====
section
/-! DEFINITION. The status computations: the saturating diagnostic counters (rules R31, R160),
the status register and the constant flags (rules R28, R35, R38). -/

namespace Sys2Proof.Machine

/-- `sat32(C + 1)` (rules R20, R160). -/
def satIncrement (c : Word) : Word := if c.toNat + 1 < 2 ^ 32 then c + 1 else c

/-- `diag(SHORT)`, `diag(LONG)`, `diag(TRUNC)` (rules R20, R160): one counter, nothing else. -/
def State.diag (d : Diag) (s : State) : State :=
  match d with
  | .short => { s with diagShort := satIncrement s.diagShort }
  | .long => { s with diagLong := satIncrement s.diagLong }
  | .trunc => { s with diagTrunc := satIncrement s.diagTrunc }

/-- The code of a phase in `STATUS[2:0]` (rule R27). -/
def Phase.code : Phase → BitVec 3
  | .unbuilt => 0
  | .ready => 1
  | .inner => 2
  | .callback => 3
  | .fault => 4

/-- The code of a fault cause (rule R163). -/
def FaultCode.code : FaultCode → BitVec 4
  | .none => 0
  | .assertBlock => 1
  | .illegalCmd => 2
  | .badPhase => 3
  | .badOperand => 4

/-- `STATUS.DIAG_ANY` (rule R35): 1 iff the counters' sum is above 0. -/
def diagAny (s : State) : Bool :=
  decide (0 < s.diagShort.toNat + s.diagLong.toNat + s.diagTrunc.toNat)

/-- `STATUS` (rule R35): reserved ‖ DIAG_ANY ‖ BUSY ‖ PHASE. `BUSY` always reads 0. -/
def statusWord (s : State) : Word :=
  (0 : BitVec 27) ++ BitVec.ofBool (diagAny s) ++ (0 : BitVec 1) ++ s.phase.code

/-- `CFG_FLAGS` (rule R38): reserved ‖ TAIL_POST ‖ FP64. -/
def cfgFlags (p : Params) : Word :=
  (0 : BitVec 30) ++ BitVec.ofBool (decide (p.tailAdd = .post)) ++
    BitVec.ofBool (decide (p.fp = .binary64))

end Sys2Proof.Machine
end

