-- ==== Sys2Proof/Machine/Operands.lean ====
section
/-! DEFINITION. Legality by phase and the operand checks (rule R81), and the region operand of
`CONV` (rule R77). -/

namespace Sys2Proof.Machine

/-- The memory a region selector names (rule R77). -/
def selMem : Sel → Mem
  | .io => .io
  | .x => .x

/-- Legal while the engine is unbuilt: the build commands (rule R81). -/
def onlyUnbuilt : Phase → Bool
  | .unbuilt => true
  | .ready => false
  | .inner => false
  | .callback => false
  | .fault => false

/-- Legal with a built engine and no transaction open (rule R81). -/
def onlyReady : Phase → Bool
  | .unbuilt => false
  | .ready => true
  | .inner => false
  | .callback => false
  | .fault => false

/-- Legal in the window of a stand-alone overlap transaction (rule R81). -/
def onlyInner : Phase → Bool
  | .unbuilt => false
  | .ready => false
  | .inner => true
  | .callback => false
  | .fault => false

/-- Legal in the callback window (rule R81). -/
def onlyCallback : Phase → Bool
  | .unbuilt => false
  | .ready => false
  | .inner => false
  | .callback => true
  | .fault => false

/-- Legal in either window (rule R81, `CONV X`). -/
def onlyWindow : Phase → Bool
  | .unbuilt => false
  | .ready => false
  | .inner => true
  | .callback => true
  | .fault => false

/-- Legal everywhere but in FAULT (rules R153, R154). -/
def anyPhase : Phase → Bool
  | .unbuilt => true
  | .ready => true
  | .inner => true
  | .callback => true
  | .fault => false

/-- `CONV IO` in READY, `CONV X` in a window (rule R81). -/
def convLegal : Sel → Phase → Bool
  | .io => onlyReady
  | .x => onlyWindow

/-- The length of the open window of `X`: ACTLEN + P in INNER, ACTLEN in CALLBACK (rules R62,
R81); no window elsewhere. -/
def windowLen (s : State) : Nat :=
  match s.phase with
  | .inner => s.actlen.toNat + s.cfg.P
  | .callback => s.actlen.toNat
  | .unbuilt => 0
  | .ready => 0
  | .fault => 0

/-- No operand check (rule R81). -/
def noCheck (_ : State) : FaultCode := .none

/-- len ≤ IOCAP, else `BAD_OPERAND` (rule R81). -/
def ioCheck (len : Nat) (s : State) : FaultCode :=
  if len ≤ s.cfg.iocap then .none else .badOperand

/-- len within the window, else `BAD_OPERAND` (rule R81). -/
def windowCheck (len : Nat) (s : State) : FaultCode :=
  if len ≤ windowLen s then .none else .badOperand

/-- The operand check of `CONV` (rule R81). -/
def convCheck (r : Sel) (len : Nat) (s : State) : FaultCode :=
  match r with
  | .io => ioCheck len s
  | .x => windowCheck len s

/-- len ≤ M, else `ASSERT_BLOCK` (rules R81, R164). -/
def blockCheck (len : Nat) (s : State) : FaultCode :=
  if len ≤ s.cfg.M then .none else .assertBlock

end Sys2Proof.Machine
end

