-- ==== Sys2Proof/Machine/Ops.lean ====
section
/-! DEFINITION. The named operations over the memories (rules R20, R42 to R49), fault entry (rule
R166), the order of a command's checks (rule R70), and reset (rule R180). -/

namespace Sys2Proof.Machine

/-- One memory in its canonical form: indices strictly rising, below the capacity, every element
of the instance's kind and none equal to what an unlisted index reads as (log 17). -/
abbrev Memory.wf (k : ElemKind) (cap : Nat) (r : Region) : Prop :=
  r.Pairwise (fun a b => a.1 < b.1) ∧ ∀ c ∈ r, c.1 < cap ∧ c.2.kind = k ∧ c.2 ≠ k.zero

/-- Element i; `z` where nothing is listed. -/
def Memory.get (z : Elem) : Region → Nat → Elem
  | [], _ => z
  | (j, v) :: t, i => if j = i then v else Memory.get z t i

/-- The listed cells of the range [a, a+n) holding f. -/
def Memory.cells (z : Elem) (a n : Nat) (f : Nat → Elem) : Region :=
  (List.range' a n).filterMap fun i =>
    let v := f i
    if v = z then none else some (i, v)

/-- `R[a..a+n) <- f` (rule R20): every element i of the range becomes f i, the rest is kept. -/
def Memory.fill (z : Elem) (r : Region) (a n : Nat) (f : Nat → Elem) : Region :=
  r.filter (fun c => decide (c.1 < a)) ++ Memory.cells z a n f ++
    r.filter (fun c => decide (a + n ≤ c.1))

/-- A memory of the state. -/
def State.region (s : State) : Mem → Region
  | .io => s.io
  | .x => s.x
  | .k => s.k
  | .h => s.h
  | .pad => s.pad
  | .os => s.os
  | .w => s.w
  | .scr => s.scr

/-- The state with one memory replaced. -/
def State.setRegion (s : State) (m : Mem) (r : Region) : State :=
  match m with
  | .io => { s with io := r }
  | .x => { s with x := r }
  | .k => { s with k := r }
  | .h => { s with h := r }
  | .pad => { s with pad := r }
  | .os => { s with os := r }
  | .w => { s with w := r }
  | .scr => { s with scr := r }

/-- What an element that nothing has written reads as: `+0.0` (rule R51). -/
def State.zero (s : State) : Elem := s.cfg.kind.zero

/-- `R[i]` (rule R20): the model's read of one element. -/
def State.elem (s : State) (m : Mem) (i : Nat) : Elem := Memory.get s.zero (s.region m) i

/-- The first n elements of a memory. -/
def State.elems (s : State) (m : Mem) (n : Nat) : List Elem := (List.range n).map (s.elem m)

/-- `R[a..a+n) <- f` on a memory of the state. -/
def State.fill (s : State) (m : Mem) (a n : Nat) (f : Nat → Elem) : State :=
  s.setRegion m (Memory.fill s.zero (s.region m) a n f)

def State.setPhase (s : State) (ph : Phase) : State := { s with phase := ph }

def State.setActlen (s : State) (n : Nat) : State := { s with actlen := BitVec.ofNat 24 n }

/-- One draw of free values is used up (log 6). -/
def State.advance (s : State) : State := { s with draws := s.draws + 1 }

/-- The content of the hidden memories `W` and `S` after a transform: `W` as given, `S` free
(rules R48, R49, log 5). -/
def State.scribble (s : State) (work : Nat → Elem) : State :=
  ((s.fill .w 0 (2 * s.cfg.N) work).fill .scr 0 (Config.scratchLen s.cfg)
    (hiddenElem s.cfg s.draws)).advance

/-- `raise Fault(code)` during the step of command word w (rule R166): the code and the word are
recorded, the phase becomes FAULT, and nothing else changes. -/
def raiseFault (code : FaultCode) (w : Word) (s : State) : State :=
  { s with faultCode := code, faultCmd := w, phase := .fault }

/-- The state after the `Reset` move (rules R51, R180), the only exit from FAULT (rule R170).
`W` and `S`, "unspecified" in rule R51, become free values; the model's own `moves` and `draws`
go on (log 18). -/
def resetMove (s : State) : State :=
  ({ State.resetOf s.cfg with moves := s.moves, draws := s.draws, reply := .done }).scribble
    (hiddenElem s.cfg (s.draws + 1)) |>.advance

/-- One command, as rule R70 orders it: ignored in FAULT (rule R157), then the phase check, then
the operand check, then the effect. Every check comes before any write (rule R167). The word
recorded by a fault is the command's own (log 12). -/
def runCommand (i : Instr) (legal : Phase → Bool) (check : State → FaultCode)
    (effect : State → State) (s : State) : Host.Outcome State Fault Refusal :=
  if s.phase = .fault then .next s
  else if legal s.phase = false then .next (raiseFault .badPhase (encode i) s)
  else if check s = .none then .next (effect s)
  else .next (raiseFault (check s) (encode i) s)

end Sys2Proof.Machine
end

