-- ==== Sys2Proof/Machine/Kernel.lean ====
section
/-! DEFINITION. The sinc kernel unit: `KGEN` (rules R91 to R98). -/

namespace Sys2Proof.Machine

/-- Element i of `K` after `KGEN`: the coefficient for i < L (rule R93), `+0.0` above (rule
R94). -/
def kernelElem (p : Params) (i : Nat) : Elem := if i < p.L then kgenElem p i else p.kind.zero

/-- All N elements of `K` are written, nothing else (rule R91). -/
def buildKernel (s : State) : State := s.fill .k 0 s.cfg.N (kernelElem s.cfg)

/-- `KGEN` (rule R91). -/
def execKgen (s : State) : Host.Outcome State Fault Refusal :=
  runCommand .kgen onlyUnbuilt noCheck buildKernel s

end Sys2Proof.Machine
end

