-- ==== Sys2Proof/Machine/Convolution.lean ====
section
/-! DEFINITION. The FFT convolution engine: `KFFT`, `KFREQ`, `CONV` and the convolution procedure
(rules R100 to R118). -/

namespace Sys2Proof.Machine

/-- The transform of `K` into `H` (rule R101). `W` then holds the transform. -/
def transformKernel (s : State) : State :=
  let k := s.elems .k s.cfg.N
  ((s.fill .h 0 (2 * s.cfg.N) (dftKernelElem s.cfg k)).scribble
    (workElem s.cfg s.draws (exactDft s.cfg.N (loadReal k)))).setPhase .ready

/-- `KFFT` (rule R101). -/
def execKfft (s : State) : Host.Outcome State Fault Refusal :=
  runCommand .kfft onlyUnbuilt noCheck transformKernel s

/-- `KFREQ` (rule R102): `H` is taken as it stands. -/
def execKfreq (s : State) : Host.Outcome State Fault Refusal :=
  runCommand .kfreq onlyUnbuilt noCheck (fun t => t.setPhase .ready) s

/-- The diagnostic of a convolution on `len` elements (rules R112, R113). -/
def lengthDiag (len : Nat) (s : State) : State :=
  if len < s.cfg.N then s.diag .short else if s.cfg.N < len then s.diag .long else s

/-- `convolve(r, len)` (rule R110): the diagnostic, then the first m = min(len, N) elements of
the block replaced by the convolution of the block with the kernel in `H`. -/
def convolve (m : Mem) (len : Nat) (s : State) : State :=
  let h := s.elems .h (2 * s.cfg.N)
  let block := s.elems m (min len s.cfg.N)
  ((lengthDiag len s).fill m 0 (min len s.cfg.N) (cconvElem s.cfg h block)).scribble
    (workElem s.cfg s.draws (exactConvWork s.cfg.N h block))

/-- `CONV r, len` (rule R104). -/
def execConv (r : Sel) (len : Nat) (s : State) : Host.Outcome State Fault Refusal :=
  runCommand (.conv r len) (convLegal r) (convCheck r len) (convolve (selMem r) len) s

end Sys2Proof.Machine
end

