-- ==== Sys2Proof/Machine/Overlap.lean ====
section
/-! DEFINITION. The overlap carry buffer: `OVLWRAP`, `OVLUNWRAP`, `OVLRESET` (rules R120 to
R133). -/

namespace Sys2Proof.Machine

/-- Element j of the extended view: the block, zeros after it (rule R124), and under PRE the
carried padding added into the first P elements (rules R122, R125). -/
def wrappedElem (src : Mem) (n : Nat) (s : State) (j : Nat) : Elem :=
  let v := if j < n then s.elem src j else s.zero
  if s.cfg.tailAdd = .pre ∧ j < s.cfg.P then elemAdd s.cfg s.draws j v (s.elem .pad j) else v

/-- The diagnostic of an overlap wrap on `len` elements (rule R123). -/
def truncDiag (len : Nat) (s : State) : State := if s.cfg.OB < len then s.diag .trunc else s

/-- `wrap(SRC, len)` (rule R122), n = min(len, OB). -/
def wrap (src : Mem) (len : Nat) (s : State) : State :=
  (((truncDiag len s).fill .x 0 (min len s.cfg.OB + s.cfg.P)
    (wrappedElem src (min len s.cfg.OB) s)).setActlen (min len s.cfg.OB)).advance

/-- `OVLWRAP len` (rule R121). -/
def execOvlwrap (len : Nat) (s : State) : Host.Outcome State Fault Refusal :=
  runCommand (.ovlwrap len) onlyReady (ioCheck len) (fun t => (wrap .io len t).setPhase .inner) s

/-- Element j of the view at the split: under POST the carried padding is added into the first P
elements (rules R127, R132). -/
def unwrappedElem (s : State) (j : Nat) : Elem :=
  if s.cfg.tailAdd = .post ∧ j < s.cfg.P then
    elemAdd s.cfg s.draws j (s.elem .x j) (s.elem .pad j)
  else s.elem .x j

/-- The first P elements of the view with the padding added, under POST only (rule R127). -/
def addTail (s : State) : State :=
  match s.cfg.tailAdd with
  | .pre => s
  | .post => s.fill .x 0 s.cfg.P (unwrappedElem s)

/-- `unwrap(DST)` (rule R127), n = ACTLEN: the first n elements of the view are the output, the
P after them the new padding. -/
def unwrap (dst : Mem) (s : State) : State :=
  (((addTail s).fill dst 0 s.actlen.toNat (unwrappedElem s)).fill .pad 0 s.cfg.P
    (fun j => unwrappedElem s (s.actlen.toNat + j))).advance

/-- `OVLUNWRAP` (rule R127). -/
def execOvlunwrap (s : State) : Host.Outcome State Fault Refusal :=
  runCommand .ovlunwrap onlyInner noCheck (fun t => (unwrap .io t).setPhase .ready) s

/-- `PAD` and `X` zeroed (rule R130). -/
def clearOverlap (s : State) : State :=
  (s.fill .pad 0 s.cfg.P (fun _ => s.zero)).fill .x 0 s.cfg.N (fun _ => s.zero)

/-- `OVLRESET` (rule R130). -/
def execOvlreset (s : State) : Host.Outcome State Fault Refusal :=
  runCommand .ovlreset onlyReady noCheck clearOverlap s

end Sys2Proof.Machine
end

