-- ==== Sys2Proof/Machine/Oversample.lean ====
section
/-! DEFINITION. The oversampling composition: `ZSTUFF`, `DECIM`, `OVSBEGIN`, `OVSEND` (rules R135
to R149). -/

namespace Sys2Proof.Machine

/-- Element i of the zero-stuffed block: F·IO[j] at i = j·F, `+0.0` between (rule R136). -/
def stuffedElem (s : State) (i : Nat) : Elem :=
  if i % s.cfg.F = 0 then elemScale s.cfg s.draws i (s.elem .io (i / s.cfg.F)) else s.zero

/-- `zero_stuff(len)` (rule R136). -/
def zeroStuff (len : Nat) (s : State) : State :=
  (s.fill .os 0 (len * s.cfg.F) (stuffedElem s)).advance

/-- `decimate(len)` (rule R137). -/
def decimate (len : Nat) (s : State) : State :=
  s.fill .io 0 len (fun j => s.elem .os (j * s.cfg.F))

/-- `ZSTUFF len` (rule R136). -/
def execZstuff (len : Nat) (s : State) : Host.Outcome State Fault Refusal :=
  runCommand (.zstuff len) onlyReady (blockCheck len) (zeroStuff len) s

/-- `DECIM len` (rule R137). -/
def execDecim (len : Nat) (s : State) : Host.Outcome State Fault Refusal :=
  runCommand (.decim len) onlyReady (blockCheck len) (decimate len) s

/-- The pre-filter or post-filter: one convolution of the extended view (rules R140, R142). -/
def filterView (s : State) : State := convolve .x (s.actlen.toNat + s.cfg.P) s

/-- `OVSBEGIN` past its assertion (rule R140). -/
def beginOversample (len : Nat) (s : State) : State :=
  (filterView (wrap .os (len * s.cfg.F) (zeroStuff len s))).setPhase .callback

/-- `OVSBEGIN len` (rules R139, R140). -/
def execOvsbegin (len : Nat) (s : State) : Host.Outcome State Fault Refusal :=
  runCommand (.ovsbegin len) onlyReady (blockCheck len) (beginOversample len) s

/-- `OVSEND` (rule R142). -/
def endOversample (s : State) : State :=
  (decimate (s.actlen.toNat / s.cfg.F) (unwrap .os (filterView s))).setPhase .ready

/-- `OVSEND` (rule R142). -/
def execOvsend (s : State) : Host.Outcome State Fault Refusal :=
  runCommand .ovsend onlyCallback noCheck endOversample s

end Sys2Proof.Machine
end

