-- ==== Sys2Proof/Machine/System.lean ====
section
/-! DEFINITION. The housekeeping commands `NOP` and `DIAGCLR` (rules R153, R154). -/

namespace Sys2Proof.Machine

/-- `NOP` (rule R153): no state changes. -/
def execNop (s : State) : Host.Outcome State Fault Refusal :=
  runCommand .nop anyPhase noCheck (fun t => t) s

/-- The three counters cleared (rule R154). -/
def clearDiags (s : State) : State := { s with diagShort := 0, diagLong := 0, diagTrunc := 0 }

/-- `DIAGCLR` (rule R154). -/
def execDiagclr (s : State) : Host.Outcome State Fault Refusal :=
  runCommand .diagclr anyPhase noCheck clearDiags s

end Sys2Proof.Machine
end

