-- ==== Sys2Proof/Machine/Dispatch.lean ====
section
/-! DEFINITION. One arm per command of the opcode map (rule R74). -/

namespace Sys2Proof.Machine

def exec (i : Instr) (s : State) : Host.Outcome State Fault Refusal :=
  match i with
  | .nop => Sys2Proof.Machine.execNop s
  | .kgen => Sys2Proof.Machine.execKgen s
  | .kfft => Sys2Proof.Machine.execKfft s
  | .kfreq => Sys2Proof.Machine.execKfreq s
  | .conv r len => Sys2Proof.Machine.execConv r len s
  | .ovlwrap len => Sys2Proof.Machine.execOvlwrap len s
  | .ovlunwrap => Sys2Proof.Machine.execOvlunwrap s
  | .ovlreset => Sys2Proof.Machine.execOvlreset s
  | .ovsbegin len => Sys2Proof.Machine.execOvsbegin len s
  | .ovsend => Sys2Proof.Machine.execOvsend s
  | .zstuff len => Sys2Proof.Machine.execZstuff len s
  | .decim len => Sys2Proof.Machine.execDecim len s
  | .diagclr => Sys2Proof.Machine.execDiagclr s

end Sys2Proof.Machine
end

