-- ==== Sys2Proof/Machine/HostMoves.lean ====
section
/-! DEFINITION. The five moves of the host (rule R21): the CSR space (rules R32 to R41), the
sample space (rules R56 to R65), the issue of a command word (rule R70). -/

namespace Sys2Proof.Machine

/-- Every register of rule R32's table. -/
def allCsrs : List Csr :=
  [.id, .cmd, .status, .faultcode, .faultcmd, .actlen, .viewlen, .cfgFactor, .cfgMaxblk, .cfgKlen,
    .cfgPad, .cfgN, .cfgOb, .cfgIocap, .cfgFlags, .latency, .diagShort, .diagLong, .diagTrunc]

/-- Byte offset of a register (rule R32). -/
def Csr.offset : Csr → Nat
  | .id => 0x00
  | .cmd => 0x04
  | .status => 0x08
  | .faultcode => 0x0C
  | .faultcmd => 0x10
  | .actlen => 0x14
  | .viewlen => 0x18
  | .cfgFactor => 0x20
  | .cfgMaxblk => 0x24
  | .cfgKlen => 0x28
  | .cfgPad => 0x2C
  | .cfgN => 0x30
  | .cfgOb => 0x34
  | .cfgIocap => 0x38
  | .cfgFlags => 0x3C
  | .latency => 0x40
  | .diagShort => 0x50
  | .diagLong => 0x54
  | .diagTrunc => 0x58

/-- The register at an offset, if the offset is mapped (rules R32, R41). -/
def csrAt (off : Nat) : Option Csr := allCsrs.find? (fun c => decide (c.offset = off))

/-- What a register reads (rules R32 to R40). -/
def readCsr (s : State) : Csr → Word
  | .id => 0x46434531
  | .cmd => 0
  | .status => statusWord s
  | .faultcode => s.faultCode.code.setWidth 32
  | .faultcmd => s.faultCmd
  | .actlen => s.actlen.setWidth 32
  | .viewlen => BitVec.ofNat 32 (s.actlen.toNat + s.cfg.P)
  | .cfgFactor => BitVec.ofNat 32 s.cfg.F
  | .cfgMaxblk => BitVec.ofNat 32 s.cfg.M
  | .cfgKlen => BitVec.ofNat 32 s.cfg.L
  | .cfgPad => BitVec.ofNat 32 s.cfg.P
  | .cfgN => BitVec.ofNat 32 s.cfg.N
  | .cfgOb => BitVec.ofNat 32 s.cfg.OB
  | .cfgIocap => BitVec.ofNat 32 s.cfg.iocap
  | .cfgFlags => cfgFlags s.cfg
  | .latency => BitVec.ofNat 32 s.cfg.latencySamples
  | .diagShort => s.diagShort
  | .diagLong => s.diagLong
  | .diagTrunc => s.diagTrunc

/-- The memory a region code names; codes 5 to 15 are reserved, `OS`, `W` and `S` have none
(rule R57). -/
def bankOf (r : BitVec 4) : Option Mem :=
  match r.toNat with
  | 0 => some .io
  | 1 => some .x
  | 2 => some .k
  | 3 => some .h
  | 4 => some .pad
  | _ => none

/-- The flat element address r ‖ i (rule R57). -/
def flatAddress (r : BitVec 4) (i : BitVec 24) : BitVec 28 := r ++ i

/-- The index bound of a host access (rule R62): the capacity, or for `X` the open window. -/
def accessBound (s : State) : Mem → Nat
  | .io => s.cfg.iocap
  | .x => windowLen s
  | .k => s.cfg.N
  | .h => 2 * s.cfg.N
  | .pad => s.cfg.P
  | .os => 0
  | .w => 0
  | .scr => 0

/-- The right `R` of rule R62. -/
def mayRead (ph : Phase) : Mem → Bool
  | .io => true
  | .x => onlyWindow ph
  | .k => true
  | .h => true
  | .pad => true
  | .os => false
  | .w => false
  | .scr => false

/-- The right `W` of rule R62. -/
def mayWrite (ph : Phase) : Mem → Bool
  | .io => onlyUnbuilt ph || onlyReady ph
  | .x => onlyWindow ph
  | .k => onlyUnbuilt ph
  | .h => onlyUnbuilt ph
  | .pad => false
  | .os => false
  | .w => false
  | .scr => false

/-- `SmpRead(r, i)` (rules R58, R62, R63). -/
def sampleRead (r : BitVec 4) (i : BitVec 24) (s : State) : Host.Outcome State Fault Refusal :=
  match bankOf r with
  | none => .refused (.sampleAccess r i)
  | some m =>
    if mayRead s.phase m = true ∧ i.toNat < accessBound s m then
      .next { s with reply := .sample (s.elem m i.toNat) }
    else .refused (.sampleAccess r i)

/-- `SmpWrite(r, i, v)` (rules R58, R62, R63, R65): exactly one element changes. -/
def sampleWrite (r : BitVec 4) (i : BitVec 24) (v : Elem) (s : State) :
    Host.Outcome State Fault Refusal :=
  match bankOf r with
  | none => .refused (.sampleAccess r i)
  | some m =>
    if mayWrite s.phase m = true ∧ i.toNat < accessBound s m then
      if v.kind = s.cfg.kind then
        .next { s.fill m i.toNat 1 (fun _ => v) with reply := .done }
      else .refused (.wrongFormat v)
    else .refused (.sampleAccess r i)

/-- `CsrRead(off)` (rules R32, R41): no state changes. -/
def registerRead (off : Nat) (s : State) : Host.Outcome State Fault Refusal :=
  match csrAt off with
  | none => .refused (.csrAccess off)
  | some c => .next { s with reply := .csr (readCsr s c) }

/-- Rule R70: the engine decodes and executes a command word. In FAULT it is ignored (rule
R157); an illegal word raises `ILLEGAL_CMD` (rule R76). -/
def issue (w : Word) (s : State) : Host.Outcome State Fault Refusal :=
  if s.phase = .fault then .next s
  else
    match decode w with
    | none => .next (raiseFault .illegalCmd w s)
    | some i => exec i s

/-- `CsrWrite(off, v)` (rules R34, R41): only `CMD` is writable. -/
def registerWrite (off : Nat) (v : Word) (s : State) : Host.Outcome State Fault Refusal :=
  if off = Csr.cmd.offset then issue v { s with reply := .done } else .refused (.csrAccess off)

/-- One move of the host (rule R21). -/
def hostMove (m : Move) (s : State) : Host.Outcome State Fault Refusal :=
  match m with
  | .reset => .next (resetMove s)
  | .csrRead off => registerRead off s
  | .csrWrite off v => registerWrite off v s
  | .smpRead r i => sampleRead r i s
  | .smpWrite r i v => sampleWrite r i v s

/-- The bytes of a value of n bytes behind a byte-addressed wrapper, lowest address first: the
wrapper is little-endian (rule R59, log 19). -/
def wrapperBytes (n v : Nat) : List (BitVec 8) :=
  (List.range n).map fun j => BitVec.ofNat 8 (v / 2 ^ (8 * j))

end Sys2Proof.Machine
end

