-- ==== Sys2Proof/Machine/Step.lean ====
section
/-! DEFINITION. One step: the host's next move (rules R18, R21). -/

namespace Sys2Proof.Machine

/-- One step: the oldest move still to come is made, whole (rules R18, R66). With no move to
come the engine waits and nothing changes (rule R182). -/
def step (s : State) : Host.Outcome State Fault Refusal :=
  match s.moves with
  | [] => .next s
  | m :: rest => hostMove m { s with moves := rest }

/-- `s` with the command word `w` issued by the host's next move, `CsrWrite(0x04, w)` (rules R34,
R70). Commands are not fetched from a memory (rule R68): this stands for the host that issues
them. Log 3. -/
def State.withFetchWord (s : State) (nbits w : Nat) : State :=
  { s with moves := .csrWrite Csr.cmd.offset (BitVec.ofNat 32 (w % 2 ^ nbits)) :: s.moves }

end Sys2Proof.Machine
end

