-- ==== Sys2Proof/Machine/Asm.lean ====
section
/-! DEFINITION. The assembler's text (rule R82), the pseudo-commands (rule R83) and the host
directives of listings (rule R84). A line is a list of characters. Log 16. -/

namespace Sys2Proof.Machine

/-- `BUILD` (rule R83). -/
def buildCommands : List Instr := [.kgen, .kfft]

/-- `FILTER len` (rule R83). -/
def filterCommands (p : Params) (len : Nat) : List Instr :=
  [.ovlwrap len, .conv .x (min len p.OB + p.P), .ovlunwrap]

/-- `OVS len` (rule R83). -/
def ovsCommands (len : Nat) : List Instr := [.ovsbegin len, .ovsend]

/-- The moves that issue a list of commands, in order (rules R34, R79). -/
def issueMoves (l : List Instr) : List Move := l.map fun i => .csrWrite Csr.cmd.offset (encode i)

/-- The region code of a host-visible memory (rule R57), as `WR` and `RD` need it (rule R84). -/
def bankCode : Mem → Option (BitVec 4)
  | .io => some 0
  | .x => some 1
  | .k => some 2
  | .h => some 3
  | .pad => some 4
  | .os => none
  | .w => none
  | .scr => none

/-- `WR R[a..) = vs` (rule R84): one `SmpWrite` an element, in rising order. -/
def wrMoves (r : BitVec 4) (a : Nat) (vs : List Elem) : List Move :=
  vs.zipIdx.map fun c => .smpWrite r (BitVec.ofNat 24 (a + c.2)) c.1

/-- `RD R[a..b)` (rule R84). -/
def rdMoves (r : BitVec 4) (a b : Nat) : List Move :=
  (List.range' a (b - a)).map fun i => .smpRead r (BitVec.ofNat 24 i)

/-- The mnemonics without operands (rule R82). -/
def plainNames : List (List Char × List Instr) :=
  [(['N', 'O', 'P'], [.nop]), (['K', 'G', 'E', 'N'], [.kgen]), (['K', 'F', 'F', 'T'], [.kfft]),
    (['K', 'F', 'R', 'E', 'Q'], [.kfreq])] ++
  [(['O', 'V', 'L', 'U', 'N', 'W', 'R', 'A', 'P'], [.ovlunwrap]),
    (['O', 'V', 'L', 'R', 'E', 'S', 'E', 'T'], [.ovlreset]),
    (['O', 'V', 'S', 'E', 'N', 'D'], [.ovsend]),
    (['D', 'I', 'A', 'G', 'C', 'L', 'R'], [.diagclr]),
    (['B', 'U', 'I', 'L', 'D'], buildCommands)]

/-- The mnemonics with a length operand (rules R82, R83). -/
def lengthNames : List (List Char) :=
  [['O', 'V', 'L', 'W', 'R', 'A', 'P'], ['O', 'V', 'S', 'B', 'E', 'G', 'I', 'N'],
    ['Z', 'S', 'T', 'U', 'F', 'F'], ['D', 'E', 'C', 'I', 'M'], ['F', 'I', 'L', 'T', 'E', 'R'],
    ['O', 'V', 'S']]

/-- What a mnemonic with a length operand stands for (rules R82, R83). -/
def lengthMeaning (p : Params) (name : List Char) (len : Nat) : List Instr :=
  match lengthNames.idxOf name with
  | 0 => [.ovlwrap len]
  | 1 => [.ovsbegin len]
  | 2 => [.zstuff len]
  | 3 => [.decim len]
  | 4 => filterCommands p len
  | _ => ovsCommands len

/-- The value of a digit. -/
def digitOf (c : Char) : Option Nat :=
  if '0' ≤ c ∧ c ≤ '9' then some (c.toNat - '0'.toNat)
  else if 'a' ≤ c ∧ c ≤ 'f' then some (c.toNat - 'a'.toNat + 10)
  else if 'A' ≤ c ∧ c ≤ 'F' then some (c.toNat - 'A'.toNat + 10)
  else none

/-- Digits of a base, most significant first, after the value `acc`. -/
def digitsValue (base : Nat) : List Char → Nat → Option Nat
  | [], acc => some acc
  | c :: cs, acc =>
    match digitOf c with
    | none => none
    | some d => if d < base then digitsValue base cs (base * acc + d) else none

/-- A length: a decimal number, or a hexadecimal one with `0x` (rule R82), that fits 24 bits. -/
def lengthOf (tok : List Char) : Option Nat :=
  let v := match tok with
    | [] => none
    | ['0', 'x'] => none
    | '0' :: 'x' :: ds => digitsValue 16 ds 0
    | ds => digitsValue 10 ds 0
  match v with
  | none => none
  | some n => if n < 2 ^ 24 then some n else none

/-- One token, if there is one (its characters come reversed). -/
def tokenOf : List Char → List (List Char)
  | [] => []
  | c :: cs => [(c :: cs).reverse]

/-- The tokens of a line: words, with commas apart; a comment runs from `;` to the end (rule
R82). -/
def tokens : List Char → List Char → List (List Char)
  | [], cur => tokenOf cur
  | c :: cs, cur =>
    if c = ';' then tokenOf cur
    else if c = ' ' ∨ c = '\t' then tokenOf cur ++ tokens cs []
    else if c = ',' then tokenOf cur ++ [[',']] ++ tokens cs []
    else tokens cs (c :: cur)

/-- The region operand of `CONV` (rule R82). -/
def selOf (tok : List Char) : Option Sel :=
  if tok = ['I', 'O'] then some .io else if tok = ['X'] then some .x else none

/-- The commands one line stands for (rules R82, R83); `none` where the line is no command. -/
def assembleLine (p : Params) (line : List Char) : Option (List Instr) :=
  match tokens line [] with
  | [] => some []
  | [name] => plainNames.lookup name
  | [name, l] =>
    if name ∈ lengthNames then (lengthOf l).map (lengthMeaning p name) else none
  | [name, r, comma, l] =>
    if name = ['C', 'O', 'N', 'V'] ∧ comma = [','] then
      match selOf r, lengthOf l with
      | some s, some n => some [.conv s n]
      | _, _ => none
    else none
  | _ => none

end Sys2Proof.Machine
end

