-- ==== Sys2Proof/Machine/Channels.lean ====
section
/-! DEFINITION. Several channels are several independent instances (rule R173): "a model of c
instances is the product of c independent machines". Log 20. -/

namespace Sys2Proof.Machine

/-- The instances, one a channel. -/
abbrev Channels := List State

/-- One step of channel c; the other instances do not change. A channel that does not exist has
nothing to do. -/
def stepChannel (c : Nat) (l : Channels) : Host.Outcome Channels Fault Refusal :=
  match l[c]? with
  | none => .next l
  | some s =>
    match step s with
    | .next t => .next (l.set c t)
    | .fault r => .fault r
    | .refused r => .refused r

end Sys2Proof.Machine
end

