-- ==== Sys2Proof/Machine/Reference.lean ====
section
/-! DEFINITION. The mathematical reference functions over the real and complex numbers (rules R16,
R19, R92, R111). Statements use them; no step does. -/

namespace Sys2Proof.Reference

open scoped BigOperators

/-- The real number an exact-real term stands for (log 9). -/
noncomputable def realOf : ExactReal → ℝ
  | .rat q => (q : ℝ)
  | .pi => Real.pi
  | .cosTurn a n => Real.cos (2 * Real.pi * a / n)
  | .sinTurn a n => Real.sin (2 * Real.pi * a / n)
  | .add u v => realOf u + realOf v
  | .mul u v => realOf u * realOf v
  | .inv u => (realOf u)⁻¹

/-- The real number an element of the exact instance holds. -/
noncomputable def elemReal (e : Elem) : ℝ := realOf (Machine.exactOf e)

/-- The real number β is one that the data stands for (log 2). -/
def BetaHolds (b : Beta) (β : ℝ) : Prop := (b.lo : ℝ) ≤ β ∧ β ≤ (b.hi : ℝ)

/-- L0 = ceil(4 / max(β, 10^-10)), for any real β (rules R10, R90). -/
noncomputable def initialLength (β : ℝ) : ℕ := ⌈4 / max β (1 / 10 ^ 10)⌉₊

/-- `kernel_length(β)`, for any real β (rule R90). -/
noncomputable def kernelLengthOf (β : ℝ) : ℕ :=
  if initialLength β % 2 = 0 then initialLength β + 1 else initialLength β

/-- sinc (rule R19). -/
noncomputable def sinc (x : ℝ) : ℝ := if x = 0 then 1 else Real.sin x / x

/-- exp(sign·2πi·a/n), the roots of rule R19. -/
noncomputable def root (sign : ℝ) (n a : ℕ) : ℂ :=
  Complex.exp (((sign * (2 * Real.pi * a / n) : ℝ) : ℂ) * Complex.I)

/-- DFT_N(x)[j] = Σ x[k]·exp(−2πi·j·k/N), unscaled (rule R19). -/
noncomputable def dft (n : ℕ) (x : ℕ → ℂ) (j : ℕ) : ℂ :=
  ∑ k ∈ Finset.range n, x k * root (-1) n (j * k)

/-- IDFT_N(X)[k] = Σ X[j]·exp(+2πi·j·k/N), unscaled (rule R19). -/
noncomputable def idft (n : ℕ) (x : ℕ → ℂ) (k : ℕ) : ℂ :=
  ∑ j ∈ Finset.range n, x j * root 1 n (j * k)

/-- cconv_N(g, x)[m] = Σ g[k]·x[(m − k) mod N] (rule R19). -/
def cconv (n : ℕ) (g x : ℕ → ℝ) (m : ℕ) : ℝ :=
  ∑ k ∈ Finset.range n, g k * x ((m + (n - k)) % n)

/-- Sample m of the linear convolution of two sequences that start at 0 (rule R116). -/
def linearConv (g x : ℕ → ℝ) (m : ℕ) : ℝ := ∑ k ∈ Finset.range (m + 1), g k * x (m - k)

/-- c[i] = sinc(2π·fc·(i − m))·(0.54 − 0.46·cos(2π·i/L)), fc = 0.5/F, m = (L − 1)/2 (rule
R92). -/
noncomputable def rawCoefficient (F L i : ℕ) : ℝ :=
  sinc (2 * Real.pi * (0.5 / F) * ((i : ℝ) - ((L : ℝ) - 1) / 2)) *
    (0.54 - 0.46 * Real.cos (2 * Real.pi * i / L))

/-- Σ of the raw coefficients (rule R93). -/
noncomputable def rawCoefficientSum (F L : ℕ) : ℝ := ∑ i ∈ Finset.range L, rawCoefficient F L i

/-- Hc[j] = H[2j] + i·H[2j+1] (rule R64). -/
noncomputable def kernelSpectrum (s : Machine.State) (j : ℕ) : ℂ :=
  ⟨elemReal (s.elem .h (2 * j)), elemReal (s.elem .h (2 * j + 1))⟩

/-- g[k] = Re(IDFT_N(Hc)[k]) / N, the kernel in time (rule R111). -/
noncomputable def kernelInTime (s : Machine.State) (k : ℕ) : ℝ :=
  (idft s.cfg.N (kernelSpectrum s) k).re / s.cfg.N

/-- The block R[0..m), zero beyond (rule R111). -/
noncomputable def blockOf (s : Machine.State) (r : Machine.Mem) (m k : ℕ) : ℝ :=
  if k < m then elemReal (s.elem r k) else 0

end Sys2Proof.Reference
end

