-- ==== Sys2Proof/Safety.lean ====
section
/-! DEFINITION. The invariant of the machine's states, what a step may leave unchanged, and what
counts as a safe run: the terms the claims use. -/

namespace Sys2Proof.Machine

/-- What holds of every state of a legal instance: the instance is legal (R9 to R15); ACTLEN ≤ OB
(R24), a multiple of F in CALLBACK (R37, R159); a fault is recorded exactly in FAULT (R29, R30);
every memory is in its canonical form, within its capacity and of the instance's kind. -/
structure Inv (s : State) : Prop where
  legal : s.cfg.legal = true
  actlen_le : s.actlen.toNat ≤ s.cfg.OB
  actlen_callback : s.phase = .callback → s.cfg.F ∣ s.actlen.toNat
  faultCode_iff : s.faultCode = .none ↔ s.phase ≠ .fault
  faultCmd_zero : s.phase ≠ .fault → s.faultCmd = 0
  memories : ∀ m, Memory.wf s.cfg.kind (s.cfg.capacity m) (s.region m)

/-- Every memory but those listed reads as before, element by element. -/
def SameMemories (changed : List Mem) (s t : State) : Prop :=
  ∀ m, m ∉ changed → ∀ i, t.elem m i = s.elem m i

/-- The instance, the fault record and the host's side are as before. -/
def SameRecord (s t : State) : Prop :=
  t.cfg = s.cfg ∧ t.faultCode = s.faultCode ∧ t.faultCmd = s.faultCmd ∧ t.moves = s.moves ∧
    t.reply = s.reply

/-- The three counters are as before. -/
def SameDiags (s t : State) : Prop :=
  t.diagShort = s.diagShort ∧ t.diagLong = s.diagLong ∧ t.diagTrunc = s.diagTrunc

/-- A run of k steps that never stops and never enters phase FAULT. -/
def SafeRun (s : State) : Nat → Prop
  | 0 => s.phase ≠ .fault
  | k + 1 => s.phase ≠ .fault ∧ ∃ t, step s = .next t ∧ SafeRun t k

end Sys2Proof.Machine
end

