-- ==== Sys2Proof/Certificates/Slice0/Obligations.lean ====
section
/-! DEFINITION. The statements for the provers, and the vocabulary they are written in. -/

namespace Sys2Proof.Claims

open Sys2Proof Sys2Proof.Machine Sys2Proof.Reference

/-- The host's next move is `m`. -/
def offering (s : State) (m : Move) : State := { s with moves := m :: s.moves }

/-- The host's next move is not `Reset`. -/
def noReset (s : State) : Prop := s.moves.head? ≠ some .reset

/-- The eight words without operands of rule R76. -/
def fixedWords : List Word :=
  [0x00000000, 0x10000000, 0x20000000, 0x30000000, 0x60000000, 0x70000000, 0x90000000, 0xC0000000]

/-- The six words that carry a length (rule R76), less the length. -/
def lengthWords : List Word :=
  [0x40000000, 0x41000000, 0x50000000, 0x80000000, 0xA0000000, 0xB0000000]

/-- The set of legal words, as rule R76 lists it. -/
def LegalWord (w : Word) : Prop :=
  w ∈ fixedWords ∨ ∃ b ∈ lengthWords, ∃ len, len < 2 ^ 24 ∧ w = b ||| BitVec.ofNat 32 len

/-- Rule R156's table: the phase after a command whose operand check passes. -/
def phaseTable : Instr → Phase → Phase
  | _, .fault => .fault
  | .nop, ph => ph
  | .diagclr, ph => ph
  | .kgen, .unbuilt => .unbuilt
  | .kfft, .unbuilt => .ready
  | .kfreq, .unbuilt => .ready
  | .conv .io _, .ready => .ready
  | .conv .x _, .inner => .inner
  | .conv .x _, .callback => .callback
  | .ovlwrap _, .ready => .inner
  | .ovlunwrap, .inner => .ready
  | .ovlreset, .ready => .ready
  | .ovsbegin _, .ready => .callback
  | .ovsend, .callback => .ready
  | .zstuff _, .ready => .ready
  | .decim _, .ready => .ready
  | _, _ => .fault

/-- The operand checks of rule R81's last column. -/
def OperandsFit (s : State) : Instr → Prop
  | .conv .io len => len ≤ s.cfg.iocap
  | .conv .x len =>
    (s.phase = .inner → len ≤ s.actlen.toNat + s.cfg.P) ∧ (s.phase = .callback → len ≤ s.actlen.toNat)
  | .ovlwrap len => len ≤ s.cfg.iocap
  | .ovsbegin len => len ≤ s.cfg.M
  | .zstuff len => len ≤ s.cfg.M
  | .decim len => len ≤ s.cfg.M
  | _ => True

/-- The fault a failed operand check raises (rule R81). -/
def operandFault : Instr → FaultCode
  | .ovsbegin _ => .assertBlock
  | .zstuff _ => .assertBlock
  | .decim _ => .assertBlock
  | _ => .badOperand

/-- A command is legal and its operands fit: it is executed (rules R70, R81). -/
def Executes (s : State) (i : Instr) : Prop :=
  s.phase ≠ .fault ∧ phaseTable i s.phase ≠ .fault ∧ OperandsFit s i

/-- The fault the command word w raises outside FAULT (rules R70, R76, R81). -/
def Raises (s : State) (w : Word) (code : FaultCode) : Prop :=
  s.phase ≠ .fault ∧ ((decode w = none ∧ code = .illegalCmd) ∨ ∃ i, decode w = some i ∧
    ((phaseTable i s.phase = .fault ∧ code = .badPhase) ∨
      (phaseTable i s.phase ≠ .fault ∧ ¬OperandsFit s i ∧ code = operandFault i)))

/-- The word of a command with a length is the base word or the length, at every length the field
admits (rules R73, R74). -/
def EncodesAs (base : Word) (cmd : Nat → Instr) : Prop :=
  ∀ len, len < 2 ^ 24 → encode (cmd len) = base ||| BitVec.ofNat 32 len

/-- `C <- sat32(C + 1)` if the event occurs, else unchanged (rule R160). -/
def Counted (event : Prop) (before after : Word) : Prop :=
  (event → after.toNat = min (before.toNat + 1) (2 ^ 32 - 1)) ∧ (¬event → after = before)

/-- An exact POST engine in READY in mid-stream (rule R133): no taps from L on, T samples of the
stream have gone in, and `PAD` is the tail of the linear convolution of the stream with the kernel. -/
structure MidStream (s : State) (g : ℕ → ℝ) (T : ℕ) (stream : ℕ → ℝ) : Prop where
  ready : s.phase = .ready
  legal : s.cfg.legal = true
  exact : s.cfg.arith = .exact
  post : s.cfg.tailAdd = .post
  kernel : ∀ k, k < s.cfg.N → kernelInTime s k = g k
  short : ∀ k, s.cfg.L ≤ k → g k = 0
  ends : ∀ m, T ≤ m → stream m = 0
  tail : ∀ j, j < s.cfg.P → elemReal (s.elem .pad j) = linearConv g stream (T + j)

/-- The codes of rule R27. -/
def phaseNumber : Phase → Nat
  | .unbuilt => 0
  | .ready => 1
  | .inner => 2
  | .callback => 3
  | .fault => 4

/-- The codes of rule R163. -/
def faultNumber : FaultCode → Nat
  | .none => 0
  | .assertBlock => 1
  | .illegalCmd => 2
  | .badPhase => 3
  | .badOperand => 4

/-- The bits of rule R38: `FP64` at 0, `TAIL_POST` at 1. -/
def flagsNumber (p : Params) : Nat :=
  (if p.fp = .binary64 then 1 else 0) + (if p.tailAdd = .post then 2 else 0)

/-- `DIAG_ANY` at bit 4 of `STATUS` (rule R35). -/
def diagNumber (s : State) : Nat :=
  if 0 < s.diagShort.toNat + s.diagLong.toNat + s.diagTrunc.toNat then 16 else 0

/-- The rows of rule R32's table that hold parameters, with P = L − 1, OB = M·F and
N = M·F + L − 1 of rule R10 written out. -/
def constantRows (p : Params) : List (Nat × Nat) :=
  [(0x20, p.F), (0x24, p.M), (0x28, p.L), (0x2C, p.L - 1), (0x30, p.M * p.F + p.L - 1),
    (0x34, p.M * p.F), (0x38, p.iocap), (0x3C, flagsNumber p), (0x40, (p.L - 1) / p.latDiv)]

/-- The rows of rule R32's table: offset and value. -/
def csrRows (s : State) : List (Nat × Nat) :=
  [(0x00, 0x46434531), (0x04, 0), (0x08, phaseNumber s.phase + diagNumber s),
    (0x0C, faultNumber s.faultCode), (0x10, s.faultCmd.toNat), (0x14, s.actlen.toNat),
    (0x18, s.actlen.toNat + (s.cfg.L - 1))] ++ constantRows s.cfg ++
  [(0x50, s.diagShort.toNat), (0x54, s.diagLong.toNat), (0x58, s.diagTrunc.toNat)]

/-- The reset column of rule R32's table. -/
def csrResetRows (p : Params) : List (Nat × Nat) :=
  [(0x00, 0x46434531), (0x04, 0), (0x08, 0), (0x0C, 0), (0x10, 0), (0x14, 0), (0x18, p.L - 1)] ++
    constantRows p ++ [(0x50, 0), (0x54, 0), (0x58, 0)]

/-- The host-visible memories and their codes (rule R57). -/
def banks : List (BitVec 4 × Mem) := [(0, .io), (1, .x), (2, .k), (3, .h), (4, .pad)]

/-- The right to read of rule R62's table, the index bound included. -/
def ReadRight (s : State) (m : Mem) (i : Nat) : Prop :=
  match m, s.phase with
  | .io, _ => i < s.cfg.iocap
  | .x, .inner => i < s.actlen.toNat + s.cfg.P
  | .x, .callback => i < s.actlen.toNat
  | .k, _ => i < s.cfg.N
  | .h, _ => i < 2 * s.cfg.N
  | .pad, _ => i < s.cfg.P
  | _, _ => False

/-- The right to write of rule R62's table, the index bound included. -/
def WriteRight (s : State) (m : Mem) (i : Nat) : Prop :=
  match m, s.phase with
  | .io, .unbuilt => i < s.cfg.iocap
  | .io, .ready => i < s.cfg.iocap
  | .x, .inner => i < s.actlen.toNat + s.cfg.P
  | .x, .callback => i < s.actlen.toNat
  | .k, .unbuilt => i < s.cfg.N
  | .h, .unbuilt => i < 2 * s.cfg.N
  | _, _ => False

/-- `CONV r, len` is legal and its length fits (rule R104). -/
def ConvAccepted (s : State) (r : Sel) (len : Nat) : Prop :=
  match r with
  | .io => s.phase = .ready ∧ len ≤ s.cfg.iocap
  | .x => (s.phase = .inner ∧ len ≤ s.actlen.toNat + s.cfg.P) ∨
      (s.phase = .callback ∧ len ≤ s.actlen.toNat)

/-- The memory of a region selector (rule R77). -/
def target : Sel → Mem
  | .io => .io
  | .x => .x

/-- Element j of the extended view that `wrap` makes of a block (rules R122, R124, R125). -/
def extendedView (s : State) (draw n : Nat) (block : Nat → Elem) (j : Nat) : Elem :=
  let v := if j < n then block j else s.cfg.kind.zero
  if s.cfg.tailAdd = .pre ∧ j < s.cfg.P then elemAdd s.cfg draw j v (s.elem .pad j) else v

/-- Element j of the view at the split of `unwrap` (rules R127, R132). -/
def splitView (s : State) (draw : Nat) (view : Nat → Elem) (j : Nat) : Elem :=
  if s.cfg.tailAdd = .post ∧ j < s.cfg.P then elemAdd s.cfg draw j (view j) (s.elem .pad j)
  else view j

/-- The three commands of `FILTER len` (rule R83), run from s, end in t. -/
def FilterRun (s : State) (len : Nat) (t : State) : Prop :=
  ∃ a b, exec (.ovlwrap len) s = .next a ∧
    exec (.conv .x (min len s.cfg.OB + s.cfg.P)) a = .next b ∧ exec .ovlunwrap b = .next t

/-- Outside the phases listed and FAULT, the command raises `BAD_PHASE` and changes nothing else
(rules R81, R166). -/
def BadPhaseOutside (phases : List Phase) (i : Instr) : Prop :=
  ∀ s : State, s.phase ∉ phases → s.phase ≠ .fault →
    exec i s = .next { s with faultCode := .badPhase, faultCmd := encode i, phase := .fault }

/-- In READY, a length above the bound raises the fault and changes nothing else (rules R81,
R166). -/
def RaisesAbove (bound : State → Nat) (code : FaultCode) (cmd : Nat → Instr) : Prop :=
  ∀ (s : State) (len : Nat), s.phase = .ready → bound s < len →
    exec (cmd len) s =
      .next { s with faultCode := code, faultCmd := encode (cmd len), phase := .fault }

/-- `PAD`, `X` and `OS` all `+0.0` and the counters 0 (rule R184). -/
def CleanForTheFirstBlock (s : State) : Prop :=
  (∀ m ∈ [Mem.pad, Mem.x, Mem.os], ∀ i, s.elem m i = s.cfg.kind.zero) ∧
    s.diagShort = 0 ∧ s.diagLong = 0 ∧ s.diagTrunc = 0

/-- An engine before its build has not written them (rule R184). -/
def EmptyUntilBuilt (s : State) : Prop :=
  s.phase = .unbuilt → CleanForTheFirstBlock s

/-- Widths of the exponent and fraction fields of the IEEE 754 formats (log 10). -/
def exponentWidth : FpFormat → Nat
  | .binary32 => 8
  | .binary64 => 11

def fractionWidth : FpFormat → Nat
  | .binary32 => 23
  | .binary64 => 52

/-- The sign bit's weight. -/
def signBit (f : FpFormat) : Nat := 2 ^ (exponentWidth f + fractionWidth f)

def exponentField (f : FpFormat) (w : Nat) : Nat := w / 2 ^ fractionWidth f % 2 ^ exponentWidth f

def fractionField (f : FpFormat) (w : Nat) : Nat := w % 2 ^ fractionWidth f

def NanPattern (f : FpFormat) (w : Nat) : Prop :=
  exponentField f w = 2 ^ exponentWidth f - 1 ∧ fractionField f w ≠ 0

def InfPattern (f : FpFormat) (w : Nat) : Prop :=
  exponentField f w = 2 ^ exponentWidth f - 1 ∧ fractionField f w = 0

def FinitePattern (f : FpFormat) (w : Nat) : Prop := exponentField f w < 2 ^ exponentWidth f - 1

/-- The pattern of +infinity. -/
def infinityOf (f : FpFormat) : Nat := (2 ^ exponentWidth f - 1) * 2 ^ fractionWidth f

/-- The number a finite pattern stands for, in units of the smallest subnormal; of +infinity's
pattern, the magnitude that would follow the largest finite one. -/
def patternValue (f : FpFormat) (w : Nat) : ℤ :=
  (if signBit f ≤ w then -1 else 1) *
    (if exponentField f w = 0 then (fractionField f w : ℤ)
    else (2 ^ fractionWidth f + fractionField f w) * 2 ^ (exponentField f w - 1))

/-- The element with a bit pattern (rule R13). -/
def patternElem (f : FpFormat) (w : Nat) : Elem :=
  match f with
  | .binary32 => .b32 (BitVec.ofNat 32 w)
  | .binary64 => .b64 (BitVec.ofNat 64 w)

end Sys2Proof.Claims

open Sys2Proof Sys2Proof.Machine Sys2Proof.Reference Sys2Proof.Claims

/-! ## Encoding -/

/-- Words written out from rule R74's table and rule R82's examples. -/
def Obligations.ListedWordsDecode : Prop :=
  decode 0x4000000A = some (.conv .io 10) ∧ decode 0x41000006 = some (.conv .x 6) ∧
    decode 0x50000004 = some (.ovlwrap 4) ∧ decode 0x80000002 = some (.ovsbegin 2) ∧
    decode 0x20000000 = some .kfft ∧ decode 0xB0FFFFFF = some (.decim 16777215) ∧
    decode 0x42000005 = none ∧ decode 0x81000002 = none ∧ decode 0xD0000000 = none

/-- The five example lines of rule R82 assemble to the words it gives, and the pseudo-commands of
rule R83 to their expansions. -/
def Obligations.ListingLinesAssemble : Prop :=
  ∀ p : Params,
    (assembleLine p ['C', 'O', 'N', 'V', ' ', 'I', 'O', ',', ' ', '1', '0']).map (List.map encode)
        = some [0x4000000A] ∧
      (assembleLine p ['C', 'O', 'N', 'V', ' ', 'X', ',', ' ', '6']).map (List.map encode)
        = some [0x41000006] ∧
      (assembleLine p ['O', 'V', 'S', 'B', 'E', 'G', 'I', 'N', ' ', '2']).map (List.map encode)
        = some [0x80000002] ∧
      (assembleLine p ['O', 'V', 'L', 'W', 'R', 'A', 'P', ' ', '4']).map (List.map encode)
        = some [0x50000004] ∧
      (assembleLine p ['K', 'F', 'F', 'T', ' ', ';', 'x']).map (List.map encode)
        = some [0x20000000] ∧
      assembleLine p ['B', 'U', 'I', 'L', 'D'] = some [.kgen, .kfft] ∧
      assembleLine p ['F', 'I', 'L', 'T', 'E', 'R', ' ', '4'] =
        some [.ovlwrap 4, .conv .x (min 4 p.OB + p.P), .ovlunwrap] ∧
      assembleLine p ['O', 'V', 'S', ' ', '0', 'x', '1', '0'] = some [.ovsbegin 16, .ovsend]

/-- Rules R71 to R80: every command's word decodes to it, at every length the field admits. -/
def Obligations.DecodeOfEncode : Prop :=
  ∀ i : Instr, WellFormed i → decode (encode i) = some i

/-- Rules R76, R80: each legal word has one command, and is that command's word. -/
def Obligations.EncodeOfDecode : Prop :=
  ∀ (w : Word) (i : Instr), decode w = some i → WellFormed i ∧ encode i = w

/-- Rule R76: the legal words are the listed ones; any other word, issued outside FAULT, raises
`ILLEGAL_CMD`. -/
def Obligations.LegalWordsAreExactlyListed : Prop :=
  ∀ w : Word, ((∃ i, decode w = some i) ↔ LegalWord w) ∧
    (¬LegalWord w → ∀ s : State, s.phase ≠ .fault →
      step (offering s (.csrWrite 0x04 w)) =
        .next { s with reply := .done, faultCode := .illegalCmd, faultCmd := w, phase := .fault })

/-! ## Steps -/

/-- Rules R34, R70: writing a legal word to CMD executes its command; the model's own `moves`
loses the move and `reply` says it is done (log 3). -/
def Obligations.StepRunsTheIssuedCommand : Prop :=
  (∀ (s : State) (w : Word) (i : Instr), decode w = some i →
      step (offering s (.csrWrite 0x04 w)) = exec i { s with reply := .done }) ∧
    ∀ (s : State) (i : Instr), WellFormed i →
      step (s.withFetchWord 32 (encode i).toNat) = exec i { s with reply := .done }

/-- Rule R157: in FAULT every command word is accepted and ignored. -/
def Obligations.FaultPhaseIgnoresCommands : Prop :=
  ∀ (s : State) (w : Word), s.phase = .fault →
    step (offering s (.csrWrite 0x04 w)) = .next { s with reply := .done }

/-- Rule R182, with the model's empty queue of moves standing for a host that does nothing (log
3). -/
def Obligations.EngineWaitsForTheFirstMove : Prop :=
  State.reset.phase = .unbuilt ∧ ∀ s : State, s.moves = [] → step s = .next s

/-- Rules R51, R180: `Reset`, in any phase, puts every piece of state at its reset value; the
constants are unaffected. `W` and `S` are unspecified. -/
def Obligations.ResetMoveRestoresEverything : Prop :=
  ∀ s : State, ∃ t, step (offering s .reset) = .next t ∧ t.cfg = s.cfg ∧ t.phase = .unbuilt ∧
    t.actlen = 0 ∧ t.faultCode = .none ∧ t.faultCmd = 0 ∧ t.diagShort = 0 ∧ t.diagLong = 0 ∧
    t.diagTrunc = 0 ∧ ∀ m ∈ [Mem.io, Mem.x, Mem.k, Mem.h, Mem.pad, Mem.os],
      ∀ i, t.elem m i = t.cfg.kind.zero

/-! ## The phase machine and the faults -/

/-- Rule R156: the next phase of every command in every phase, the illegal words, and `Reset`; no
other move changes the phase. -/
def Obligations.PhaseMachineIsComplete : Prop :=
  (∀ (s : State) (i : Instr), ∃ t, exec i s = .next t ∧
      (OperandsFit s i → t.phase = phaseTable i s.phase) ∧ (¬OperandsFit s i → t.phase = .fault) ∧
      (s.phase ≠ .fault → phaseTable i s.phase = .fault → t.faultCode = .badPhase)) ∧
    (∀ (s : State) (w : Word), decode w = none → ∃ t,
      step (offering s (.csrWrite 0x04 w)) = .next t ∧ t.phase = .fault ∧
        (s.phase ≠ .fault → t.faultCode = .illegalCmd)) ∧
    (∀ s : State, ∃ t, step (offering s .reset) = .next t ∧ t.phase = .unbuilt) ∧
    ∀ s t : State, noReset s → (∀ w, s.moves.head? ≠ some (.csrWrite 0x04 w)) →
      step s = .next t → t.phase = s.phase

/-- Rules R166, R167: a command word that raises a fault has its code and itself recorded, the
phase becomes FAULT, and everything else is as it was (`reply` is the model's own, log 3); a
command enters FAULT in no other way. -/
def Obligations.FaultEntryIsPrecise : Prop :=
  (∀ (s : State) (w : Word) (code : FaultCode), Raises s w code →
      step (offering s (.csrWrite 0x04 w)) =
        .next { s with reply := .done, faultCode := code, faultCmd := w, phase := .fault }) ∧
    ∀ (s t : State) (w : Word), s.phase ≠ .fault →
      step (offering s (.csrWrite 0x04 w)) = .next t → t.phase = .fault →
      ∃ code, code ≠ FaultCode.none ∧ Raises s w code

/-- Rule R168: which fault a word records, highest first; a diagnostic and a fault never
coincide. -/
def Obligations.FaultPriority : Prop :=
  ∀ (s : State) (w : Word), ∃ t, step (offering s (.csrWrite 0x04 w)) = .next t ∧
    (s.phase = .fault → t.faultCode = s.faultCode ∧ t.faultCmd = s.faultCmd) ∧
    (s.phase ≠ .fault → decode w = none → t.faultCode = .illegalCmd) ∧
    (∀ i, s.phase ≠ .fault → decode w = some i →
      (phaseTable i s.phase = .fault → t.faultCode = .badPhase) ∧
      (phaseTable i s.phase ≠ .fault → ¬OperandsFit s i → t.faultCode = operandFault i) ∧
      (Executes s i → t.phase ≠ .fault ∧ t.faultCode = s.faultCode ∧ t.faultCmd = s.faultCmd)) ∧
    (t.phase = .fault → SameDiags s t)

/-- Rule R164: a block longer than M raises `ASSERT_BLOCK` before any element is read or
written. -/
def Obligations.OversizedBlockAsserts : Prop :=
  RaisesAbove (fun s => s.cfg.M) .assertBlock .ovsbegin ∧
    RaisesAbove (fun s => s.cfg.M) .assertBlock .zstuff ∧
    RaisesAbove (fun s => s.cfg.M) .assertBlock .decim

/-- Rules R81, R165: a length over the capacity or the window raises `BAD_OPERAND`. -/
def Obligations.OversizedLengthIsBadOperand : Prop :=
  RaisesAbove (fun s => s.cfg.iocap) .badOperand (.conv .io) ∧
    RaisesAbove (fun s => s.cfg.iocap) .badOperand .ovlwrap ∧
    ∀ (s : State) (len : Nat),
      (s.phase = .inner ∧ s.actlen.toNat + s.cfg.P < len) ∨
          (s.phase = .callback ∧ s.actlen.toNat < len) →
        exec (.conv .x len) s = .next
          { s with faultCode := .badOperand, faultCmd := encode (.conv .x len), phase := .fault }

/-! ## The system commands -/

/-- Rule R153: `NOP` changes nothing. -/
def Obligations.NopChangesNothing : Prop :=
  encode .nop = 0x00000000 ∧ ∀ s : State, exec .nop s = .next s

/-- Rule R154: `DIAGCLR` zeroes the three counters and nothing else; DIAG_ANY then reads 0. -/
def Obligations.DiagclrClearsTheCounters : Prop :=
  encode .diagclr = 0xC0000000 ∧ ∀ s : State, s.phase ≠ .fault → ∃ t, exec .diagclr s = .next t ∧
    t = { s with diagShort := 0, diagLong := 0, diagTrunc := 0 } ∧ (statusWord t).getLsbD 4 = false

/-! ## The kernel unit -/

/-- Rules R91, R94, R98: `KGEN` writes all N elements of `K`, the L coefficients and then `+0.0`,
and nothing else; repeated, it gives the same `K`. -/
def Obligations.KgenWritesTheKernel : Prop :=
  (∀ s : State, s.phase = .unbuilt → ∃ t, exec .kgen s = .next t ∧
      (∀ i, i < s.cfg.N → t.elem .k i = if i < s.cfg.L then kgenElem s.cfg i else s.cfg.kind.zero) ∧
      (∀ i, s.cfg.N ≤ i → t.elem .k i = s.elem .k i) ∧ SameMemories [.k] s t ∧ SameRecord s t ∧
      SameDiags s t ∧ t.phase = s.phase ∧ t.actlen = s.actlen ∧
      ∃ u, exec .kgen t = .next u ∧ ∀ i, u.elem .k i = t.elem .k i) ∧
    BadPhaseOutside [.unbuilt] .kgen ∧ encode .kgen = 0x10000000

/-- Rules R92, R93, in the exact instance: the raw sum is positive in every legal instance, so
U3's case does not occur (log 11), and K[i] = c[i] / Σ c. -/
def Obligations.KgenIsTheNormalisedWindowedSinc : Prop :=
  ∀ s : State, s.phase = .unbuilt → s.cfg.legal = true → s.cfg.arith = .exact →
    0 < rawCoefficientSum s.cfg.F s.cfg.L ∧ ∃ t, exec .kgen s = .next t ∧
      (∀ i, i < s.cfg.L → elemReal (t.elem .k i) =
        rawCoefficient s.cfg.F s.cfg.L i / rawCoefficientSum s.cfg.F s.cfg.L) ∧
      ∑ i ∈ Finset.range s.cfg.L, elemReal (t.elem .k i) = 1

/-- Rule R95: at F = 1 the exact kernel is a pure delay of m = (L − 1)/2 samples. -/
def Obligations.KgenAtFactorOneIsADelay : Prop :=
  ∀ s : State, s.phase = .unbuilt → s.cfg.legal = true → s.cfg.arith = .exact → s.cfg.F = 1 →
    ∃ t, exec .kgen s = .next t ∧ ∀ i, i < s.cfg.N →
      elemReal (t.elem .k i) = if i = (s.cfg.L - 1) / 2 then 1 else 0

/-- Rules R10, R90, for every real β the instance's data stands for (log 2): L is kernel_length(β),
the smallest odd number from ceil(4/max(β, 10^-10)) on, and does not increase with β. -/
def Obligations.KernelLengthIsTheSmallestOdd : Prop :=
  ∀ (p : Params) (β : ℝ), betaSettled p.beta = true → BetaHolds p.beta β →
    p.L = kernelLengthOf β ∧ p.L % 2 = 1 ∧ ⌈4 / max β (1 / 10 ^ 10)⌉₊ ≤ p.L ∧
    (∀ n : ℕ, n % 2 = 1 → ⌈4 / max β (1 / 10 ^ 10)⌉₊ ≤ n → p.L ≤ n) ∧
    (∀ (q : Params) (γ : ℝ), betaSettled q.beta = true → BetaHolds q.beta γ → β ≤ γ →
      q.L ≤ p.L) ∧
    (4 ≤ β → p.L = 1) ∧ (β ≤ 1 / 10 ^ 10 → p.L = 40000000001)

/-- Rules R9, R11: every finite real β has an instance, whatever F and M, unless its transform
length is above 2^23. -/
def Obligations.EveryRealBetaHasAnInstance : Prop :=
  ∀ (F M : ℕ) (β : ℝ), 1 ≤ F → 1 ≤ M → M * F + kernelLengthOf β - 1 ≤ 2 ^ 23 →
    ∃ p : Params, p.legal = true ∧ p.F = F ∧ p.M = M ∧ BetaHolds p.beta β ∧
      p.N = M * F + kernelLengthOf β - 1

/-! ## The convolution engine -/

/-- Rule R101: `KFFT` stores `numerics.dft_kernel(K)` in `H` and makes the engine READY; `K` and
everything but the hidden working memories stays. -/
def Obligations.KfftTransformsTheKernel : Prop :=
  (∀ s : State, s.phase = .unbuilt → ∃ t, exec .kfft s = .next t ∧
      (∀ i, i < 2 * s.cfg.N → t.elem .h i = dftKernelElem s.cfg (s.elems .k s.cfg.N) i) ∧
      (∀ i, 2 * s.cfg.N ≤ i → t.elem .h i = s.elem .h i) ∧ SameMemories [.h, .w, .scr] s t ∧
      SameRecord s t ∧ SameDiags s t ∧ t.phase = .ready ∧ t.actlen = s.actlen) ∧
    BadPhaseOutside [.unbuilt] .kfft ∧ encode .kfft = 0x20000000

/-- Rule R101, in the exact instance: Hc[j] = Σ K[k]·exp(−2πi·j·k/N). -/
def Obligations.KfftIsTheForwardTransform : Prop :=
  ∀ s : State, s.phase = .unbuilt → s.cfg.arith = .exact → ∃ t, exec .kfft s = .next t ∧
    ∀ j, j < s.cfg.N → kernelSpectrum t j =
      dft s.cfg.N (fun k => ((elemReal (s.elem .k k) : ℝ) : ℂ)) j

/-- Rule R102: `KFREQ` takes `H` as it stands and writes only the phase. -/
def Obligations.KfreqWritesOnlyThePhase : Prop :=
  (∀ s : State, s.phase = .unbuilt → exec .kfreq s = .next { s with phase := .ready }) ∧
    BadPhaseOutside [.unbuilt] .kfreq ∧ encode .kfreq = 0x30000000

/-- Rules R104, R109, R110, R112, R113, R115: `CONV` replaces the first min(len, N) elements of
its block, counts at most one diagnostic, and leaves all else but the hidden working memories. -/
def Obligations.ConvReplacesTheBlock : Prop :=
  ∀ (s : State) (r : Sel) (len : Nat), ConvAccepted s r len →
    ∃ t, exec (.conv r len) s = .next t ∧
      (∀ k, k < min len s.cfg.N → t.elem (target r) k =
        cconvElem s.cfg (s.elems .h (2 * s.cfg.N)) (s.elems (target r) (min len s.cfg.N)) k) ∧
      (∀ k, min len s.cfg.N ≤ k → t.elem (target r) k = s.elem (target r) k) ∧
      SameMemories [target r, .w, .scr] s t ∧ SameRecord s t ∧ t.phase = s.phase ∧
      t.actlen = s.actlen ∧ Counted (len < s.cfg.N) s.diagShort t.diagShort ∧
      Counted (s.cfg.N < len) s.diagLong t.diagLong ∧ t.diagTrunc = s.diagTrunc

/-- Rule R111, in the exact instance: the result is the cyclic convolution of the block with the
kernel in time, wrap-around included. -/
def Obligations.ConvIsTheCyclicConvolution : Prop :=
  ∀ (s : State) (r : Sel) (len : Nat), ConvAccepted s r len → s.cfg.legal = true →
    s.cfg.arith = .exact → ∃ t, exec (.conv r len) s = .next t ∧
      ∀ n, n < min len s.cfg.N → elemReal (t.elem (target r) n) =
        cconv s.cfg.N (kernelInTime s) (blockOf s (target r) (min len s.cfg.N)) n

/-- Rule R111: when `H` came from `KFFT`, g = K. -/
def Obligations.BuiltKernelInTimeIsTheKernel : Prop :=
  ∀ s : State, s.phase = .unbuilt → s.cfg.legal = true → s.cfg.arith = .exact →
    ∃ t, exec .kfft s = .next t ∧
      ∀ k, k < s.cfg.N → kernelInTime t k = elemReal (s.elem .k k)

/-- Rule R117, in the exact instance: a full-length convolution multiplies the sums. -/
def Obligations.FullConvolutionMultipliesSums : Prop :=
  ∀ (s : State) (r : Sel), ConvAccepted s r s.cfg.N → s.cfg.legal = true → s.cfg.arith = .exact →
    ∃ t, exec (.conv r s.cfg.N) s = .next t ∧
      ∑ n ∈ Finset.range s.cfg.N, elemReal (t.elem (target r) n) =
        (∑ k ∈ Finset.range s.cfg.N, kernelInTime s k) *
          ∑ k ∈ Finset.range s.cfg.N, elemReal (s.elem (target r) k)

/-! ## The overlap buffer -/

/-- Rules R121 to R125: `OVLWRAP` makes the extended view of the first min(len, OB) elements of
`IO`, sets ACTLEN, counts `DIAG_TRUNC` when it truncates, and opens the window. -/
def Obligations.OvlwrapOpensTheView : Prop :=
  (∀ (s : State) (len : Nat), s.phase = .ready → s.cfg.legal = true → len ≤ s.cfg.iocap →
      ∃ t, exec (.ovlwrap len) s = .next t ∧
        (∀ j, j < min len s.cfg.OB + s.cfg.P → t.elem .x j =
          extendedView s s.draws (min len s.cfg.OB) (s.elem .io) j) ∧
        (∀ j, min len s.cfg.OB + s.cfg.P ≤ j → t.elem .x j = s.elem .x j) ∧
        t.actlen.toNat = min len s.cfg.OB ∧ t.phase = .inner ∧ SameMemories [.x] s t ∧
        SameRecord s t ∧ t.diagShort = s.diagShort ∧ t.diagLong = s.diagLong ∧
        Counted (s.cfg.OB < len) s.diagTrunc t.diagTrunc) ∧
    (∀ len, BadPhaseOutside [.ready] (.ovlwrap len)) ∧
    RaisesAbove (fun s => s.cfg.iocap) .badOperand .ovlwrap ∧ EncodesAs 0x50000000 .ovlwrap

/-- Rule R127: `OVLUNWRAP` splits the view into the output, in `IO`, and the new padding. -/
def Obligations.OvlunwrapSplitsTheView : Prop :=
  (∀ s : State, s.phase = .inner → ∃ t, exec .ovlunwrap s = .next t ∧
      (∀ j, j < s.actlen.toNat → t.elem .io j = splitView s s.draws (s.elem .x) j) ∧
      (∀ j, s.actlen.toNat ≤ j → t.elem .io j = s.elem .io j) ∧
      (∀ j, j < s.cfg.P → t.elem .pad j = splitView s s.draws (s.elem .x) (s.actlen.toNat + j)) ∧
      (∀ j, s.cfg.P ≤ j → t.elem .pad j = s.elem .pad j) ∧
      (∀ j, t.elem .x j = splitView s s.draws (s.elem .x) j) ∧
      SameMemories [.io, .pad, .x] s t ∧ SameRecord s t ∧ SameDiags s t ∧ t.phase = .ready ∧
      t.actlen = s.actlen) ∧
    BadPhaseOutside [.inner] .ovlunwrap ∧ encode .ovlunwrap = 0x60000000

/-- Rule R130: `OVLRESET` zeroes `PAD` and `X` and touches nothing else. -/
def Obligations.OvlresetZeroesPaddingAndView : Prop :=
  (∀ s : State, s.phase = .ready → ∃ t, exec .ovlreset s = .next t ∧
      (∀ j, j < s.cfg.P → t.elem .pad j = s.cfg.kind.zero) ∧
      (∀ j, s.cfg.P ≤ j → t.elem .pad j = s.elem .pad j) ∧
      (∀ j, j < s.cfg.N → t.elem .x j = s.cfg.kind.zero) ∧
      (∀ j, s.cfg.N ≤ j → t.elem .x j = s.elem .x j) ∧ SameMemories [.pad, .x] s t ∧
      SameRecord s t ∧ SameDiags s t ∧ t.phase = s.phase ∧ t.actlen = s.actlen) ∧
    BadPhaseOutside [.ready] .ovlreset ∧ encode .ovlreset = 0x70000000

/-- Rule R131, in the exact instance: what `FILTER len` computes under PRE. -/
def Obligations.FilterUnderPre : Prop :=
  ∀ (s : State) (len : Nat), s.phase = .ready → s.cfg.legal = true → s.cfg.arith = .exact →
    s.cfg.tailAdd = .pre → len ≤ s.cfg.iocap → ∃ t, FilterRun s len t ∧
      let n := min len s.cfg.OB
      let e : ℕ → ℝ := fun j => (if j < n then elemReal (s.elem .io j) else 0) +
        (if j < s.cfg.P then elemReal (s.elem .pad j) else 0)
      let y := cconv s.cfg.N (kernelInTime s) e
      (∀ j, j < n → elemReal (t.elem .io j) = y j) ∧
        (∀ j, j < s.cfg.P → elemReal (t.elem .pad j) = y (n + j)) ∧ t.phase = .ready ∧
        Counted (n + s.cfg.P < s.cfg.N) s.diagShort t.diagShort

/-- Rule R132, in the exact instance: what `FILTER len` computes under POST. -/
def Obligations.FilterUnderPost : Prop :=
  ∀ (s : State) (len : Nat), s.phase = .ready → s.cfg.legal = true → s.cfg.arith = .exact →
    s.cfg.tailAdd = .post → len ≤ s.cfg.iocap → ∃ t, FilterRun s len t ∧
      let n := min len s.cfg.OB
      let p : ℕ → ℝ := fun j => if j < s.cfg.P then elemReal (s.elem .pad j) else 0
      let y := cconv s.cfg.N (kernelInTime s) (blockOf s .io n)
      (∀ j, j < n → elemReal (t.elem .io j) = y j + p j) ∧
        (∀ j, j < s.cfg.P → elemReal (t.elem .pad j) = y (n + j) + p (n + j)) ∧ t.phase = .ready

/-- Rule R133, in the exact instance under POST: `FILTER` with any accepted length takes the engine
from one mid-stream state to the next, with the same kernel, and outputs the next n samples of the
linear convolution of the whole stream. -/
def Obligations.PostStreamIsLinearConvolution : Prop :=
  ∀ (s : State) (g : ℕ → ℝ) (T : ℕ) (past : ℕ → ℝ) (len : Nat), MidStream s g T past →
    len ≤ s.cfg.iocap → ∃ t, FilterRun s len t ∧ t.cfg = s.cfg ∧
      let n := min len s.cfg.OB
      let stream : ℕ → ℝ := fun m => if m < T then past m else blockOf s .io n (m - T)
      (∀ j, j < n → elemReal (t.elem .io j) = linearConv g stream (T + j)) ∧
        MidStream t g (T + n) stream

/-- Rule R133: an engine just built, or after `OVLRESET`, is in mid-stream with nothing gone in. -/
def Obligations.EmptyTailStartsAStream : Prop :=
  ∀ (s : State) (g : ℕ → ℝ), s.phase = .ready → s.cfg.legal = true → s.cfg.arith = .exact →
    s.cfg.tailAdd = .post → (∀ k, k < s.cfg.N → kernelInTime s k = g k) →
    (∀ k, s.cfg.L ≤ k → g k = 0) →
    (CleanForTheFirstBlock s → MidStream s g 0 (fun _ => 0)) ∧
      ∃ t, exec .ovlreset s = .next t ∧ MidStream t g 0 (fun _ => 0)

/-! ## The oversampling composition -/

/-- Rule R136: `ZSTUFF` writes OS[0..len·F) and nothing else: F·IO[j] at j·F, `+0.0` between. -/
def Obligations.ZstuffExpandsTheBlock : Prop :=
  (∀ (s : State) (len : Nat), s.phase = .ready → s.cfg.legal = true → len ≤ s.cfg.M →
      ∃ t, exec (.zstuff len) s = .next t ∧
        (∀ j, j < len → t.elem .os (j * s.cfg.F) =
          elemScale s.cfg s.draws (j * s.cfg.F) (s.elem .io j)) ∧
        (∀ j r, j < len → 0 < r → r < s.cfg.F → t.elem .os (j * s.cfg.F + r) = s.cfg.kind.zero) ∧
        (∀ i, len * s.cfg.F ≤ i → t.elem .os i = s.elem .os i) ∧ SameMemories [.os] s t ∧
        SameRecord s t ∧ SameDiags s t ∧ t.phase = s.phase ∧ t.actlen = s.actlen) ∧
    (∀ len, BadPhaseOutside [.ready] (.zstuff len)) ∧
    RaisesAbove (fun s => s.cfg.M) .assertBlock .zstuff ∧ EncodesAs 0xA0000000 .zstuff

/-- Rule R137: `DECIM` copies every F-th element of `OS`, bit for bit, to IO[0..len) and writes
nothing else. -/
def Obligations.DecimKeepsEveryFth : Prop :=
  (∀ (s : State) (len : Nat), s.phase = .ready → len ≤ s.cfg.M →
      ∃ t, exec (.decim len) s = .next t ∧
        (∀ j, j < len → t.elem .io j = s.elem .os (j * s.cfg.F)) ∧
        (∀ j, len ≤ j → t.elem .io j = s.elem .io j) ∧ SameMemories [.io] s t ∧
        SameRecord s t ∧ SameDiags s t ∧ t.phase = s.phase ∧ t.actlen = s.actlen) ∧
    (∀ len, BadPhaseOutside [.ready] (.decim len)) ∧
    RaisesAbove (fun s => s.cfg.M) .assertBlock .decim ∧ EncodesAs 0xB0000000 .decim

/-- Rule R138: `ZSTUFF len ; DECIM len` leaves the block scaled by F; in the exact instance
exactly F times the samples. -/
def Obligations.RoundTripScalesByF : Prop :=
  ∀ (s : State) (len : Nat), s.phase = .ready → s.cfg.legal = true → len ≤ s.cfg.M →
    ∃ t u, exec (.zstuff len) s = .next t ∧ exec (.decim len) t = .next u ∧
      ∀ j, j < len →
        u.elem .io j = elemScale s.cfg s.draws (j * s.cfg.F) (s.elem .io j) ∧
        (s.cfg.arith = .exact →
          elemReal (u.elem .io j) = s.cfg.F * elemReal (s.elem .io j))

/-- Rules R139, R140, R143, R145: `OVSBEGIN` zero-stuffs the block into `OS`, wraps it, filters
the view once, and opens the callback window. -/
def Obligations.OvsbeginOpensTheCallback : Prop :=
  (∀ (s : State) (len : Nat), s.phase = .ready → s.cfg.legal = true → len ≤ s.cfg.M →
      ∃ t, exec (.ovsbegin len) s = .next t ∧
        (∀ j, j < len → t.elem .os (j * s.cfg.F) =
          elemScale s.cfg s.draws (j * s.cfg.F) (s.elem .io j)) ∧
        (∀ j r, j < len → 0 < r → r < s.cfg.F → t.elem .os (j * s.cfg.F + r) = s.cfg.kind.zero) ∧
        (∀ i, len * s.cfg.F ≤ i → t.elem .os i = s.elem .os i) ∧
        (∀ j, j < len * s.cfg.F + s.cfg.P → t.elem .x j =
          cconvElem s.cfg (s.elems .h (2 * s.cfg.N))
            ((List.range (len * s.cfg.F + s.cfg.P)).map
              (extendedView s (s.draws + 1) (len * s.cfg.F) (t.elem .os))) j) ∧
        (∀ j, len * s.cfg.F + s.cfg.P ≤ j → t.elem .x j = s.elem .x j) ∧
        t.actlen.toNat = len * s.cfg.F ∧ t.phase = .callback ∧
        SameMemories [.os, .x, .w, .scr] s t ∧ SameRecord s t ∧
        Counted (len < s.cfg.M) s.diagShort t.diagShort ∧ t.diagLong = s.diagLong ∧
        t.diagTrunc = s.diagTrunc) ∧
    (∀ len, BadPhaseOutside [.ready] (.ovsbegin len)) ∧
    RaisesAbove (fun s => s.cfg.M) .assertBlock .ovsbegin ∧ EncodesAs 0x80000000 .ovsbegin

/-- Rule R142: `OVSEND` filters the view again, unwraps it into `OS` and `PAD`, and decimates
into `IO`. -/
def Obligations.OvsendClosesTheCallback : Prop :=
  (∀ s : State, s.phase = .callback → Inv s → ∃ t, exec .ovsend s = .next t ∧
      let n := s.actlen.toNat
      let y := cconvElem s.cfg (s.elems .h (2 * s.cfg.N)) (s.elems .x (n + s.cfg.P))
      let v := splitView s (s.draws + 1) y
      (∀ j, j < n + s.cfg.P → t.elem .x j = v j) ∧
        (∀ j, n + s.cfg.P ≤ j → t.elem .x j = s.elem .x j) ∧
        (∀ j, j < n → t.elem .os j = v j) ∧ (∀ j, n ≤ j → t.elem .os j = s.elem .os j) ∧
        (∀ j, j < s.cfg.P → t.elem .pad j = v (n + j)) ∧
        (∀ j, s.cfg.P ≤ j → t.elem .pad j = s.elem .pad j) ∧
        (∀ j, j * s.cfg.F < n → t.elem .io j = v (j * s.cfg.F)) ∧
        (∀ j, n ≤ j * s.cfg.F → t.elem .io j = s.elem .io j) ∧
        SameMemories [.x, .os, .pad, .io, .w, .scr] s t ∧ SameRecord s t ∧ t.phase = .ready ∧
        t.actlen = s.actlen ∧ Counted (n + s.cfg.P < s.cfg.N) s.diagShort t.diagShort ∧
        t.diagLong = s.diagLong ∧ t.diagTrunc = s.diagTrunc) ∧
    BadPhaseOutside [.callback] .ovsend ∧ encode .ovsend = 0x90000000

/-! ## The host's port -/

/-- Rules R10, R32 to R41, R163: every register of the table reads its value and changes no state; every
other read, and every write but to CMD, is refused; after `Reset` each reads its reset value. -/
def Obligations.RegistersReadTheirTable : Prop :=
  (∀ (s : State), ∀ row ∈ csrRows s,
      step (offering s (.csrRead row.1)) =
        .next { s with reply := .csr (BitVec.ofNat 32 row.2) }) ∧
    (∀ (s : State) (off : Nat), off ∉ (csrRows s).map Prod.fst →
      step (offering s (.csrRead off)) = .refused (.csrAccess off)) ∧
    (∀ (s : State) (off : Nat) (v : Word), off ≠ 0x04 →
      step (offering s (.csrWrite off v)) = .refused (.csrAccess off)) ∧
    ∀ s t : State, step (offering s .reset) = .next t → csrRows t = csrResetRows s.cfg

/-- Rules R27, R35: the fields of `STATUS`. -/
def Obligations.StatusFields : Prop :=
  ∀ s : State, ((statusWord s).extractLsb' 0 3).toNat = phaseNumber s.phase ∧
    (statusWord s).getLsbD 3 = false ∧
    ((statusWord s).getLsbD 4 = true ↔
      0 < s.diagShort.toNat + s.diagLong.toNat + s.diagTrunc.toNat) ∧
    (statusWord s).extractLsb' 5 27 = 0

/-- Rules R58, R62, R63: a permitted `SmpRead` returns the element and changes nothing; a
permitted `SmpWrite` of an FP value of the instance changes exactly one element, which then reads
as written; every other access is refused. -/
def Obligations.SampleAccessFollowsTheRights : Prop :=
  ∀ (s : State) (r : BitVec 4) (i : BitVec 24),
    (∀ m, (r, m) ∈ banks →
      (ReadRight s m i.toNat →
        step (offering s (.smpRead r i)) = .next { s with reply := .sample (s.elem m i.toNat) }) ∧
      (¬ReadRight s m i.toNat →
        step (offering s (.smpRead r i)) = .refused (.sampleAccess r i)) ∧
      ∀ v : Elem,
        (WriteRight s m i.toNat → v.kind = s.cfg.kind →
          ∃ t, step (offering s (.smpWrite r i v)) = .next t ∧
            t.elem m i.toNat = v ∧ (∀ j, j ≠ i.toNat → t.elem m j = s.elem m j) ∧
            SameMemories [m] s t ∧ SameDiags s t ∧ t.cfg = s.cfg ∧ t.phase = s.phase ∧
            t.actlen = s.actlen ∧ t.faultCode = s.faultCode ∧ t.faultCmd = s.faultCmd ∧
            t.moves = s.moves ∧ t.reply = .done) ∧
        (¬WriteRight s m i.toNat →
          step (offering s (.smpWrite r i v)) = .refused (.sampleAccess r i))) ∧
    (5 ≤ r.toNat → step (offering s (.smpRead r i)) = .refused (.sampleAccess r i) ∧
      ∀ v, step (offering s (.smpWrite r i v)) = .refused (.sampleAccess r i))

/-! ## The whole machine -/

/-- Rule R51: the state after reset meets the invariant, in every legal instance. -/
def Obligations.ResetMeetsTheInvariant : Prop :=
  Inv State.reset ∧ ∀ p : Params, p.legal = true → Inv (State.resetOf p)

/-- Every step keeps the invariant (rules R24, R29, R30, R42 to R49, R69). -/
def Obligations.StepKeepsTheInvariant : Prop :=
  ∀ s t : State, Inv s → step s = .next t → Inv t

/-- Rule R103: once the engine is built, no move but `Reset` writes `K` or `H`. -/
def Obligations.BuiltKernelIsImmutable : Prop :=
  ∀ s t : State, s.phase ≠ .unbuilt → noReset s → step s = .next t →
    t.phase ≠ .unbuilt ∧ ∀ i, t.elem .k i = s.elem .k i ∧ t.elem .h i = s.elem .h i

/-- Rule R170: no move but `Reset` leaves FAULT, and none changes the record, a counter or a
memory there. -/
def Obligations.OnlyResetLeavesFault : Prop :=
  ∀ s t : State, s.phase = .fault → noReset s → step s = .next t →
    t.phase = .fault ∧ t.faultCode = s.faultCode ∧ t.faultCmd = s.faultCmd ∧ t.cfg = s.cfg ∧
      t.actlen = s.actlen ∧ SameDiags s t ∧ SameMemories [] s t

/-- Rules R160, R161: one step counts at most one diagnostic, by one, saturating; only `DIAGCLR`
and `Reset` take a counter back. -/
def Obligations.CountersGrowByAtMostOneEvent : Prop :=
  ∀ s t : State, noReset s → s.moves.head? ≠ some (.csrWrite 0x04 0xC0000000) → step s = .next t →
    SameDiags s t ∨
      (Counted True s.diagShort t.diagShort ∧ t.diagLong = s.diagLong ∧
        t.diagTrunc = s.diagTrunc) ∨
      (Counted True s.diagLong t.diagLong ∧ t.diagShort = s.diagShort ∧
        t.diagTrunc = s.diagTrunc) ∨
      (Counted True s.diagTrunc t.diagTrunc ∧ t.diagShort = s.diagShort ∧
        t.diagLong = s.diagLong)

/-- Rules R24, R126, R189: no step changes the instance's constants, and inside a window no move
but `Reset` changes ACTLEN. -/
def Obligations.ConstantsAndOpenWindowStay : Prop :=
  ∀ s t : State, step s = .next t → t.cfg = s.cfg ∧
    (noReset s → s.phase = .inner ∨ s.phase = .callback → t.actlen = s.actlen)

/-- Rule R184: `PAD`, `X` and `OS` are all `+0.0` and the counters 0 until the engine is built,
and so on first entering READY. -/
def Obligations.EngineIsEmptyUntilBuilt : Prop :=
  (∀ p : Params, EmptyUntilBuilt (State.resetOf p)) ∧
    (∀ s t : State, EmptyUntilBuilt s → step s = .next t → EmptyUntilBuilt t) ∧
    ∀ s t : State, EmptyUntilBuilt s → s.phase = .unbuilt → step s = .next t →
      t.phase = .ready → CleanForTheFirstBlock t

/-- Rule R173: a channel takes its own machine's step, and changes no other channel. -/
def Obligations.ChannelsAreIndependent : Prop :=
  (∀ (l : Channels) (c : Nat) (s t : State), l[c]? = some s → step s = .next t →
      ∃ l', stepChannel c l = .next l' ∧ l'[c]? = some t) ∧
    ∀ (l l' : Channels) (c : Nat), stepChannel c l = .next l' →
    l'.length = l.length ∧ ∀ d, d ≠ c → l'[d]? = l[d]?

/-! ## Floating-point arithmetic -/

/-- Rule R16 with the formats of G4 (log 10): an exact magnitude below the midpoint of the largest
finite magnitude and the next one rounds to a nearest finite magnitude, an even pattern at a tie;
from there on it rounds to infinity. -/
def Obligations.RoundingIsToNearestEven : Prop :=
  ∀ (f : FpFormat) (n : Nat),
    (2 * (n : ℤ) < patternValue f (infinityOf f - 1) + patternValue f (infinityOf f) →
      roundMagnitude f n < infinityOf f ∧ ∀ m, m < infinityOf f →
        |patternValue f (roundMagnitude f n) - n| ≤ |patternValue f m - n| ∧
          (|patternValue f (roundMagnitude f n) - n| = |patternValue f m - n| →
            m ≠ roundMagnitude f n → roundMagnitude f n % 2 = 0)) ∧
      (patternValue f (infinityOf f - 1) + patternValue f (infinityOf f) ≤ 2 * (n : ℤ) →
        roundMagnitude f n = infinityOf f)

/-- Rule R16, one addition in a floating-point instance, on any two patterns: NaN in gives NaN out
(U4, its payload free, log 8), an infinity is kept, opposite infinities give a NaN, a finite sum is
the rounded exact sum, and an exact zero sum is −0 only from two negative operands (log 10). -/
def Obligations.AdditionIsIeee : Prop :=
  ∀ (p : Params) (draw j a b : Nat), p.arith = .ieee → a < 2 * signBit p.fp → b < 2 * signBit p.fp →
    ∃ r, r < 2 * signBit p.fp ∧
      elemAdd p draw j (patternElem p.fp a) (patternElem p.fp b) = patternElem p.fp r ∧
      (NanPattern p.fp a ∨ NanPattern p.fp b → NanPattern p.fp r) ∧
      (InfPattern p.fp a → InfPattern p.fp b → a ≠ b → NanPattern p.fp r) ∧
      (InfPattern p.fp a → FinitePattern p.fp b ∨ b = a → r = a) ∧
      (InfPattern p.fp b → FinitePattern p.fp a → r = b) ∧
      (FinitePattern p.fp a → FinitePattern p.fp b →
        let sum := patternValue p.fp a + patternValue p.fp b
        (sum ≠ 0 → r = (if sum < 0 then signBit p.fp else 0) + roundMagnitude p.fp sum.natAbs) ∧
        (sum = 0 → r = if signBit p.fp ≤ a ∧ signBit p.fp ≤ b then signBit p.fp else 0))

/-- Rules R16, R136, the product F·x in a floating-point instance, on any pattern: NaN in gives NaN
out (U4), an infinity is kept, a finite product is the rounded exact product with the operand's
sign, zeros included (log 10). -/
def Obligations.ScalingIsIeee : Prop :=
  ∀ (p : Params) (draw j a : Nat), p.arith = .ieee → a < 2 * signBit p.fp →
    ∃ r, r < 2 * signBit p.fp ∧ elemScale p draw j (patternElem p.fp a) = patternElem p.fp r ∧
      (NanPattern p.fp a → NanPattern p.fp r) ∧ (InfPattern p.fp a → r = a) ∧
      (FinitePattern p.fp a → r = (if signBit p.fp ≤ a then signBit p.fp else 0) +
        roundMagnitude p.fp ((p.F : ℤ) * patternValue p.fp a).natAbs)

/-- Rule R16 with the formats of G4 (log 10): adding `+0.0` gives back every pattern that is
neither a NaN nor −0, and −0 + (+0.0) is +0. -/
def Obligations.AddingPositiveZero : Prop :=
  ∀ (f : FpFormat) (bits a : Nat), a < 2 * signWeight f →
    (fpIsNan f a = false → a ≠ signWeight f → fpAdd f bits a 0 = a) ∧
      (a = signWeight f → fpAdd f bits a 0 = 0) ∧
      (fpIsNan f a = true → fpIsNan f (fpAdd f bits a 0) = true)
end

