-- ==== Sys2Proof/Laws/State.lean ====
section
/-! SUPPORT. One lemma per field per update of the state. -/

namespace Sys2Proof.Machine

/-! ### diag -/

@[simp] theorem diag_cfg (s : State) (d : Diag) : (s.diag d).cfg = s.cfg := by cases d <;> rfl
@[simp] theorem diag_phase (s : State) (d : Diag) : (s.diag d).phase = s.phase := by cases d <;> rfl
@[simp] theorem diag_actlen (s : State) (d : Diag) : (s.diag d).actlen = s.actlen := by cases d <;> rfl
@[simp] theorem diag_faultCode (s : State) (d : Diag) : (s.diag d).faultCode = s.faultCode := by cases d <;> rfl
@[simp] theorem diag_faultCmd (s : State) (d : Diag) : (s.diag d).faultCmd = s.faultCmd := by cases d <;> rfl
@[simp] theorem diag_moves (s : State) (d : Diag) : (s.diag d).moves = s.moves := by cases d <;> rfl
@[simp] theorem diag_reply (s : State) (d : Diag) : (s.diag d).reply = s.reply := by cases d <;> rfl
@[simp] theorem diag_draws (s : State) (d : Diag) : (s.diag d).draws = s.draws := by cases d <;> rfl
@[simp] theorem diag_region (s : State) (d : Diag) (m' : Mem) : (s.diag d).region m' = s.region m' := by cases d <;> cases m' <;> rfl

/-! ### setRegion -/

@[simp] theorem setRegion_cfg (s : State) (m : Mem) (r : Region) : (s.setRegion m r).cfg = s.cfg := by cases m <;> rfl
@[simp] theorem setRegion_phase (s : State) (m : Mem) (r : Region) : (s.setRegion m r).phase = s.phase := by cases m <;> rfl
@[simp] theorem setRegion_actlen (s : State) (m : Mem) (r : Region) : (s.setRegion m r).actlen = s.actlen := by cases m <;> rfl
@[simp] theorem setRegion_faultCode (s : State) (m : Mem) (r : Region) : (s.setRegion m r).faultCode = s.faultCode := by cases m <;> rfl
@[simp] theorem setRegion_faultCmd (s : State) (m : Mem) (r : Region) : (s.setRegion m r).faultCmd = s.faultCmd := by cases m <;> rfl
@[simp] theorem setRegion_diagShort (s : State) (m : Mem) (r : Region) : (s.setRegion m r).diagShort = s.diagShort := by cases m <;> rfl
@[simp] theorem setRegion_diagLong (s : State) (m : Mem) (r : Region) : (s.setRegion m r).diagLong = s.diagLong := by cases m <;> rfl
@[simp] theorem setRegion_diagTrunc (s : State) (m : Mem) (r : Region) : (s.setRegion m r).diagTrunc = s.diagTrunc := by cases m <;> rfl
@[simp] theorem setRegion_moves (s : State) (m : Mem) (r : Region) : (s.setRegion m r).moves = s.moves := by cases m <;> rfl
@[simp] theorem setRegion_reply (s : State) (m : Mem) (r : Region) : (s.setRegion m r).reply = s.reply := by cases m <;> rfl
@[simp] theorem setRegion_draws (s : State) (m : Mem) (r : Region) : (s.setRegion m r).draws = s.draws := by cases m <;> rfl

/-! ### setPhase -/

@[simp] theorem setPhase_cfg (s : State) (ph : Phase) : (s.setPhase ph).cfg = s.cfg := rfl
@[simp] theorem setPhase_actlen (s : State) (ph : Phase) : (s.setPhase ph).actlen = s.actlen := rfl
@[simp] theorem setPhase_faultCode (s : State) (ph : Phase) : (s.setPhase ph).faultCode = s.faultCode := rfl
@[simp] theorem setPhase_faultCmd (s : State) (ph : Phase) : (s.setPhase ph).faultCmd = s.faultCmd := rfl
@[simp] theorem setPhase_diagShort (s : State) (ph : Phase) : (s.setPhase ph).diagShort = s.diagShort := rfl
@[simp] theorem setPhase_diagLong (s : State) (ph : Phase) : (s.setPhase ph).diagLong = s.diagLong := rfl
@[simp] theorem setPhase_diagTrunc (s : State) (ph : Phase) : (s.setPhase ph).diagTrunc = s.diagTrunc := rfl
@[simp] theorem setPhase_moves (s : State) (ph : Phase) : (s.setPhase ph).moves = s.moves := rfl
@[simp] theorem setPhase_reply (s : State) (ph : Phase) : (s.setPhase ph).reply = s.reply := rfl
@[simp] theorem setPhase_draws (s : State) (ph : Phase) : (s.setPhase ph).draws = s.draws := rfl
@[simp] theorem setPhase_region (s : State) (ph : Phase) (m' : Mem) : (s.setPhase ph).region m' = s.region m' := by cases m' <;> rfl

/-! ### setActlen -/

@[simp] theorem setActlen_cfg (s : State) (n : Nat) : (s.setActlen n).cfg = s.cfg := rfl
@[simp] theorem setActlen_phase (s : State) (n : Nat) : (s.setActlen n).phase = s.phase := rfl
@[simp] theorem setActlen_faultCode (s : State) (n : Nat) : (s.setActlen n).faultCode = s.faultCode := rfl
@[simp] theorem setActlen_faultCmd (s : State) (n : Nat) : (s.setActlen n).faultCmd = s.faultCmd := rfl
@[simp] theorem setActlen_diagShort (s : State) (n : Nat) : (s.setActlen n).diagShort = s.diagShort := rfl
@[simp] theorem setActlen_diagLong (s : State) (n : Nat) : (s.setActlen n).diagLong = s.diagLong := rfl
@[simp] theorem setActlen_diagTrunc (s : State) (n : Nat) : (s.setActlen n).diagTrunc = s.diagTrunc := rfl
@[simp] theorem setActlen_moves (s : State) (n : Nat) : (s.setActlen n).moves = s.moves := rfl
@[simp] theorem setActlen_reply (s : State) (n : Nat) : (s.setActlen n).reply = s.reply := rfl
@[simp] theorem setActlen_draws (s : State) (n : Nat) : (s.setActlen n).draws = s.draws := rfl
@[simp] theorem setActlen_region (s : State) (n : Nat) (m' : Mem) : (s.setActlen n).region m' = s.region m' := by cases m' <;> rfl

/-! ### advance -/

@[simp] theorem advance_cfg (s : State) : (s.advance).cfg = s.cfg := rfl
@[simp] theorem advance_phase (s : State) : (s.advance).phase = s.phase := rfl
@[simp] theorem advance_actlen (s : State) : (s.advance).actlen = s.actlen := rfl
@[simp] theorem advance_faultCode (s : State) : (s.advance).faultCode = s.faultCode := rfl
@[simp] theorem advance_faultCmd (s : State) : (s.advance).faultCmd = s.faultCmd := rfl
@[simp] theorem advance_diagShort (s : State) : (s.advance).diagShort = s.diagShort := rfl
@[simp] theorem advance_diagLong (s : State) : (s.advance).diagLong = s.diagLong := rfl
@[simp] theorem advance_diagTrunc (s : State) : (s.advance).diagTrunc = s.diagTrunc := rfl
@[simp] theorem advance_moves (s : State) : (s.advance).moves = s.moves := rfl
@[simp] theorem advance_reply (s : State) : (s.advance).reply = s.reply := rfl
@[simp] theorem advance_region (s : State) (m' : Mem) : (s.advance).region m' = s.region m' := by cases m' <;> rfl

/-! ### raiseFault -/

@[simp] theorem raiseFault_cfg (c : FaultCode) (w : Word) (s : State) : (raiseFault c w s).cfg = s.cfg := rfl
@[simp] theorem raiseFault_actlen (c : FaultCode) (w : Word) (s : State) : (raiseFault c w s).actlen = s.actlen := rfl
@[simp] theorem raiseFault_diagShort (c : FaultCode) (w : Word) (s : State) : (raiseFault c w s).diagShort = s.diagShort := rfl
@[simp] theorem raiseFault_diagLong (c : FaultCode) (w : Word) (s : State) : (raiseFault c w s).diagLong = s.diagLong := rfl
@[simp] theorem raiseFault_diagTrunc (c : FaultCode) (w : Word) (s : State) : (raiseFault c w s).diagTrunc = s.diagTrunc := rfl
@[simp] theorem raiseFault_moves (c : FaultCode) (w : Word) (s : State) : (raiseFault c w s).moves = s.moves := rfl
@[simp] theorem raiseFault_reply (c : FaultCode) (w : Word) (s : State) : (raiseFault c w s).reply = s.reply := rfl
@[simp] theorem raiseFault_draws (c : FaultCode) (w : Word) (s : State) : (raiseFault c w s).draws = s.draws := rfl
@[simp] theorem raiseFault_region (c : FaultCode) (w : Word) (s : State) (m' : Mem) : (raiseFault c w s).region m' = s.region m' := by cases m' <;> rfl

/-! ### clearDiags -/

@[simp] theorem clearDiags_cfg (s : State) : (clearDiags s).cfg = s.cfg := rfl
@[simp] theorem clearDiags_phase (s : State) : (clearDiags s).phase = s.phase := rfl
@[simp] theorem clearDiags_actlen (s : State) : (clearDiags s).actlen = s.actlen := rfl
@[simp] theorem clearDiags_faultCode (s : State) : (clearDiags s).faultCode = s.faultCode := rfl
@[simp] theorem clearDiags_faultCmd (s : State) : (clearDiags s).faultCmd = s.faultCmd := rfl
@[simp] theorem clearDiags_moves (s : State) : (clearDiags s).moves = s.moves := rfl
@[simp] theorem clearDiags_reply (s : State) : (clearDiags s).reply = s.reply := rfl
@[simp] theorem clearDiags_draws (s : State) : (clearDiags s).draws = s.draws := rfl
@[simp] theorem clearDiags_region (s : State) (m' : Mem) : (clearDiags s).region m' = s.region m' := by cases m' <;> rfl

@[simp] theorem setPhase_phase (s : State) (ph : Phase) : (s.setPhase ph).phase = ph := rfl
@[simp] theorem setActlen_actlen (s : State) (n : Nat) :
    (s.setActlen n).actlen = BitVec.ofNat 24 n := rfl
@[simp] theorem advance_draws (s : State) : s.advance.draws = s.draws + 1 := rfl
@[simp] theorem raiseFault_phase (c : FaultCode) (w : Word) (s : State) :
    (raiseFault c w s).phase = .fault := rfl
@[simp] theorem raiseFault_faultCode (c : FaultCode) (w : Word) (s : State) :
    (raiseFault c w s).faultCode = c := rfl
@[simp] theorem raiseFault_faultCmd (c : FaultCode) (w : Word) (s : State) :
    (raiseFault c w s).faultCmd = w := rfl
@[simp] theorem clearDiags_diagShort (s : State) : (clearDiags s).diagShort = 0 := rfl
@[simp] theorem clearDiags_diagLong (s : State) : (clearDiags s).diagLong = 0 := rfl
@[simp] theorem clearDiags_diagTrunc (s : State) : (clearDiags s).diagTrunc = 0 := rfl

@[simp] theorem diag_short_diagShort (s : State) :
    (s.diag .short).diagShort = satIncrement s.diagShort := rfl
@[simp] theorem diag_short_diagLong (s : State) : (s.diag .short).diagLong = s.diagLong := rfl
@[simp] theorem diag_short_diagTrunc (s : State) : (s.diag .short).diagTrunc = s.diagTrunc := rfl
@[simp] theorem diag_long_diagShort (s : State) : (s.diag .long).diagShort = s.diagShort := rfl
@[simp] theorem diag_long_diagLong (s : State) :
    (s.diag .long).diagLong = satIncrement s.diagLong := rfl
@[simp] theorem diag_long_diagTrunc (s : State) : (s.diag .long).diagTrunc = s.diagTrunc := rfl
@[simp] theorem diag_trunc_diagShort (s : State) : (s.diag .trunc).diagShort = s.diagShort := rfl
@[simp] theorem diag_trunc_diagLong (s : State) : (s.diag .trunc).diagLong = s.diagLong := rfl
@[simp] theorem diag_trunc_diagTrunc (s : State) :
    (s.diag .trunc).diagTrunc = satIncrement s.diagTrunc := rfl

/-- A memory replaced reads as given, every other one as before. -/
theorem setRegion_region (s : State) (m : Mem) (r : Region) (m' : Mem) :
    (s.setRegion m r).region m' = if m' = m then r else s.region m' := by
  cases m <;> cases m' <;> rfl

/-! ### The host's side -/

@[simp] theorem region_withMoves (s : State) (l : List Move) (m : Mem) :
    ({ s with moves := l } : State).region m = s.region m := by cases m <;> rfl
@[simp] theorem region_withReply (s : State) (r : Reply) (m : Mem) :
    ({ s with reply := r } : State).region m = s.region m := by cases m <;> rfl

end Sys2Proof.Machine
end

