-- ==== Sys2Proof/Laws/Memory.lean ====
section
/-! SUPPORT. The memories: what a read gives after a write, and that every operation keeps the
canonical form. -/

namespace Sys2Proof.Machine

@[simp] theorem Memory.get_nil (z : Elem) (i : Nat) : Memory.get z [] i = z := rfl

theorem Memory.get_cons (z : Elem) (c : Nat × Elem) (t : Region) (i : Nat) :
    Memory.get z (c :: t) i = if c.1 = i then c.2 else Memory.get z t i := rfl

/-- An index below every listed one reads as unlisted. -/
theorem Memory.get_of_forall_ne {z : Elem} {r : Region} {i : Nat} (h : ∀ c ∈ r, c.1 ≠ i) :
    Memory.get z r i = z := by
  induction r with
  | nil => rfl
  | cons c t ih =>
    rw [Memory.get_cons, if_neg (h c (by simp)), ih (fun d hd => h d (by simp [hd]))]

theorem Memory.get_append (z : Elem) (r t : Region) (i : Nat) :
    Memory.get z (r ++ t) i = if ∃ c ∈ r, c.1 = i then Memory.get z r i else Memory.get z t i := by
  induction r with
  | nil => simp
  | cons c u ih =>
    rw [List.cons_append, Memory.get_cons, Memory.get_cons, ih]
    by_cases h : c.1 = i
    · rw [if_pos h, if_pos h, if_pos ⟨c, by simp, h⟩]
    · rw [if_neg h, if_neg h]
      by_cases hu : ∃ d ∈ u, d.1 = i
      · obtain ⟨d, hd, hi⟩ := hu
        rw [if_pos ⟨d, hd, hi⟩, if_pos ⟨d, by simp [hd], hi⟩]
      · rw [if_neg hu, if_neg]
        rintro ⟨d, hd, hi⟩
        rcases List.mem_cons.1 hd with rfl | hd
        · exact h hi
        · exact hu ⟨d, hd, hi⟩

/-- Filtering on the index keeps the reads the filter admits. -/
theorem Memory.get_filter (z : Elem) (r : Region) (p : Nat → Bool) (i : Nat) :
    Memory.get z (r.filter fun c => p c.1) i = if p i = true then Memory.get z r i else z := by
  induction r with
  | nil => simp
  | cons c t ih =>
    by_cases hc : p c.1 = true
    · rw [List.filter_cons_of_pos (p := fun c : Nat × Elem => p c.1) hc, Memory.get_cons, Memory.get_cons, ih]
      by_cases hi : c.1 = i
      · subst hi; simp [hc]
      · simp [hi]
    · rw [List.filter_cons_of_neg (p := fun c : Nat × Elem => p c.1) hc, ih, Memory.get_cons]
      by_cases hi : c.1 = i
      · subst hi; simp [hc]
      · simp [hi]

theorem Memory.mem_cells {z : Elem} {a n : Nat} {f : Nat → Elem} {c : Nat × Elem} :
    c ∈ Memory.cells z a n f ↔ a ≤ c.1 ∧ c.1 < a + n ∧ c.2 = f c.1 ∧ f c.1 ≠ z := by
  obtain ⟨i, v⟩ := c
  simp only [Memory.cells, List.mem_filterMap, List.mem_range'_1]
  constructor
  · rintro ⟨j, hj, h⟩
    by_cases hz : f j = z <;> simp [hz] at h
    obtain ⟨rfl, rfl⟩ := h
    exact ⟨hj.1, hj.2, rfl, hz⟩
  · rintro ⟨h1, h2, h3, h4⟩
    exact ⟨i, ⟨h1, h2⟩, by simp [h4, h3]⟩

/-- Indices in rising order. -/
theorem Memory.cells_pairwise (z : Elem) (a n : Nat) (f : Nat → Elem) :
    (Memory.cells z a n f).Pairwise (fun c d => c.1 < d.1) := by
  rw [Memory.cells, List.pairwise_filterMap]
  refine (List.pairwise_lt_range' (s := a) (n := n)).imp ?_
  intro i j hij c hc d hd
  by_cases hi : f i = z <;> simp [hi] at hc
  by_cases hj : f j = z <;> simp [hj] at hd
  subst hc hd
  exact hij

theorem Memory.get_of_mem {z : Elem} {r : Region} (h : r.Pairwise (fun c d => c.1 < d.1))
    {c : Nat × Elem} (hc : c ∈ r) : Memory.get z r c.1 = c.2 := by
  induction r with
  | nil => cases hc
  | cons d t ih =>
    rw [List.pairwise_cons] at h
    rcases List.mem_cons.1 hc with rfl | ht
    · simp [Memory.get_cons]
    · rw [Memory.get_cons, if_neg (by have := h.1 c ht; omega), ih h.2 ht]

theorem Memory.get_cells (z : Elem) (a n : Nat) (f : Nat → Elem) (i : Nat) :
    Memory.get z (Memory.cells z a n f) i = if a ≤ i ∧ i < a + n then f i else z := by
  by_cases hm : a ≤ i ∧ i < a + n ∧ f i ≠ z
  · rw [if_pos ⟨hm.1, hm.2.1⟩]
    exact Memory.get_of_mem (c := (i, f i)) (Memory.cells_pairwise z a n f)
      (Memory.mem_cells.2 ⟨hm.1, hm.2.1, rfl, hm.2.2⟩)
  · rw [Memory.get_of_forall_ne]
    · by_cases hr : a ≤ i ∧ i < a + n
      · rw [if_pos hr]
        by_contra hne
        exact hm ⟨hr.1, hr.2, fun h => hne h.symm⟩
      · rw [if_neg hr]
    · intro c hc hi
      subst hi
      have := Memory.mem_cells.1 hc
      exact hm ⟨this.1, this.2.1, this.2.2.2⟩

/-- A read after a range write: the range as written, every other element as before. -/
theorem Memory.get_fill (z : Elem) (r : Region) (a n : Nat) (f : Nat → Elem) (i : Nat) :
    Memory.get z (Memory.fill z r a n f) i =
      if a ≤ i ∧ i < a + n then f i else Memory.get z r i := by
  have h1 := Memory.get_filter z r (fun j => decide (j < a)) i
  have h3 := Memory.get_filter z r (fun j => decide (a + n ≤ j)) i
  simp only [decide_eq_true_eq] at h1 h3
  have e1 : (∃ c ∈ r.filter (fun c => decide (c.1 < a)), c.1 = i) → i < a := by
    rintro ⟨c, hc, rfl⟩
    simpa using (List.mem_filter.1 hc).2
  have e2 : (∃ c ∈ Memory.cells z a n f, c.1 = i) → a ≤ i ∧ i < a + n := by
    rintro ⟨c, hc, rfl⟩
    have := Memory.mem_cells.1 hc
    exact ⟨this.1, this.2.1⟩
  have n1 : ¬ (∃ c ∈ r.filter (fun c => decide (c.1 < a)), c.1 = i) →
      Memory.get z (r.filter (fun c => decide (c.1 < a))) i = z := fun h =>
    Memory.get_of_forall_ne fun c hc hi => h ⟨c, hc, hi⟩
  have n2 : ¬ (∃ c ∈ Memory.cells z a n f, c.1 = i) →
      Memory.get z (Memory.cells z a n f) i = z := fun h =>
    Memory.get_of_forall_ne fun c hc hi => h ⟨c, hc, hi⟩
  rw [Memory.fill, Memory.get_append, Memory.get_append]
  rw [h3, h1, Memory.get_cells] at *
  by_cases p1 : ∃ c ∈ r.filter (fun c => decide (c.1 < a)), c.1 = i
  · have := e1 p1
    have hl : ∃ c ∈ r.filter (fun c => decide (c.1 < a)) ++ Memory.cells z a n f, c.1 = i := by
      obtain ⟨c, hc, hi⟩ := p1
      exact ⟨c, List.mem_append_left _ hc, hi⟩
    rw [if_pos hl, if_pos p1, if_pos this, if_neg (by omega)]
  · have q1 := n1 p1
    by_cases p2 : ∃ c ∈ Memory.cells z a n f, c.1 = i
    · have := e2 p2
      have hl : ∃ c ∈ r.filter (fun c => decide (c.1 < a)) ++ Memory.cells z a n f, c.1 = i := by
        obtain ⟨c, hc, hi⟩ := p2
        exact ⟨c, List.mem_append_right _ hc, hi⟩
      rw [if_pos hl, if_neg p1, if_pos this, if_pos this]
    · have q2 := n2 p2
      have hl : ¬ ∃ c ∈ r.filter (fun c => decide (c.1 < a)) ++ Memory.cells z a n f, c.1 = i := by
        rintro ⟨c, hc, hi⟩
        rcases List.mem_append.1 hc with h | h
        · exact p1 ⟨c, h, hi⟩
        · exact p2 ⟨c, h, hi⟩
      rw [if_neg hl]
      by_cases hr : a ≤ i ∧ i < a + n
      · rw [if_pos hr] at q2 ⊢
        rw [if_neg (by omega), q2]
      · rw [if_neg hr]
        by_cases hge : a + n ≤ i
        · rw [if_pos hge]
        · have hlt : i < a := by omega
          rw [if_pos hlt] at q1
          rw [if_neg hge, q1]

/-- A range write keeps the canonical form when the range lies below the capacity and the
elements are of the instance's kind. -/
theorem Memory.fill_wf {k : ElemKind} {cap a n : Nat} {r : Region} {f : Nat → Elem}
    (hr : Memory.wf k cap r) (hcap : a + n ≤ cap)
    (hf : ∀ i, a ≤ i → i < a + n → (f i).kind = k) :
    Memory.wf k cap (Memory.fill k.zero r a n f) := by
  obtain ⟨hp, hm⟩ := hr
  constructor
  · rw [Memory.fill, List.pairwise_append, List.pairwise_append]
    refine ⟨⟨hp.filter _, Memory.cells_pairwise _ _ _ _, ?_⟩, hp.filter _, ?_⟩
    · intro c hc d hd
      have h1 := (List.mem_filter.1 hc).2
      have h2 := Memory.mem_cells.1 hd
      simp only [decide_eq_true_eq] at h1
      omega
    · intro c hc d hd
      have h2 := (List.mem_filter.1 hd).2
      simp only [decide_eq_true_eq] at h2
      rcases List.mem_append.1 hc with h | h
      · have h1 := (List.mem_filter.1 h).2
        simp only [decide_eq_true_eq] at h1
        omega
      · have h1 := Memory.mem_cells.1 h
        omega
  · intro c hc
    rw [Memory.fill, List.mem_append, List.mem_append] at hc
    rcases hc with (h | h) | h
    · exact hm c (List.mem_filter.1 h).1
    · obtain ⟨h1, h2, h3, h4⟩ := Memory.mem_cells.1 h
      exact ⟨by omega, by rw [h3]; exact hf _ h1 h2, by rw [h3]; exact h4⟩
    · exact hm c (List.mem_filter.1 h).1

/-- A read of a canonical memory gives an element of the instance's kind. -/
theorem Memory.get_kind {k : ElemKind} {cap : Nat} {r : Region} (hr : Memory.wf k cap r)
    (i : Nat) : (Memory.get k.zero r i).kind = k := by
  have hz : k.zero.kind = k := by cases k <;> rfl
  obtain ⟨-, hm⟩ := hr
  induction r with
  | nil => simpa using hz
  | cons c t ih =>
    rw [Memory.get_cons]
    split
    · exact (hm c (by simp)).2.1
    · exact ih (fun d hd => hm d (by simp [hd]))

theorem Memory.wf_nil (k : ElemKind) (cap : Nat) : Memory.wf k cap [] := by
  simp [Memory.wf]

/-! ### On the state -/

@[simp] theorem fill_cfg (s : State) (m : Mem) (a n : Nat) (f : Nat → Elem) :
    (s.fill m a n f).cfg = s.cfg := by simp [State.fill]
@[simp] theorem fill_phase (s : State) (m : Mem) (a n : Nat) (f : Nat → Elem) :
    (s.fill m a n f).phase = s.phase := by simp [State.fill]
@[simp] theorem fill_actlen (s : State) (m : Mem) (a n : Nat) (f : Nat → Elem) :
    (s.fill m a n f).actlen = s.actlen := by simp [State.fill]
@[simp] theorem fill_faultCode (s : State) (m : Mem) (a n : Nat) (f : Nat → Elem) :
    (s.fill m a n f).faultCode = s.faultCode := by simp [State.fill]
@[simp] theorem fill_faultCmd (s : State) (m : Mem) (a n : Nat) (f : Nat → Elem) :
    (s.fill m a n f).faultCmd = s.faultCmd := by simp [State.fill]
@[simp] theorem fill_diagShort (s : State) (m : Mem) (a n : Nat) (f : Nat → Elem) :
    (s.fill m a n f).diagShort = s.diagShort := by simp [State.fill]
@[simp] theorem fill_diagLong (s : State) (m : Mem) (a n : Nat) (f : Nat → Elem) :
    (s.fill m a n f).diagLong = s.diagLong := by simp [State.fill]
@[simp] theorem fill_diagTrunc (s : State) (m : Mem) (a n : Nat) (f : Nat → Elem) :
    (s.fill m a n f).diagTrunc = s.diagTrunc := by simp [State.fill]
@[simp] theorem fill_moves (s : State) (m : Mem) (a n : Nat) (f : Nat → Elem) :
    (s.fill m a n f).moves = s.moves := by simp [State.fill]
@[simp] theorem fill_reply (s : State) (m : Mem) (a n : Nat) (f : Nat → Elem) :
    (s.fill m a n f).reply = s.reply := by simp [State.fill]
@[simp] theorem fill_draws (s : State) (m : Mem) (a n : Nat) (f : Nat → Elem) :
    (s.fill m a n f).draws = s.draws := by simp [State.fill]

/-- The whole of what a range write does to the reads of every memory. -/
theorem elem_fill (s : State) (m : Mem) (a n : Nat) (f : Nat → Elem) (m' : Mem) (i : Nat) :
    (s.fill m a n f).elem m' i =
      if m' = m ∧ a ≤ i ∧ i < a + n then f i else s.elem m' i := by
  simp only [State.elem, State.fill, State.zero, setRegion_cfg, setRegion_region]
  by_cases hm : m' = m
  · subst hm
    simp [Memory.get_fill]
  · simp [hm]

/-- An element outside the written range, or of another memory, reads as before. -/
theorem elem_fill_ne {s : State} {m m' : Mem} (h : m' ≠ m) (a n : Nat) (f : Nat → Elem) (i : Nat) :
    (s.fill m a n f).elem m' i = s.elem m' i := by
  rw [elem_fill, if_neg (by simp [h])]

@[simp] theorem elem_setPhase (s : State) (ph : Phase) (m : Mem) (i : Nat) :
    (s.setPhase ph).elem m i = s.elem m i := by simp [State.elem, State.zero]
@[simp] theorem elem_setActlen (s : State) (n : Nat) (m : Mem) (i : Nat) :
    (s.setActlen n).elem m i = s.elem m i := by simp [State.elem, State.zero]
@[simp] theorem elem_advance (s : State) (m : Mem) (i : Nat) :
    s.advance.elem m i = s.elem m i := by simp [State.elem, State.zero]
@[simp] theorem elem_diag (s : State) (d : Diag) (m : Mem) (i : Nat) :
    (s.diag d).elem m i = s.elem m i := by simp [State.elem, State.zero]
@[simp] theorem elem_raiseFault (c : FaultCode) (w : Word) (s : State) (m : Mem) (i : Nat) :
    (raiseFault c w s).elem m i = s.elem m i := by simp [State.elem, State.zero]
@[simp] theorem elem_clearDiags (s : State) (m : Mem) (i : Nat) :
    (clearDiags s).elem m i = s.elem m i := by simp [State.elem, State.zero]
@[simp] theorem elem_withMoves (s : State) (l : List Move) (m : Mem) (i : Nat) :
    ({ s with moves := l } : State).elem m i = s.elem m i := by simp [State.elem, State.zero]
@[simp] theorem elem_withReply (s : State) (r : Reply) (m : Mem) (i : Nat) :
    ({ s with reply := r } : State).elem m i = s.elem m i := by simp [State.elem, State.zero]

/-- A memory of the state after a range write, as a whole. -/
theorem fill_region (s : State) (m : Mem) (a n : Nat) (f : Nat → Elem) (m' : Mem) :
    (s.fill m a n f).region m' =
      if m' = m then Memory.fill s.zero (s.region m) a n f else s.region m' := by
  rw [State.fill, setRegion_region]

end Sys2Proof.Machine
end

