-- ==== Sys2Proof/Laws/Ops.lean ====
section
/-! SUPPORT. What each shared operation changes and what it leaves: the fields it keeps, and the
reads of every memory after it. -/

namespace Sys2Proof.Machine

/-- `sat32(C + 1)` as a number (rule R160). -/
theorem satIncrement_toNat (c : Word) :
    (satIncrement c).toNat = min (c.toNat + 1) (2 ^ 32 - 1) := by
  unfold satIncrement
  have := c.isLt
  split
  · rename_i h
    rw [BitVec.toNat_add, show (1 : Word).toNat = 1 from rfl]
    omega
  · omega

/-! ### scribble -/

@[simp] theorem scribble_cfg (s : State) (f : Nat → Elem) :
    (s.scribble f).cfg = s.cfg := by simp [State.scribble]
@[simp] theorem scribble_faultCode (s : State) (f : Nat → Elem) :
    (s.scribble f).faultCode = s.faultCode := by simp [State.scribble]
@[simp] theorem scribble_faultCmd (s : State) (f : Nat → Elem) :
    (s.scribble f).faultCmd = s.faultCmd := by simp [State.scribble]
@[simp] theorem scribble_moves (s : State) (f : Nat → Elem) :
    (s.scribble f).moves = s.moves := by simp [State.scribble]
@[simp] theorem scribble_reply (s : State) (f : Nat → Elem) :
    (s.scribble f).reply = s.reply := by simp [State.scribble]
@[simp] theorem scribble_phase (s : State) (f : Nat → Elem) :
    (s.scribble f).phase = s.phase := by simp [State.scribble]
@[simp] theorem scribble_actlen (s : State) (f : Nat → Elem) :
    (s.scribble f).actlen = s.actlen := by simp [State.scribble]
@[simp] theorem scribble_diagShort (s : State) (f : Nat → Elem) :
    (s.scribble f).diagShort = s.diagShort := by simp [State.scribble]
@[simp] theorem scribble_diagLong (s : State) (f : Nat → Elem) :
    (s.scribble f).diagLong = s.diagLong := by simp [State.scribble]
@[simp] theorem scribble_diagTrunc (s : State) (f : Nat → Elem) :
    (s.scribble f).diagTrunc = s.diagTrunc := by simp [State.scribble]

/-! ### lengthDiag -/

@[simp] theorem lengthDiag_cfg (len : Nat) (s : State) :
    (lengthDiag len s).cfg = s.cfg := by unfold lengthDiag; split_ifs <;> simp
@[simp] theorem lengthDiag_faultCode (len : Nat) (s : State) :
    (lengthDiag len s).faultCode = s.faultCode := by unfold lengthDiag; split_ifs <;> simp
@[simp] theorem lengthDiag_faultCmd (len : Nat) (s : State) :
    (lengthDiag len s).faultCmd = s.faultCmd := by unfold lengthDiag; split_ifs <;> simp
@[simp] theorem lengthDiag_moves (len : Nat) (s : State) :
    (lengthDiag len s).moves = s.moves := by unfold lengthDiag; split_ifs <;> simp
@[simp] theorem lengthDiag_reply (len : Nat) (s : State) :
    (lengthDiag len s).reply = s.reply := by unfold lengthDiag; split_ifs <;> simp
@[simp] theorem lengthDiag_phase (len : Nat) (s : State) :
    (lengthDiag len s).phase = s.phase := by unfold lengthDiag; split_ifs <;> simp
@[simp] theorem lengthDiag_actlen (len : Nat) (s : State) :
    (lengthDiag len s).actlen = s.actlen := by unfold lengthDiag; split_ifs <;> simp
@[simp] theorem lengthDiag_diagTrunc (len : Nat) (s : State) :
    (lengthDiag len s).diagTrunc = s.diagTrunc := by unfold lengthDiag; split_ifs <;> simp
@[simp] theorem lengthDiag_draws (len : Nat) (s : State) :
    (lengthDiag len s).draws = s.draws := by unfold lengthDiag; split_ifs <;> simp

/-! ### truncDiag -/

@[simp] theorem truncDiag_cfg (len : Nat) (s : State) :
    (truncDiag len s).cfg = s.cfg := by unfold truncDiag; split_ifs <;> simp
@[simp] theorem truncDiag_faultCode (len : Nat) (s : State) :
    (truncDiag len s).faultCode = s.faultCode := by unfold truncDiag; split_ifs <;> simp
@[simp] theorem truncDiag_faultCmd (len : Nat) (s : State) :
    (truncDiag len s).faultCmd = s.faultCmd := by unfold truncDiag; split_ifs <;> simp
@[simp] theorem truncDiag_moves (len : Nat) (s : State) :
    (truncDiag len s).moves = s.moves := by unfold truncDiag; split_ifs <;> simp
@[simp] theorem truncDiag_reply (len : Nat) (s : State) :
    (truncDiag len s).reply = s.reply := by unfold truncDiag; split_ifs <;> simp
@[simp] theorem truncDiag_phase (len : Nat) (s : State) :
    (truncDiag len s).phase = s.phase := by unfold truncDiag; split_ifs <;> simp
@[simp] theorem truncDiag_actlen (len : Nat) (s : State) :
    (truncDiag len s).actlen = s.actlen := by unfold truncDiag; split_ifs <;> simp
@[simp] theorem truncDiag_diagShort (len : Nat) (s : State) :
    (truncDiag len s).diagShort = s.diagShort := by unfold truncDiag; split_ifs <;> simp
@[simp] theorem truncDiag_diagLong (len : Nat) (s : State) :
    (truncDiag len s).diagLong = s.diagLong := by unfold truncDiag; split_ifs <;> simp
@[simp] theorem truncDiag_draws (len : Nat) (s : State) :
    (truncDiag len s).draws = s.draws := by unfold truncDiag; split_ifs <;> simp

/-! ### buildKernel -/

@[simp] theorem buildKernel_cfg (s : State) :
    (buildKernel s).cfg = s.cfg := by simp [buildKernel]
@[simp] theorem buildKernel_faultCode (s : State) :
    (buildKernel s).faultCode = s.faultCode := by simp [buildKernel]
@[simp] theorem buildKernel_faultCmd (s : State) :
    (buildKernel s).faultCmd = s.faultCmd := by simp [buildKernel]
@[simp] theorem buildKernel_moves (s : State) :
    (buildKernel s).moves = s.moves := by simp [buildKernel]
@[simp] theorem buildKernel_reply (s : State) :
    (buildKernel s).reply = s.reply := by simp [buildKernel]
@[simp] theorem buildKernel_phase (s : State) :
    (buildKernel s).phase = s.phase := by simp [buildKernel]
@[simp] theorem buildKernel_actlen (s : State) :
    (buildKernel s).actlen = s.actlen := by simp [buildKernel]
@[simp] theorem buildKernel_diagShort (s : State) :
    (buildKernel s).diagShort = s.diagShort := by simp [buildKernel]
@[simp] theorem buildKernel_diagLong (s : State) :
    (buildKernel s).diagLong = s.diagLong := by simp [buildKernel]
@[simp] theorem buildKernel_diagTrunc (s : State) :
    (buildKernel s).diagTrunc = s.diagTrunc := by simp [buildKernel]

/-! ### transformKernel -/

@[simp] theorem transformKernel_cfg (s : State) :
    (transformKernel s).cfg = s.cfg := by simp [transformKernel]
@[simp] theorem transformKernel_faultCode (s : State) :
    (transformKernel s).faultCode = s.faultCode := by simp [transformKernel]
@[simp] theorem transformKernel_faultCmd (s : State) :
    (transformKernel s).faultCmd = s.faultCmd := by simp [transformKernel]
@[simp] theorem transformKernel_moves (s : State) :
    (transformKernel s).moves = s.moves := by simp [transformKernel]
@[simp] theorem transformKernel_reply (s : State) :
    (transformKernel s).reply = s.reply := by simp [transformKernel]
@[simp] theorem transformKernel_actlen (s : State) :
    (transformKernel s).actlen = s.actlen := by simp [transformKernel]
@[simp] theorem transformKernel_diagShort (s : State) :
    (transformKernel s).diagShort = s.diagShort := by simp [transformKernel]
@[simp] theorem transformKernel_diagLong (s : State) :
    (transformKernel s).diagLong = s.diagLong := by simp [transformKernel]
@[simp] theorem transformKernel_diagTrunc (s : State) :
    (transformKernel s).diagTrunc = s.diagTrunc := by simp [transformKernel]

/-! ### convolve -/

@[simp] theorem convolve_cfg (m : Mem) (len : Nat) (s : State) :
    (convolve m len s).cfg = s.cfg := by simp [convolve]
@[simp] theorem convolve_faultCode (m : Mem) (len : Nat) (s : State) :
    (convolve m len s).faultCode = s.faultCode := by simp [convolve]
@[simp] theorem convolve_faultCmd (m : Mem) (len : Nat) (s : State) :
    (convolve m len s).faultCmd = s.faultCmd := by simp [convolve]
@[simp] theorem convolve_moves (m : Mem) (len : Nat) (s : State) :
    (convolve m len s).moves = s.moves := by simp [convolve]
@[simp] theorem convolve_reply (m : Mem) (len : Nat) (s : State) :
    (convolve m len s).reply = s.reply := by simp [convolve]
@[simp] theorem convolve_phase (m : Mem) (len : Nat) (s : State) :
    (convolve m len s).phase = s.phase := by simp [convolve]
@[simp] theorem convolve_actlen (m : Mem) (len : Nat) (s : State) :
    (convolve m len s).actlen = s.actlen := by simp [convolve]
@[simp] theorem convolve_diagTrunc (m : Mem) (len : Nat) (s : State) :
    (convolve m len s).diagTrunc = s.diagTrunc := by simp [convolve]

/-! ### wrap -/

@[simp] theorem wrap_cfg (src : Mem) (len : Nat) (s : State) :
    (wrap src len s).cfg = s.cfg := by simp [wrap]
@[simp] theorem wrap_faultCode (src : Mem) (len : Nat) (s : State) :
    (wrap src len s).faultCode = s.faultCode := by simp [wrap]
@[simp] theorem wrap_faultCmd (src : Mem) (len : Nat) (s : State) :
    (wrap src len s).faultCmd = s.faultCmd := by simp [wrap]
@[simp] theorem wrap_moves (src : Mem) (len : Nat) (s : State) :
    (wrap src len s).moves = s.moves := by simp [wrap]
@[simp] theorem wrap_reply (src : Mem) (len : Nat) (s : State) :
    (wrap src len s).reply = s.reply := by simp [wrap]
@[simp] theorem wrap_phase (src : Mem) (len : Nat) (s : State) :
    (wrap src len s).phase = s.phase := by simp [wrap]
@[simp] theorem wrap_diagShort (src : Mem) (len : Nat) (s : State) :
    (wrap src len s).diagShort = s.diagShort := by simp [wrap]
@[simp] theorem wrap_diagLong (src : Mem) (len : Nat) (s : State) :
    (wrap src len s).diagLong = s.diagLong := by simp [wrap]

/-! ### addTail -/

@[simp] theorem addTail_cfg (s : State) :
    (addTail s).cfg = s.cfg := by unfold addTail; split <;> simp
@[simp] theorem addTail_faultCode (s : State) :
    (addTail s).faultCode = s.faultCode := by unfold addTail; split <;> simp
@[simp] theorem addTail_faultCmd (s : State) :
    (addTail s).faultCmd = s.faultCmd := by unfold addTail; split <;> simp
@[simp] theorem addTail_moves (s : State) :
    (addTail s).moves = s.moves := by unfold addTail; split <;> simp
@[simp] theorem addTail_reply (s : State) :
    (addTail s).reply = s.reply := by unfold addTail; split <;> simp
@[simp] theorem addTail_phase (s : State) :
    (addTail s).phase = s.phase := by unfold addTail; split <;> simp
@[simp] theorem addTail_actlen (s : State) :
    (addTail s).actlen = s.actlen := by unfold addTail; split <;> simp
@[simp] theorem addTail_diagShort (s : State) :
    (addTail s).diagShort = s.diagShort := by unfold addTail; split <;> simp
@[simp] theorem addTail_diagLong (s : State) :
    (addTail s).diagLong = s.diagLong := by unfold addTail; split <;> simp
@[simp] theorem addTail_diagTrunc (s : State) :
    (addTail s).diagTrunc = s.diagTrunc := by unfold addTail; split <;> simp
@[simp] theorem addTail_draws (s : State) :
    (addTail s).draws = s.draws := by unfold addTail; split <;> simp

/-! ### unwrap -/

@[simp] theorem unwrap_cfg (dst : Mem) (s : State) :
    (unwrap dst s).cfg = s.cfg := by simp [unwrap]
@[simp] theorem unwrap_faultCode (dst : Mem) (s : State) :
    (unwrap dst s).faultCode = s.faultCode := by simp [unwrap]
@[simp] theorem unwrap_faultCmd (dst : Mem) (s : State) :
    (unwrap dst s).faultCmd = s.faultCmd := by simp [unwrap]
@[simp] theorem unwrap_moves (dst : Mem) (s : State) :
    (unwrap dst s).moves = s.moves := by simp [unwrap]
@[simp] theorem unwrap_reply (dst : Mem) (s : State) :
    (unwrap dst s).reply = s.reply := by simp [unwrap]
@[simp] theorem unwrap_phase (dst : Mem) (s : State) :
    (unwrap dst s).phase = s.phase := by simp [unwrap]
@[simp] theorem unwrap_actlen (dst : Mem) (s : State) :
    (unwrap dst s).actlen = s.actlen := by simp [unwrap]
@[simp] theorem unwrap_diagShort (dst : Mem) (s : State) :
    (unwrap dst s).diagShort = s.diagShort := by simp [unwrap]
@[simp] theorem unwrap_diagLong (dst : Mem) (s : State) :
    (unwrap dst s).diagLong = s.diagLong := by simp [unwrap]
@[simp] theorem unwrap_diagTrunc (dst : Mem) (s : State) :
    (unwrap dst s).diagTrunc = s.diagTrunc := by simp [unwrap]

/-! ### clearOverlap -/

@[simp] theorem clearOverlap_cfg (s : State) :
    (clearOverlap s).cfg = s.cfg := by simp [clearOverlap]
@[simp] theorem clearOverlap_faultCode (s : State) :
    (clearOverlap s).faultCode = s.faultCode := by simp [clearOverlap]
@[simp] theorem clearOverlap_faultCmd (s : State) :
    (clearOverlap s).faultCmd = s.faultCmd := by simp [clearOverlap]
@[simp] theorem clearOverlap_moves (s : State) :
    (clearOverlap s).moves = s.moves := by simp [clearOverlap]
@[simp] theorem clearOverlap_reply (s : State) :
    (clearOverlap s).reply = s.reply := by simp [clearOverlap]
@[simp] theorem clearOverlap_phase (s : State) :
    (clearOverlap s).phase = s.phase := by simp [clearOverlap]
@[simp] theorem clearOverlap_actlen (s : State) :
    (clearOverlap s).actlen = s.actlen := by simp [clearOverlap]
@[simp] theorem clearOverlap_diagShort (s : State) :
    (clearOverlap s).diagShort = s.diagShort := by simp [clearOverlap]
@[simp] theorem clearOverlap_diagLong (s : State) :
    (clearOverlap s).diagLong = s.diagLong := by simp [clearOverlap]
@[simp] theorem clearOverlap_diagTrunc (s : State) :
    (clearOverlap s).diagTrunc = s.diagTrunc := by simp [clearOverlap]

/-! ### zeroStuff -/

@[simp] theorem zeroStuff_cfg (len : Nat) (s : State) :
    (zeroStuff len s).cfg = s.cfg := by simp [zeroStuff]
@[simp] theorem zeroStuff_faultCode (len : Nat) (s : State) :
    (zeroStuff len s).faultCode = s.faultCode := by simp [zeroStuff]
@[simp] theorem zeroStuff_faultCmd (len : Nat) (s : State) :
    (zeroStuff len s).faultCmd = s.faultCmd := by simp [zeroStuff]
@[simp] theorem zeroStuff_moves (len : Nat) (s : State) :
    (zeroStuff len s).moves = s.moves := by simp [zeroStuff]
@[simp] theorem zeroStuff_reply (len : Nat) (s : State) :
    (zeroStuff len s).reply = s.reply := by simp [zeroStuff]
@[simp] theorem zeroStuff_phase (len : Nat) (s : State) :
    (zeroStuff len s).phase = s.phase := by simp [zeroStuff]
@[simp] theorem zeroStuff_actlen (len : Nat) (s : State) :
    (zeroStuff len s).actlen = s.actlen := by simp [zeroStuff]
@[simp] theorem zeroStuff_diagShort (len : Nat) (s : State) :
    (zeroStuff len s).diagShort = s.diagShort := by simp [zeroStuff]
@[simp] theorem zeroStuff_diagLong (len : Nat) (s : State) :
    (zeroStuff len s).diagLong = s.diagLong := by simp [zeroStuff]
@[simp] theorem zeroStuff_diagTrunc (len : Nat) (s : State) :
    (zeroStuff len s).diagTrunc = s.diagTrunc := by simp [zeroStuff]

/-! ### decimate -/

@[simp] theorem decimate_cfg (len : Nat) (s : State) :
    (decimate len s).cfg = s.cfg := by simp [decimate]
@[simp] theorem decimate_faultCode (len : Nat) (s : State) :
    (decimate len s).faultCode = s.faultCode := by simp [decimate]
@[simp] theorem decimate_faultCmd (len : Nat) (s : State) :
    (decimate len s).faultCmd = s.faultCmd := by simp [decimate]
@[simp] theorem decimate_moves (len : Nat) (s : State) :
    (decimate len s).moves = s.moves := by simp [decimate]
@[simp] theorem decimate_reply (len : Nat) (s : State) :
    (decimate len s).reply = s.reply := by simp [decimate]
@[simp] theorem decimate_phase (len : Nat) (s : State) :
    (decimate len s).phase = s.phase := by simp [decimate]
@[simp] theorem decimate_actlen (len : Nat) (s : State) :
    (decimate len s).actlen = s.actlen := by simp [decimate]
@[simp] theorem decimate_diagShort (len : Nat) (s : State) :
    (decimate len s).diagShort = s.diagShort := by simp [decimate]
@[simp] theorem decimate_diagLong (len : Nat) (s : State) :
    (decimate len s).diagLong = s.diagLong := by simp [decimate]
@[simp] theorem decimate_diagTrunc (len : Nat) (s : State) :
    (decimate len s).diagTrunc = s.diagTrunc := by simp [decimate]

/-! ### filterView -/

@[simp] theorem filterView_cfg (s : State) :
    (filterView s).cfg = s.cfg := by simp [filterView]
@[simp] theorem filterView_faultCode (s : State) :
    (filterView s).faultCode = s.faultCode := by simp [filterView]
@[simp] theorem filterView_faultCmd (s : State) :
    (filterView s).faultCmd = s.faultCmd := by simp [filterView]
@[simp] theorem filterView_moves (s : State) :
    (filterView s).moves = s.moves := by simp [filterView]
@[simp] theorem filterView_reply (s : State) :
    (filterView s).reply = s.reply := by simp [filterView]
@[simp] theorem filterView_phase (s : State) :
    (filterView s).phase = s.phase := by simp [filterView]
@[simp] theorem filterView_actlen (s : State) :
    (filterView s).actlen = s.actlen := by simp [filterView]
@[simp] theorem filterView_diagTrunc (s : State) :
    (filterView s).diagTrunc = s.diagTrunc := by simp [filterView]

/-! ### beginOversample -/

@[simp] theorem beginOversample_cfg (len : Nat) (s : State) :
    (beginOversample len s).cfg = s.cfg := by simp [beginOversample]
@[simp] theorem beginOversample_faultCode (len : Nat) (s : State) :
    (beginOversample len s).faultCode = s.faultCode := by simp [beginOversample]
@[simp] theorem beginOversample_faultCmd (len : Nat) (s : State) :
    (beginOversample len s).faultCmd = s.faultCmd := by simp [beginOversample]
@[simp] theorem beginOversample_moves (len : Nat) (s : State) :
    (beginOversample len s).moves = s.moves := by simp [beginOversample]
@[simp] theorem beginOversample_reply (len : Nat) (s : State) :
    (beginOversample len s).reply = s.reply := by simp [beginOversample]

/-! ### endOversample -/

@[simp] theorem endOversample_cfg (s : State) :
    (endOversample s).cfg = s.cfg := by simp [endOversample]
@[simp] theorem endOversample_faultCode (s : State) :
    (endOversample s).faultCode = s.faultCode := by simp [endOversample]
@[simp] theorem endOversample_faultCmd (s : State) :
    (endOversample s).faultCmd = s.faultCmd := by simp [endOversample]
@[simp] theorem endOversample_moves (s : State) :
    (endOversample s).moves = s.moves := by simp [endOversample]
@[simp] theorem endOversample_reply (s : State) :
    (endOversample s).reply = s.reply := by simp [endOversample]
@[simp] theorem endOversample_actlen (s : State) :
    (endOversample s).actlen = s.actlen := by simp [endOversample]
@[simp] theorem endOversample_diagTrunc (s : State) :
    (endOversample s).diagTrunc = s.diagTrunc := by simp [endOversample]

/-! ### Phases and lengths -/

@[simp] theorem transformKernel_phase (s : State) : (transformKernel s).phase = .ready := by
  simp [transformKernel]
@[simp] theorem beginOversample_phase (len : Nat) (s : State) :
    (beginOversample len s).phase = .callback := by simp [beginOversample]
@[simp] theorem endOversample_phase (s : State) : (endOversample s).phase = .ready := by
  simp [endOversample]
@[simp] theorem wrap_actlen (src : Mem) (len : Nat) (s : State) :
    (wrap src len s).actlen = BitVec.ofNat 24 (min len s.cfg.OB) := by simp [wrap]
@[simp] theorem wrap_draws (src : Mem) (len : Nat) (s : State) :
    (wrap src len s).draws = s.draws + 1 := by simp [wrap]
@[simp] theorem scribble_draws (s : State) (f : Nat → Elem) :
    (s.scribble f).draws = s.draws + 1 := by simp [State.scribble]
@[simp] theorem convolve_draws (m : Mem) (len : Nat) (s : State) :
    (convolve m len s).draws = s.draws + 1 := by simp [convolve]
@[simp] theorem filterView_draws (s : State) : (filterView s).draws = s.draws + 1 := by
  simp [filterView]
@[simp] theorem zeroStuff_draws (len : Nat) (s : State) :
    (zeroStuff len s).draws = s.draws + 1 := by simp [zeroStuff]
@[simp] theorem beginOversample_actlen (len : Nat) (s : State) :
    (beginOversample len s).actlen = BitVec.ofNat 24 (min (len * s.cfg.F) s.cfg.OB) := by
  simp [beginOversample]

/-! ### Counters -/

/-- Rule R112: `DIAG_SHORT` counts a convolution on fewer than N elements. -/
theorem lengthDiag_diagShort (len : Nat) (s : State) : (lengthDiag len s).diagShort =
    if len < s.cfg.N then satIncrement s.diagShort else s.diagShort := by
  unfold lengthDiag; split_ifs <;> simp_all

/-- Rule R113: `DIAG_LONG` counts a convolution on more than N elements. -/
theorem lengthDiag_diagLong (len : Nat) (s : State) : (lengthDiag len s).diagLong =
    if s.cfg.N < len then satIncrement s.diagLong else s.diagLong := by
  unfold lengthDiag; split_ifs <;> first | omega | simp_all

/-- Rule R123: `DIAG_TRUNC` counts a wrap on more than OB elements. -/
theorem truncDiag_diagTrunc (len : Nat) (s : State) : (truncDiag len s).diagTrunc =
    if s.cfg.OB < len then satIncrement s.diagTrunc else s.diagTrunc := by
  unfold truncDiag; split_ifs <;> simp_all

theorem convolve_diagShort (m : Mem) (len : Nat) (s : State) : (convolve m len s).diagShort =
    if len < s.cfg.N then satIncrement s.diagShort else s.diagShort := by
  simp [convolve, lengthDiag_diagShort]

theorem convolve_diagLong (m : Mem) (len : Nat) (s : State) : (convolve m len s).diagLong =
    if s.cfg.N < len then satIncrement s.diagLong else s.diagLong := by
  simp [convolve, lengthDiag_diagLong]

theorem wrap_diagTrunc (src : Mem) (len : Nat) (s : State) : (wrap src len s).diagTrunc =
    if s.cfg.OB < len then satIncrement s.diagTrunc else s.diagTrunc := by
  simp [wrap, truncDiag_diagTrunc]

/-! ### Reads -/

@[simp] theorem elem_lengthDiag (len : Nat) (s : State) (m : Mem) (i : Nat) :
    (lengthDiag len s).elem m i = s.elem m i := by unfold lengthDiag; split_ifs <;> simp

@[simp] theorem elem_truncDiag (len : Nat) (s : State) (m : Mem) (i : Nat) :
    (truncDiag len s).elem m i = s.elem m i := by unfold truncDiag; split_ifs <;> simp

/-- A transform's working memories are the only ones `scribble` touches (rules R48, R49). -/
theorem elem_scribble (s : State) (f : Nat → Elem) {m : Mem} (hw : m ≠ .w) (hs : m ≠ .scr)
    (i : Nat) : (s.scribble f).elem m i = s.elem m i := by
  rw [State.scribble, elem_advance, elem_fill_ne hs, elem_fill_ne hw]

/-- Rules R91 to R94: every element of `K` below N, nothing else. -/
theorem elem_buildKernel (s : State) (m : Mem) (i : Nat) : (buildKernel s).elem m i =
    if m = .k ∧ i < s.cfg.N then kernelElem s.cfg i else s.elem m i := by
  simp [buildKernel, elem_fill]

/-- Rule R101: every element of `H` below 2N, and the working memories. -/
theorem elem_transformKernel (s : State) {m : Mem} (hw : m ≠ .w) (hs : m ≠ .scr) (i : Nat) :
    (transformKernel s).elem m i =
      if m = .h ∧ i < 2 * s.cfg.N then dftKernelElem s.cfg (s.elems .k s.cfg.N) i
      else s.elem m i := by
  simp [transformKernel, elem_scribble, hw, hs, elem_fill]

/-- Rules R109, R110: the first min(len, N) elements of the block, and the working memories. -/
theorem elem_convolve (s : State) (r : Mem) (len : Nat) {m : Mem} (hw : m ≠ .w) (hs : m ≠ .scr)
    (i : Nat) : (convolve r len s).elem m i =
      if m = r ∧ i < min len s.cfg.N then
        cconvElem s.cfg (s.elems .h (2 * s.cfg.N)) (s.elems r (min len s.cfg.N)) i
      else s.elem m i := by
  simp [convolve, elem_scribble, hw, hs, elem_fill]

/-- Rule R122: the extended view, nothing else. -/
theorem elem_wrap (s : State) (src : Mem) (len : Nat) (m : Mem) (i : Nat) :
    (wrap src len s).elem m i =
      if m = .x ∧ i < min len s.cfg.OB + s.cfg.P then wrappedElem src (min len s.cfg.OB) s i
      else s.elem m i := by
  simp [wrap, elem_fill]

/-- Rules R127, R132: `X` at the split. -/
theorem elem_addTail (s : State) (m : Mem) (i : Nat) : (addTail s).elem m i =
    if m = .x then unwrappedElem s i else s.elem m i := by
  unfold addTail
  split
  · rename_i h
    by_cases hm : m = .x
    · subst hm; simp [unwrappedElem, h]
    · simp [hm]
  · rename_i h
    rw [elem_fill]
    by_cases hm : m = .x
    · subst hm
      by_cases hi : i < s.cfg.P <;> simp [unwrappedElem, h, hi]
    · simp [hm]

/-- Rule R127: the output, the new padding and, under POST, the view. -/
theorem elem_unwrap (s : State) (dst m : Mem) (i : Nat) :
    (unwrap dst s).elem m i =
      if m = .pad ∧ i < s.cfg.P then unwrappedElem s (s.actlen.toNat + i)
      else if m = dst ∧ i < s.actlen.toNat then unwrappedElem s i
      else if m = .x then unwrappedElem s i
      else s.elem m i := by
  simp only [unwrap, elem_advance, elem_fill, elem_addTail, Nat.zero_le, true_and, Nat.zero_add]

/-- Rule R130: `PAD` and `X` zeroed, nothing else. -/
theorem elem_clearOverlap (s : State) (m : Mem) (i : Nat) : (clearOverlap s).elem m i =
    if (m = .pad ∧ i < s.cfg.P) ∨ (m = .x ∧ i < s.cfg.N) then s.cfg.kind.zero
    else s.elem m i := by
  simp only [clearOverlap, elem_fill, Nat.zero_le, true_and, Nat.zero_add, State.zero]
  by_cases hx : m = .x ∧ i < s.cfg.N
  · simp [hx]
  · by_cases hp : m = .pad ∧ i < s.cfg.P
    · simp [hp]
    · simp [hx, hp]

/-- Rule R136: the zero-stuffed block, nothing else. -/
theorem elem_zeroStuff (s : State) (len : Nat) (m : Mem) (i : Nat) :
    (zeroStuff len s).elem m i =
      if m = .os ∧ i < len * s.cfg.F then stuffedElem s i else s.elem m i := by
  simp [zeroStuff, elem_fill]

/-- Rule R137: the kept samples, nothing else. -/
theorem elem_decimate (s : State) (len : Nat) (m : Mem) (i : Nat) : (decimate len s).elem m i =
    if m = .io ∧ i < len then s.elem .os (i * s.cfg.F) else s.elem m i := by
  simp [decimate, elem_fill]

/-! ### One command -/

/-- Every way a command ends: ignored in FAULT, a phase fault, an operand fault, or its effect
(rules R70, R157, R166). -/
theorem runCommand_cases {i : Instr} {legal : Phase → Bool} {check : State → FaultCode}
    {effect : State → State} {s t : State} (h : runCommand i legal check effect s = .next t) :
    (s.phase = .fault ∧ t = s) ∨
    (s.phase ≠ .fault ∧ legal s.phase = false ∧ t = raiseFault .badPhase (encode i) s) ∨
    (s.phase ≠ .fault ∧ legal s.phase = true ∧ check s ≠ .none ∧
      t = raiseFault (check s) (encode i) s) ∨
    (s.phase ≠ .fault ∧ legal s.phase = true ∧ check s = .none ∧ t = effect s) := by
  unfold runCommand at h
  split_ifs at h with h1 h2 h3
  · exact .inl ⟨h1, (Host.Outcome.next.inj h).symm⟩
  · exact .inr (.inl ⟨h1, h2, (Host.Outcome.next.inj h).symm⟩)
  · exact .inr (.inr (.inr ⟨h1, by simpa using h2, h3, (Host.Outcome.next.inj h).symm⟩))
  · exact .inr (.inr (.inl ⟨h1, by simpa using h2, h3, (Host.Outcome.next.inj h).symm⟩))

/-- A legal command whose operands fit has its effect. -/
theorem runCommand_of_legal {i : Instr} {legal : Phase → Bool} {check : State → FaultCode}
    {effect : State → State} {s : State} (h1 : s.phase ≠ .fault) (h2 : legal s.phase = true)
    (h3 : check s = .none) : runCommand i legal check effect s = .next (effect s) := by
  simp [runCommand, h1, h2, h3]

/-- A command in a phase it is not legal in raises `BAD_PHASE`. -/
theorem runCommand_of_illegal {i : Instr} {legal : Phase → Bool} {check : State → FaultCode}
    {effect : State → State} {s : State} (h1 : s.phase ≠ .fault) (h2 : legal s.phase = false) :
    runCommand i legal check effect s = .next (raiseFault .badPhase (encode i) s) := by
  simp [runCommand, h1, h2]

/-- A legal command whose operand check fails raises the check's fault. -/
theorem runCommand_of_check {i : Instr} {legal : Phase → Bool} {check : State → FaultCode}
    {effect : State → State} {s : State} (h1 : s.phase ≠ .fault) (h2 : legal s.phase = true)
    (h3 : check s ≠ .none) :
    runCommand i legal check effect s = .next (raiseFault (check s) (encode i) s) := by
  simp [runCommand, h1, h2, h3]

/-- In FAULT a command is ignored. -/
theorem runCommand_of_fault {i : Instr} {legal : Phase → Bool} {check : State → FaultCode}
    {effect : State → State} {s : State} (h : s.phase = .fault) :
    runCommand i legal check effect s = .next s := by
  simp [runCommand, h]

/-- Where each command is legal (rule R81). -/
def legalIn : Instr → Phase → Bool
  | .nop => anyPhase
  | .kgen => onlyUnbuilt
  | .kfft => onlyUnbuilt
  | .kfreq => onlyUnbuilt
  | .conv r _ => convLegal r
  | .ovlwrap _ => onlyReady
  | .ovlunwrap => onlyInner
  | .ovlreset => onlyReady
  | .ovsbegin _ => onlyReady
  | .ovsend => onlyCallback
  | .zstuff _ => onlyReady
  | .decim _ => onlyReady
  | .diagclr => anyPhase

/-- Each command's operand check (rule R81). -/
def checkOf : Instr → State → FaultCode
  | .nop => noCheck
  | .kgen => noCheck
  | .kfft => noCheck
  | .kfreq => noCheck
  | .conv r len => convCheck r len
  | .ovlwrap len => ioCheck len
  | .ovlunwrap => noCheck
  | .ovlreset => noCheck
  | .ovsbegin len => blockCheck len
  | .ovsend => noCheck
  | .zstuff len => blockCheck len
  | .decim len => blockCheck len
  | .diagclr => noCheck

/-- Each command's effect. -/
def effectOf : Instr → State → State
  | .nop => fun t => t
  | .kgen => buildKernel
  | .kfft => transformKernel
  | .kfreq => fun t => t.setPhase .ready
  | .conv r len => convolve (selMem r) len
  | .ovlwrap len => fun t => (wrap .io len t).setPhase .inner
  | .ovlunwrap => fun t => (unwrap .io t).setPhase .ready
  | .ovlreset => clearOverlap
  | .ovsbegin len => beginOversample len
  | .ovsend => endOversample
  | .zstuff len => zeroStuff len
  | .decim len => decimate len
  | .diagclr => clearDiags

/-- Every command goes through the one order of checks of rule R70. -/
theorem exec_eq_runCommand (i : Instr) (s : State) :
    exec i s = runCommand i (legalIn i) (checkOf i) (effectOf i) s := by
  cases i <;> rfl

end Sys2Proof.Machine
end

