-- ==== Sys2Proof/Laws/Exact.lean ====
section
/-! SUPPORT. The exact-real terms stand for the real numbers the reference functions give: one
lemma per operation of `Machine/Exact.lean`. -/

namespace Sys2Proof.Machine

open Sys2Proof.Reference

@[simp] theorem realOf_rat (q : Rat) : realOf (.rat q) = (q : ℝ) := rfl
@[simp] theorem realOf_pi : realOf .pi = Real.pi := rfl
@[simp] theorem realOf_add (u v : ExactReal) : realOf (.add u v) = realOf u + realOf v := rfl
@[simp] theorem realOf_mul (u v : ExactReal) : realOf (.mul u v) = realOf u * realOf v := rfl
@[simp] theorem realOf_inv (u : ExactReal) : realOf (.inv u) = (realOf u)⁻¹ := rfl

@[simp] theorem realOf_exactAdd (u v : ExactReal) :
    realOf (exactAdd u v) = realOf u + realOf v := by
  unfold exactAdd
  split <;> (try split_ifs) <;> simp_all

@[simp] theorem realOf_exactMul (u v : ExactReal) :
    realOf (exactMul u v) = realOf u * realOf v := by
  unfold exactMul
  split <;> (try split_ifs) <;> simp_all

@[simp] theorem realOf_exactInv (u : ExactReal) : realOf (exactInv u) = (realOf u)⁻¹ := by
  unfold exactInv
  split <;> simp

@[simp] theorem realOf_exactNeg (u : ExactReal) : realOf (exactNeg u) = -realOf u := by
  simp [exactNeg]

@[simp] theorem realOf_exactSum (n : Nat) (f : Nat → ExactReal) :
    realOf (exactSum n f) = ∑ i ∈ Finset.range n, realOf (f i) := by
  induction n with
  | zero => simp [exactSum]
  | succ n ih => rw [exactSum, realOf_exactAdd, ih, Finset.sum_range_succ]

@[simp] theorem elemReal_real (v : ExactReal) : elemReal (.real v) = realOf v := rfl

/-- A fraction of a turn, as an angle: from `q·a = p·n` to `2π·a/n = 2π·p/q`. -/
theorem turn_eq {a n p q : Nat} (hn : 0 < n) (hq : 0 < q) (h : q * a = p * n) :
    2 * Real.pi * (a : ℝ) / n = 2 * Real.pi * p / q := by
  have hn' : (n : ℝ) ≠ 0 := by positivity
  have hq' : (q : ℝ) ≠ 0 := by positivity
  have h' : (q : ℝ) * a = p * n := by exact_mod_cast h
  field_simp
  linear_combination h'

/-- The folded cosine is the cosine (log 21). -/
theorem realOf_exactCos {a n : Nat} (hn : 0 < n) :
    realOf (exactCos a n) = Real.cos (2 * Real.pi * a / n) := by
  unfold exactCos
  split_ifs with h1 h2 h3 h4 h5
  · simp [h1]
  · rcases h2 with h | h
    · rw [turn_eq (p := 1) (q := 4) hn (by norm_num) (by omega)]
      rw [show 2 * Real.pi * ((1 : ℕ) : ℝ) / ((4 : ℕ) : ℝ) = Real.pi / 2 by push_cast; ring]
      simp
    · rw [turn_eq (p := 3) (q := 4) hn (by norm_num) (by omega)]
      rw [show 2 * Real.pi * ((3 : ℕ) : ℝ) / ((4 : ℕ) : ℝ) = Real.pi / 2 + Real.pi by push_cast; ring,
        Real.cos_add_pi]
      simp
  · rw [turn_eq (p := 1) (q := 2) hn (by norm_num) (by omega)]
    rw [show 2 * Real.pi * ((1 : ℕ) : ℝ) / ((2 : ℕ) : ℝ) = Real.pi by push_cast; ring]
    simp
  · rcases h4 with h | h
    · rw [turn_eq (p := 1) (q := 6) hn (by norm_num) (by omega)]
      rw [show 2 * Real.pi * ((1 : ℕ) : ℝ) / ((6 : ℕ) : ℝ) = Real.pi / 3 by push_cast; ring]
      simp
    · rw [turn_eq (p := 5) (q := 6) hn (by norm_num) (by omega)]
      rw [show 2 * Real.pi * ((5 : ℕ) : ℝ) / ((6 : ℕ) : ℝ) = 2 * Real.pi - Real.pi / 3 by
        push_cast; ring, Real.cos_two_pi_sub]
      simp
  · rcases h5 with h | h
    · rw [turn_eq (p := 1) (q := 3) hn (by norm_num) (by omega)]
      rw [show 2 * Real.pi * ((1 : ℕ) : ℝ) / ((3 : ℕ) : ℝ) = Real.pi - Real.pi / 3 by
        push_cast; ring, Real.cos_pi_sub]
      norm_num
    · rw [turn_eq (p := 2) (q := 3) hn (by norm_num) (by omega)]
      rw [show 2 * Real.pi * ((2 : ℕ) : ℝ) / ((3 : ℕ) : ℝ) = Real.pi / 3 + Real.pi by
        push_cast; ring, Real.cos_add_pi]
      norm_num
  · rfl

/-- The folded sine is the sine (log 21). -/
theorem realOf_exactSin {a n : Nat} (hn : 0 < n) :
    realOf (exactSin a n) = Real.sin (2 * Real.pi * a / n) := by
  unfold exactSin
  split_ifs with h1 h2 h3 h4 h5
  · rcases h1 with h | h
    · simp [h]
    · rw [turn_eq (p := 1) (q := 2) hn (by norm_num) (by omega)]
      rw [show 2 * Real.pi * ((1 : ℕ) : ℝ) / ((2 : ℕ) : ℝ) = Real.pi by push_cast; ring]
      simp
  · rw [turn_eq (p := 1) (q := 4) hn (by norm_num) (by omega)]
    rw [show 2 * Real.pi * ((1 : ℕ) : ℝ) / ((4 : ℕ) : ℝ) = Real.pi / 2 by push_cast; ring]
    simp
  · rw [turn_eq (p := 3) (q := 4) hn (by norm_num) (by omega)]
    rw [show 2 * Real.pi * ((3 : ℕ) : ℝ) / ((4 : ℕ) : ℝ) = Real.pi / 2 + Real.pi by push_cast; ring,
      Real.sin_add_pi]
    simp
  · rcases h4 with h | h
    · rw [turn_eq (p := 1) (q := 12) hn (by norm_num) (by omega)]
      rw [show 2 * Real.pi * ((1 : ℕ) : ℝ) / ((12 : ℕ) : ℝ) = Real.pi / 6 by push_cast; ring]
      simp
    · rw [turn_eq (p := 5) (q := 12) hn (by norm_num) (by omega)]
      rw [show 2 * Real.pi * ((5 : ℕ) : ℝ) / ((12 : ℕ) : ℝ) = Real.pi - Real.pi / 6 by
        push_cast; ring, Real.sin_pi_sub]
      simp
  · rcases h5 with h | h
    · rw [turn_eq (p := 7) (q := 12) hn (by norm_num) (by omega)]
      rw [show 2 * Real.pi * ((7 : ℕ) : ℝ) / ((12 : ℕ) : ℝ) = Real.pi / 6 + Real.pi by
        push_cast; ring, Real.sin_add_pi]
      norm_num
    · rw [turn_eq (p := 11) (q := 12) hn (by norm_num) (by omega)]
      rw [show 2 * Real.pi * ((11 : ℕ) : ℝ) / ((12 : ℕ) : ℝ) = 2 * Real.pi - Real.pi / 6 by
        push_cast; ring, Real.sin_two_pi_sub]
      norm_num
  · rfl

end Sys2Proof.Machine
end

