-- ==== Sys2Proof/Laws/Ieee.lean ====
section
/-! SUPPORT. The magnitude of an IEEE 754 pattern, said once: which number each pattern stands
for, that a larger pattern stands for a larger number, and the range of each operation's result
(log 10). -/

namespace Sys2Proof.Machine

/-- A subnormal pattern stands for its fraction. -/
theorem magnitudeOf_subnormal (f : FpFormat) {q : Nat} (h : q < 2 ^ fracBits f) :
    magnitudeOf f q = q := by
  simp [magnitudeOf, Nat.div_eq_of_lt h, Nat.mod_eq_of_lt h]

/-- The pattern k·2^frac + q stands for q·2^k, when q has frac + 1 bits or is the next power of
two. -/
theorem magnitudeOf_normal (f : FpFormat) (k : Nat) {q : Nat} (h1 : 2 ^ fracBits f ≤ q)
    (h2 : q ≤ 2 ^ (fracBits f + 1)) : magnitudeOf f (k * 2 ^ fracBits f + q) = q * 2 ^ k := by
  have hp : 0 < 2 ^ fracBits f := by positivity
  rw [pow_succ] at h2
  unfold magnitudeOf
  set B := 2 ^ fracBits f with hB
  have e1 : k * B + q = (q - B) + (k + 1) * B := by
    rw [Nat.add_mul]
    omega
  rw [e1]
  rcases Nat.lt_or_ge q (B * 2) with h | h
  · have d : ((q - B) + (k + 1) * B) / B = k + 1 := by
      rw [Nat.add_mul_div_right _ _ hp, Nat.div_eq_of_lt (by omega)]
      omega
    have r : ((q - B) + (k + 1) * B) % B = q - B := by
      rw [Nat.add_mul_mod_self_right, Nat.mod_eq_of_lt (by omega)]
    simp only [d, r]
    rw [if_neg (by omega), show B + (q - B) = q by omega]
    rfl
  · have hq : q = B * 2 := by omega
    have e2 : (q - B) + (k + 1) * B = (k + 2) * B := by
      rw [hq, Nat.add_mul, Nat.add_mul]
      omega
    rw [e2, Nat.mul_div_cancel _ hp, Nat.mul_mod_left, if_neg (by omega),
      show k + 2 - 1 = k + 1 by omega, hq, pow_succ]
    ring

/-- Every pattern is of one of the two forms. -/
theorem pattern_cases (f : FpFormat) (m : Nat) : m < 2 ^ fracBits f ∨
    ∃ k q, m = k * 2 ^ fracBits f + q ∧ 2 ^ fracBits f ≤ q ∧ q < 2 ^ (fracBits f + 1) := by
  have hp : 0 < 2 ^ fracBits f := by positivity
  rcases Nat.lt_or_ge m (2 ^ fracBits f) with h | h
  · exact .inl h
  · refine .inr ⟨m / 2 ^ fracBits f - 1, 2 ^ fracBits f + m % 2 ^ fracBits f, ?_, by omega, ?_⟩
    · have h1 := Nat.div_add_mod m (2 ^ fracBits f)
      obtain ⟨c, hc⟩ : ∃ c, m / 2 ^ fracBits f = c + 1 :=
        ⟨_, (Nat.sub_add_cancel ((Nat.one_le_div_iff hp).2 h)).symm⟩
      rw [hc] at h1 ⊢
      rw [Nat.add_sub_cancel]
      rw [Nat.mul_comm, Nat.add_mul] at h1
      omega
    · have := Nat.mod_lt m hp
      rw [pow_succ]
      omega

/-- A larger pattern stands for a larger magnitude. -/
theorem magnitudeOf_strictMono (f : FpFormat) : StrictMono (magnitudeOf f) := by
  refine strictMono_nat_of_lt_succ fun m => ?_
  rcases pattern_cases f m with h | ⟨k, q, rfl, h1, h2⟩
  · rcases Nat.lt_or_ge (m + 1) (2 ^ fracBits f) with h' | h'
    · rw [magnitudeOf_subnormal f h, magnitudeOf_subnormal f h']
      omega
    · have hn := magnitudeOf_normal f 0 h' (by rw [pow_succ]; omega)
      rw [Nat.zero_mul, Nat.zero_add] at hn
      rw [hn, magnitudeOf_subnormal f h]
      omega
  · rw [Nat.add_assoc, magnitudeOf_normal f k h1 h2.le,
      magnitudeOf_normal f k (show 2 ^ fracBits f ≤ q + 1 by omega) h2]
    exact Nat.mul_lt_mul_of_pos_right (by omega) (by positivity)

/-! ### What each operation can answer -/

theorem roundMagnitude_le (f : FpFormat) (n : Nat) : roundMagnitude f n ≤ infPattern f :=
  min_le_right _ _

theorem infPattern_add (f : FpFormat) : infPattern f + 2 ^ fracBits f = signWeight f := by
  cases f <;> rfl

theorem fpPack_lt (f : FpFormat) (neg : Bool) {m : Nat} (h : m < signWeight f) :
    fpPack f neg m < 2 * signWeight f := by
  unfold fpPack
  split_ifs <;> omega

/-- The sign and magnitude of a packed pattern are those it was made of. -/
theorem fpMagBits_pack (f : FpFormat) (neg : Bool) {m : Nat} (h : m < signWeight f) :
    fpMagBits f (fpPack f neg m) = m := by
  unfold fpMagBits fpPack
  split_ifs
  · rw [Nat.add_mod_left, Nat.mod_eq_of_lt h]
  · rw [Nat.zero_add, Nat.mod_eq_of_lt h]

/-- The magnitude part of a free NaN is a NaN's. -/
theorem freeNan_magnitude (f : FpFormat) (bits : Nat) :
    infPattern f + max 1 (bits % 2 ^ fracBits f) < signWeight f := by
  have h1 : bits % 2 ^ fracBits f < 2 ^ fracBits f := Nat.mod_lt _ (by positivity)
  have h2 : 2 ≤ 2 ^ fracBits f := by cases f <;> decide
  have h3 := infPattern_add f
  omega

theorem freeNan_lt (f : FpFormat) (bits : Nat) : freeNan f bits < 2 * signWeight f :=
  fpPack_lt f _ (freeNan_magnitude f bits)

theorem freeNan_isNan (f : FpFormat) (bits : Nat) : fpIsNan f (freeNan f bits) = true := by
  unfold fpIsNan freeNan
  rw [fpMagBits_pack f _ (freeNan_magnitude f bits)]
  simp

end Sys2Proof.Machine
end

