-- ==== Sys2Proof/Laws/Numerics.lean ====
section
/-! SUPPORT. The FP data path gives elements of the instance's kind; in the exact instance it
gives the reference values. -/

namespace Sys2Proof.Machine

open Sys2Proof.Reference

@[simp] theorem zero_kind (k : ElemKind) : k.zero.kind = k := by cases k <;> rfl

@[simp] theorem elemOf_kind (p : Params) (b : BitVec 64) (v : ExactReal) :
    (elemOf p b v).kind = p.kind := by
  unfold elemOf; split <;> simp_all [Elem.kind]

@[simp] theorem elemAdd_kind (p : Params) (d j : Nat) (a b : Elem) :
    (elemAdd p d j a b).kind = p.kind := by
  unfold elemAdd; split <;> simp_all [Elem.kind]

@[simp] theorem elemScale_kind (p : Params) (d j : Nat) (a : Elem) :
    (elemScale p d j a).kind = p.kind := by
  unfold elemScale; split <;> simp_all [Elem.kind]

@[simp] theorem kernelElem_kind (p : Params) (i : Nat) : (kernelElem p i).kind = p.kind := by
  unfold kernelElem kgenElem; split <;> simp

@[simp] theorem dftKernelElem_kind (p : Params) (k : List Elem) (i : Nat) :
    (dftKernelElem p k i).kind = p.kind := by simp [dftKernelElem]

@[simp] theorem cconvElem_kind (p : Params) (h x : List Elem) (k : Nat) :
    (cconvElem p h x k).kind = p.kind := by simp [cconvElem]

@[simp] theorem workElem_kind (p : Params) (d : Nat) (w : Nat → Cplx) (i : Nat) :
    (workElem p d w i).kind = p.kind := by simp [workElem]

@[simp] theorem hiddenElem_kind (p : Params) (d i : Nat) : (hiddenElem p d i).kind = p.kind := by
  simp [hiddenElem]

/-! ### The exact instance -/

theorem kind_of_exact {p : Params} (h : p.arith = .exact) : p.kind = .exact := by
  unfold Params.kind; rw [h]

theorem elemOf_exact {p : Params} (h : p.arith = .exact) (b : BitVec 64) (v : ExactReal) :
    elemOf p b v = .real v := by
  unfold elemOf; rw [kind_of_exact h]

/-- The single addition is exact (rule R16). -/
theorem elemReal_elemAdd {p : Params} (h : p.arith = .exact) (d j : Nat) (a b : Elem) :
    elemReal (elemAdd p d j a b) = elemReal a + elemReal b := by
  unfold elemAdd; rw [kind_of_exact h]; simp [elemReal, exactOf]

/-- The product F·x is exact (rule R16). -/
theorem elemReal_elemScale {p : Params} (h : p.arith = .exact) (d j : Nat) (a : Elem) :
    elemReal (elemScale p d j a) = p.F * elemReal a := by
  unfold elemScale; rw [kind_of_exact h]; simp [elemReal, exactOf]

theorem elemReal_zero {p : Params} (h : p.arith = .exact) : elemReal p.kind.zero = 0 := by
  rw [kind_of_exact h]; simp [ElemKind.zero, elemReal, exactOf]

/-- The complex number a pair of terms stands for. -/
noncomputable def complexOf (c : Cplx) : ℂ := ⟨realOf c.re, realOf c.im⟩

theorem complexOf_times (u v : Cplx) : complexOf (u.times v) = complexOf u * complexOf v := by
  apply Complex.ext <;> simp [complexOf, Cplx.times, Complex.mul_re, Complex.mul_im] <;> ring

theorem tabulate_of_lt {n i : Nat} (h : i < n) (f : Nat → Cplx) : tabulate n f i = f i := by
  simp [tabulate, List.getD_eq_getElem?_getD, h]

theorem tabulate_of_ge {n i : Nat} (h : n ≤ i) (f : Nat → Cplx) : tabulate n f i = Cplx.zero := by
  simp [tabulate, List.getD_eq_getElem?_getD, h]

/-- An angle may drop whole turns. -/
theorem cos_turn_mod {n : Nat} (hn : 0 < n) (a : Nat) :
    Real.cos (2 * Real.pi * (a % n : ℕ) / n) = Real.cos (2 * Real.pi * a / n) := by
  have hn' : (n : ℝ) ≠ 0 := by positivity
  have h : (a : ℝ) = (a % n : ℕ) + n * (a / n : ℕ) := by exact_mod_cast (Nat.mod_add_div a n).symm
  rw [show 2 * Real.pi * (a : ℝ) / n =
    2 * Real.pi * (a % n : ℕ) / n + (a / n : ℕ) * (2 * Real.pi) by rw [h]; field_simp]
  rw [Real.cos_add_nat_mul_two_pi]

theorem sin_turn_mod {n : Nat} (hn : 0 < n) (a : Nat) :
    Real.sin (2 * Real.pi * (a % n : ℕ) / n) = Real.sin (2 * Real.pi * a / n) := by
  have hn' : (n : ℝ) ≠ 0 := by positivity
  have h : (a : ℝ) = (a % n : ℕ) + n * (a / n : ℕ) := by exact_mod_cast (Nat.mod_add_div a n).symm
  rw [show 2 * Real.pi * (a : ℝ) / n =
    2 * Real.pi * (a % n : ℕ) / n + (a / n : ℕ) * (2 * Real.pi) by rw [h]; field_simp]
  rw [Real.sin_add_nat_mul_two_pi]

/-- The forward root is exp(−2πi·a/n). -/
theorem complexOf_forwardRoot {n : Nat} (hn : 0 < n) (a : Nat) :
    complexOf (forwardRoot a n) = root (-1) n a := by
  apply Complex.ext
  · rw [root, Complex.exp_ofReal_mul_I_re]
    simp only [complexOf, forwardRoot, realOf_exactCos hn, cos_turn_mod hn]
    rw [show (-1 : ℝ) * (2 * Real.pi * a / n) = -(2 * Real.pi * a / n) by ring, Real.cos_neg]
  · rw [root, Complex.exp_ofReal_mul_I_im]
    simp only [complexOf, forwardRoot, realOf_exactNeg, realOf_exactSin hn, sin_turn_mod hn]
    rw [show (-1 : ℝ) * (2 * Real.pi * a / n) = -(2 * Real.pi * a / n) by ring, Real.sin_neg]

/-- The inverse root is exp(+2πi·a/n). -/
theorem complexOf_inverseRoot {n : Nat} (hn : 0 < n) (a : Nat) :
    complexOf (inverseRoot a n) = root 1 n a := by
  apply Complex.ext
  · rw [root, Complex.exp_ofReal_mul_I_re]
    simp only [complexOf, inverseRoot, realOf_exactCos hn, cos_turn_mod hn, one_mul]
  · rw [root, Complex.exp_ofReal_mul_I_im]
    simp only [complexOf, inverseRoot, realOf_exactSin hn, sin_turn_mod hn, one_mul]

theorem complexOf_transformBin (n : Nat) (r : Nat → Nat → Cplx) (w : Nat → Cplx) (j : Nat) :
    complexOf (transformBin n r w j) =
      ∑ k ∈ Finset.range n, complexOf (w k) * complexOf (r (j * k) n) := by
  apply Complex.ext
  · simp only [complexOf, transformBin, realOf_exactSum, Complex.re_sum]
    exact Finset.sum_congr rfl fun k _ => by
      have := congrArg Complex.re (complexOf_times (w k) (r (j * k) n))
      simpa [complexOf] using this
  · simp only [complexOf, transformBin, realOf_exactSum, Complex.im_sum]
    exact Finset.sum_congr rfl fun k _ => by
      have := congrArg Complex.im (complexOf_times (w k) (r (j * k) n))
      simpa [complexOf] using this

/-- The computed forward transform is DFT_N (rules R19, R106). -/
theorem complexOf_exactDft {n j : Nat} (hj : j < n) (w : Nat → Cplx) :
    complexOf (exactDft n w j) = dft n (fun k => complexOf (w k)) j := by
  rw [exactDft, tabulate_of_lt hj, complexOf_transformBin, dft]
  exact Finset.sum_congr rfl fun k _ => by rw [complexOf_forwardRoot (by omega)]

/-- The computed inverse transform is IDFT_N (rules R19, R108). -/
theorem complexOf_exactIdft {n k : Nat} (hk : k < n) (w : Nat → Cplx) :
    complexOf (exactIdft n w k) = idft n (fun j => complexOf (w j)) k := by
  rw [exactIdft, tabulate_of_lt hk, complexOf_transformBin, idft]
  exact Finset.sum_congr rfl fun j _ => by rw [complexOf_inverseRoot (by omega), Nat.mul_comm k j]

/-- A sum only looks at its range: the transforms of sequences that agree below N agree. -/
theorem idft_congr {n : ℕ} {x y : ℕ → ℂ} (h : ∀ j, j < n → x j = y j) (k : ℕ) :
    idft n x k = idft n y k :=
  Finset.sum_congr rfl fun j hj => by rw [h j (Finset.mem_range.1 hj)]

theorem dft_congr {n : ℕ} {x y : ℕ → ℂ} (h : ∀ k, k < n → x k = y k) (j : ℕ) :
    dft n x j = dft n y j :=
  Finset.sum_congr rfl fun k hk => by rw [h k (Finset.mem_range.1 hk)]

/-- `W` after rules R105 to R108, as complex numbers. -/
theorem complexOf_exactConvWork {n k : Nat} (hk : k < n) (h x : List Elem) :
    complexOf (exactConvWork n h x k) =
      idft n (fun j => dft n (fun i => complexOf (loadReal x i)) j * complexOf (kernelBin h j)) k := by
  rw [exactConvWork, complexOf_exactIdft hk]
  refine idft_congr (fun j hj => ?_) k
  rw [tabulate_of_lt hj, complexOf_times, complexOf_exactDft hj]

/-- The result of rule R109 in the exact instance. -/
theorem elemReal_cconvElem {p : Params} (hp : p.arith = .exact) {k : Nat} (hk : k < p.N)
    (h x : List Elem) : elemReal (cconvElem p h x k) =
      (idft p.N (fun j => dft p.N (fun i => complexOf (loadReal x i)) j *
        complexOf (kernelBin h j)) k).re / p.N := by
  rw [← complexOf_exactConvWork hk]
  simp [cconvElem, elemOf_exact hp, exactConv, complexOf]
  ring

/-- Element i of a list of a memory's first elements. -/
theorem exactAt_elems (s : State) (m : Mem) (n i : Nat) :
    realOf (exactAt (s.elems m n) i) = if i < n then elemReal (s.elem m i) else 0 := by
  by_cases h : i < n
  · simp [exactAt, State.elems, List.getD_eq_getElem?_getD, h, elemReal]
  · simp [exactAt, State.elems, List.getD_eq_getElem?_getD, h, exactOf]

/-! ### The kernel unit -/

/-- L is odd for every β (rule R90). -/
theorem kernelLength_odd (p : Params) : p.L % 2 = 1 := by
  unfold Params.L kernelLength
  split_ifs <;> omega

/-- The centre tap as a real number (rule R92). -/
theorem cast_centre (p : Params) : ((p.L : ℝ) - 1) / 2 = (Params.centre p : ℝ) := by
  have hL := kernelLength_odd p
  have h : p.L = 2 * Params.centre p + 1 := by unfold Params.centre; omega
  conv_lhs => rw [h]
  push_cast
  ring

/-- The distance from the centre tap, up to sign. -/
theorem cast_centreDistance (p : Params) (i : Nat) :
    (centreDistance p i : ℝ) = (i : ℝ) - Params.centre p ∨
      (centreDistance p i : ℝ) = -((i : ℝ) - Params.centre p) := by
  unfold centreDistance
  split_ifs with h
  · right
    push_cast [Nat.cast_sub h]
    ring
  · left
    push_cast [Nat.cast_sub (by omega : Params.centre p ≤ i)]
    ring

/-- The sinc factor of rule R92. -/
theorem realOf_sincTap (p : Params) (hF : 1 ≤ p.F) (i : Nat) : realOf (sincTap p i) =
    sinc (2 * Real.pi * (0.5 / p.F) * ((i : ℝ) - ((p.L : ℝ) - 1) / 2)) := by
  have hFr : (p.F : ℝ) ≠ 0 := by positivity
  have hd := cast_centreDistance p i
  have hs : Real.sin (2 * Real.pi * ((centreDistance p i % (2 * p.F) : ℕ) : ℝ) /
      ((2 * p.F : ℕ) : ℝ)) = Real.sin (Real.pi * centreDistance p i / p.F) := by
    rw [sin_turn_mod (by omega)]
    congr 1
    push_cast
    field_simp
  rw [cast_centre, sincTap, sinc]
  by_cases h0 : centreDistance p i = 0
  · rw [if_pos h0]
    have hz : (i : ℝ) - Params.centre p = 0 := by
      rcases hd with h | h <;> simp [h0] at h <;> linarith
    simp [hz]
  · have hne : (i : ℝ) - Params.centre p ≠ 0 := by
      rcases hd with h | h <;> intro h' <;> rw [h'] at h <;> simp at h <;>
        exact h0 (by exact_mod_cast h)
    have harg : 2 * Real.pi * (0.5 / (p.F : ℝ)) * ((i : ℝ) - Params.centre p) =
        Real.pi * ((i : ℝ) - Params.centre p) / p.F := by
      field_simp
      ring
    rw [if_neg h0, if_neg (by rw [harg]; have := Real.pi_ne_zero; positivity), harg,
      realOf_exactMul, realOf_exactSin (by omega), hs, realOf_exactInv, realOf_exactMul]
    simp only [realOf_rat, realOf_pi]
    push_cast
    rcases hd with h | h
    · rw [h]
      field_simp
    · rw [h, show Real.pi * -((i : ℝ) - Params.centre p) / p.F =
        -(Real.pi * ((i : ℝ) - Params.centre p) / p.F) by ring, Real.sin_neg]
      field_simp

/-- A raw coefficient (rule R92). -/
theorem realOf_rawTap (p : Params) (hF : 1 ≤ p.F) (i : Nat) :
    realOf (rawTap p i) = rawCoefficient p.F p.L i := by
  have hL := kernelLength_odd p
  have hL0 : 0 < p.L := by omega
  rw [rawTap, realOf_exactMul, rawCoefficient, realOf_sincTap p hF, windowTap, realOf_exactAdd,
    realOf_exactMul, realOf_exactCos hL0, cos_turn_mod hL0]
  simp only [realOf_rat]
  push_cast
  ring

/-- The sum of the raw coefficients (rule R93). -/
theorem realOf_rawSum (p : Params) (hF : 1 ≤ p.F) :
    realOf (rawSum p) = rawCoefficientSum p.F p.L := by
  rw [rawSum, realOf_exactSum, rawCoefficientSum]
  exact Finset.sum_congr rfl fun i _ => realOf_rawTap p hF i

end Sys2Proof.Machine
end

