-- ==== Sys2Proof/Laws/KernelSum.lean ====
section
/-! SUPPORT. The raw coefficients of every legal instance have a positive sum: U3's condition of
`93_implementation_defined.md` refuses no parameter set (log 11). -/

namespace Sys2Proof.Machine

open Sys2Proof.Reference

/-- Σ sin(d·π/F) for d ≤ k, times 2·sin(π/2F). -/
theorem sineSum_mul (F k : ℕ) :
    2 * Real.sin (Real.pi / F / 2) * ∑ d ∈ Finset.range k, Real.sin ((d + 1 : ℕ) * (Real.pi / F)) =
      Real.cos (Real.pi / F / 2) - Real.cos ((2 * k + 1 : ℕ) * (Real.pi / F / 2)) := by
  induction k with
  | zero => simp
  | succ k ih =>
    rw [Finset.sum_range_succ, mul_add, ih]
    have h := Real.cos_sub_cos ((2 * k + 1 : ℕ) * (Real.pi / F / 2))
      ((2 * (k + 1) + 1 : ℕ) * (Real.pi / F / 2))
    have e1 : ((2 * k + 1 : ℕ) * (Real.pi / F / 2) + (2 * (k + 1) + 1 : ℕ) * (Real.pi / F / 2)) / 2 =
        (k + 1 : ℕ) * (Real.pi / F) := by
      push_cast
      ring
    have e2 : ((2 * k + 1 : ℕ) * (Real.pi / F / 2) - (2 * (k + 1) + 1 : ℕ) * (Real.pi / F / 2)) / 2 =
        -(Real.pi / F / 2) := by
      push_cast
      ring
    rw [e1, e2, Real.sin_neg] at h
    linear_combination -h

/-- No odd multiple of π/2F has a larger cosine than π/2F itself. -/
theorem cos_oddMultiple_le {F : ℕ} (hF : 1 ≤ F) (k : ℕ) :
    Real.cos ((2 * k + 1 : ℕ) * (Real.pi / F / 2)) ≤ Real.cos (Real.pi / F / 2) := by
  have hFr : (0 : ℝ) < F := by exact_mod_cast hF
  have hpi := Real.pi_pos
  have hx : 0 < Real.pi / F / 2 := by positivity
  -- drop whole turns: 2k + 1 = 4F·q + r, r odd, and 4F·(π/2F) is a turn
  obtain ⟨q, r, hr, hr4, e⟩ : ∃ q r : ℕ, r % 2 = 1 ∧ r < 4 * F ∧ 2 * k + 1 = r + 4 * F * q := by
    have h := Nat.mod_add_div (2 * k + 1) (4 * F)
    refine ⟨(2 * k + 1) / (4 * F), (2 * k + 1) % (4 * F), ?_, Nat.mod_lt _ (by omega), h.symm⟩
    rw [Nat.mod_mod_of_dvd _ (by omega)]
    omega
  have hturn : ((2 * k + 1 : ℕ) : ℝ) * (Real.pi / F / 2) =
      r * (Real.pi / F / 2) + q * (2 * Real.pi) := by
    rw [e]
    push_cast
    field_simp
    ring
  rw [hturn, Real.cos_add_nat_mul_two_pi]
  have hFx : (F : ℝ) * (Real.pi / F / 2) = Real.pi / 2 := by field_simp
  rcases Nat.lt_or_ge r (2 * F) with h | h
  · have h1 : (1 : ℝ) ≤ r := by exact_mod_cast (by omega : 1 ≤ r)
    have h2 : (r : ℝ) ≤ 2 * F := by exact_mod_cast h.le
    exact Real.cos_le_cos_of_nonneg_of_le_pi hx.le (by nlinarith) (by nlinarith)
  · have h1 : (r : ℝ) + 1 ≤ 4 * F := by exact_mod_cast hr4
    have h2 : (2 : ℝ) * F ≤ r := by exact_mod_cast h
    rw [← Real.cos_two_pi_sub]
    exact Real.cos_le_cos_of_nonneg_of_le_pi hx.le (by nlinarith) (by nlinarith)

/-- The partial sums of sin(d·π/F) are not negative. -/
theorem sineSum_nonneg {F : ℕ} (hF : 1 ≤ F) (k : ℕ) :
    0 ≤ ∑ d ∈ Finset.range k, Real.sin ((d + 1 : ℕ) * (Real.pi / F)) := by
  have hFr : (1 : ℝ) ≤ F := by exact_mod_cast hF
  have hpi := Real.pi_pos
  have hle : Real.pi / F ≤ Real.pi := div_le_self hpi.le hFr
  have hs : 0 < Real.sin (Real.pi / F / 2) :=
    Real.sin_pos_of_pos_of_lt_pi (by positivity) (by linarith)
  have h := sineSum_mul F k
  have hc := cos_oddMultiple_le hF k
  exact nonneg_of_mul_nonneg_right (h ▸ sub_nonneg.2 hc) (by positivity)

/-- A sum with decreasing weights, from its partial sums (Abel's summation). -/
theorem weightedSum_nonneg {f b : ℕ → ℝ} (hf : ∀ k, 0 ≤ ∑ d ∈ Finset.range k, f d) :
    ∀ n, (∀ d, d < n → 0 ≤ b d) → (∀ d, d + 1 < n → b (d + 1) ≤ b d) →
      0 ≤ ∑ d ∈ Finset.range n, b d * f d := by
  -- the stronger claim b(n−1)·S(n) ≤ Σ is what the induction carries
  have key : ∀ n, (∀ d, d + 1 < n + 1 → b (d + 1) ≤ b d) →
      b n * ∑ d ∈ Finset.range (n + 1), f d ≤ ∑ d ∈ Finset.range (n + 1), b d * f d := by
    intro n
    induction n with
    | zero => simp
    | succ n ih =>
      intro hb
      have h := ih fun d hd => hb d (by omega)
      rw [Finset.sum_range_succ, Finset.sum_range_succ (fun d => b d * f d)]
      nlinarith [hb n (by omega), hf (n + 1)]
  intro n h0 hb
  cases n with
  | zero => simp
  | succ n => exact (mul_nonneg (h0 n (by omega)) (hf (n + 1))).trans (key n hb)

/-- w[i], the Hamming window (rule R92). -/
noncomputable def hamming (L i : ℕ) : ℝ := 0.54 - 0.46 * Real.cos (2 * Real.pi * i / L)

theorem hamming_pos (L i : ℕ) : 0 < hamming L i := by
  unfold hamming
  linarith [Real.cos_le_one (2 * Real.pi * i / L)]

/-- Below the centre the window rises. -/
theorem hamming_mono_low {m i : ℕ} (h : i + 1 ≤ m) :
    hamming (2 * m + 1) i ≤ hamming (2 * m + 1) (i + 1) := by
  have hpi := Real.pi_pos
  have hL : (0 : ℝ) < (2 * m + 1 : ℕ) := by positivity
  have hi : (i : ℝ) + 1 ≤ m := by exact_mod_cast h
  have hc : Real.cos (2 * Real.pi * (i + 1 : ℕ) / (2 * m + 1 : ℕ)) ≤
      Real.cos (2 * Real.pi * i / (2 * m + 1 : ℕ)) := by
    apply Real.cos_le_cos_of_nonneg_of_le_pi (by positivity)
    · rw [div_le_iff₀ hL]
      push_cast
      nlinarith
    · gcongr
      linarith
  unfold hamming
  linarith

/-- Above the centre it falls. -/
theorem hamming_anti_high {m i : ℕ} (h1 : m + 1 ≤ i) (h2 : i ≤ 2 * m) :
    hamming (2 * m + 1) (i + 1) ≤ hamming (2 * m + 1) i := by
  have hpi := Real.pi_pos
  have hL : (0 : ℝ) < (2 * m + 1 : ℕ) := by positivity
  have hi1 : (m : ℝ) + 1 ≤ i := by exact_mod_cast h1
  have hi2 : (i : ℝ) ≤ 2 * m := by exact_mod_cast h2
  have hc : Real.cos (2 * Real.pi * i / (2 * m + 1 : ℕ)) ≤
      Real.cos (2 * Real.pi * (i + 1 : ℕ) / (2 * m + 1 : ℕ)) := by
    rw [← Real.cos_two_pi_sub, ← Real.cos_two_pi_sub (2 * Real.pi * (i + 1 : ℕ) / _)]
    apply Real.cos_le_cos_of_nonneg_of_le_pi
    · rw [sub_nonneg, div_le_iff₀ hL]
      push_cast
      nlinarith
    · rw [sub_le_comm, le_div_iff₀ hL]
      push_cast
      nlinarith
    · gcongr
      linarith
  unfold hamming
  linarith

/-- The sinc factor at distance d from the centre, on either side (rules R19, R92). -/
noncomputable def sincAt (F d : ℕ) : ℝ := sinc (d * (Real.pi / F))

/-- The raw coefficients at and around the centre m. -/
theorem rawCoefficient_around {F : ℕ} (hF : 1 ≤ F) (m d : ℕ) :
    rawCoefficient F (2 * m + 1) (m + d) = sincAt F d * hamming (2 * m + 1) (m + d) ∧
      (d ≤ m → rawCoefficient F (2 * m + 1) (m - d) = sincAt F d * hamming (2 * m + 1) (m - d)) := by
  have hFr : (F : ℝ) ≠ 0 := by positivity
  constructor
  · rw [rawCoefficient, sincAt, hamming]
    congr 2
    push_cast
    field_simp
    ring
  · intro h
    have e : 2 * Real.pi * (0.5 / F) * (((m - d : ℕ) : ℝ) - (((2 * m + 1 : ℕ) : ℝ) - 1) / 2) =
        -(d * (Real.pi / F)) := by
      push_cast [Nat.cast_sub h]
      field_simp
      ring
    rw [rawCoefficient, sincAt, hamming, e]
    congr 1
    unfold sinc
    simp [neg_eq_zero, Real.sin_neg, neg_div_neg_eq]

/-- The sum over the L taps, folded around the centre. -/
theorem rawCoefficientSum_folded (F m : ℕ) :
    rawCoefficientSum F (2 * m + 1) = rawCoefficient F (2 * m + 1) m +
      ∑ d ∈ Finset.range m, (rawCoefficient F (2 * m + 1) (m + (d + 1)) +
        rawCoefficient F (2 * m + 1) (m - (d + 1))) := by
  rw [rawCoefficientSum, show 2 * m + 1 = m + (m + 1) by ring, Finset.sum_range_add,
    Finset.sum_range_succ', ← Finset.sum_range_reflect, Finset.sum_add_distrib]
  have e : ∀ d ∈ Finset.range m, rawCoefficient F (m + (m + 1)) (m - 1 - d) =
      rawCoefficient F (m + (m + 1)) (m - (d + 1)) := fun d _ => by
    rw [show m - 1 - d = m - (d + 1) by omega]
  rw [Finset.sum_congr rfl e, Nat.add_zero]
  ring_nf

/-- The raw coefficients have a positive sum, for every factor and every odd length: no parameter
set meets U3's condition (rule R93). -/
theorem rawCoefficientSum_pos {F L : ℕ} (hF : 1 ≤ F) (hL : L % 2 = 1) : 0 < rawCoefficientSum F L := by
  obtain ⟨m, rfl⟩ : ∃ m, L = 2 * m + 1 := ⟨L / 2, by omega⟩
  have hFr : (0 : ℝ) < F := by exact_mod_cast hF
  have hpi := Real.pi_pos
  rw [rawCoefficientSum_folded]
  have h0 : rawCoefficient F (2 * m + 1) m = hamming (2 * m + 1) m := by
    have h := (rawCoefficient_around hF m 0).1
    simpa [sincAt, sinc] using h
  -- the weights of sin(d·π/F) fall with the distance d
  have hw : ∀ d ∈ Finset.range m, rawCoefficient F (2 * m + 1) (m + (d + 1)) +
      rawCoefficient F (2 * m + 1) (m - (d + 1)) =
      ((hamming (2 * m + 1) (m + (d + 1)) + hamming (2 * m + 1) (m - (d + 1))) /
        ((d + 1 : ℕ) * (Real.pi / F))) * Real.sin ((d + 1 : ℕ) * (Real.pi / F)) := by
    intro d hd
    have hd' := Finset.mem_range.1 hd
    have hne : ((d + 1 : ℕ) : ℝ) * (Real.pi / F) ≠ 0 := by positivity
    rw [(rawCoefficient_around hF m (d + 1)).1, (rawCoefficient_around hF m (d + 1)).2 (by omega),
      sincAt, sinc, if_neg hne]
    ring
  rw [h0, Finset.sum_congr rfl hw]
  refine add_pos_of_pos_of_nonneg (hamming_pos _ _)
    (weightedSum_nonneg (b := fun d => (hamming (2 * m + 1) (m + (d + 1)) +
      hamming (2 * m + 1) (m - (d + 1))) / ((d + 1 : ℕ) * (Real.pi / F)))
      (sineSum_nonneg hF) m (fun d _ => ?_) (fun d hd => ?_))
  · have h1 := hamming_pos (2 * m + 1) (m + (d + 1))
    have h2 := hamming_pos (2 * m + 1) (m - (d + 1))
    positivity
  · have h1 := hamming_pos (2 * m + 1) (m + (d + 1 + 1))
    have h2 := hamming_pos (2 * m + 1) (m - (d + 1 + 1))
    have h3 := hamming_anti_high (m := m) (i := m + (d + 1)) (by omega) (by omega)
    have h4 := hamming_mono_low (m := m) (i := m - (d + 1 + 1)) (by omega)
    rw [show m - (d + 1 + 1) + 1 = m - (d + 1) by omega] at h4
    have hle : ((d + 1 : ℕ) : ℝ) ≤ ((d + 1 + 1 : ℕ) : ℝ) := by exact_mod_cast Nat.le_succ _
    apply div_le_div₀
    · have := hamming_pos (2 * m + 1) (m + (d + 1))
      have := hamming_pos (2 * m + 1) (m - (d + 1))
      positivity
    · rw [show m + (d + 1 + 1) = m + (d + 1) + 1 by omega]
      linarith
    · positivity
    · gcongr

/-- In an exact instance the sum `KGEN` divides by is positive (rule R93). -/
theorem realOf_rawSum_pos (p : Params) (hF : 1 ≤ p.F) : 0 < realOf (rawSum p) := by
  rw [realOf_rawSum p hF]
  exact rawCoefficientSum_pos hF (kernelLength_odd p)

end Sys2Proof.Machine
end

