-- ==== Sys2Proof/Laws/PerInstr.lean ====
section
/-! SUPPORT. The statements made per command. `WordFields`: the fields of a command's word are
its opcode, its SUB code and its length operand (rules R71 to R77). -/

namespace Sys2Proof.Laws.WordFields

/-- The three fields of a word put together from them (rule R71). -/
theorem fields_of_append (a b : BitVec 4) (c : BitVec 24) :
    opField (a ++ b ++ c) = a ∧ subField (a ++ b ++ c) = b ∧ lenField (a ++ b ++ c) = c := by
  refine ⟨?_, ?_, ?_⟩ <;> ext i hi
  · simp only [opField, BitVec.getElem_extractLsb', BitVec.getLsbD_append]
    rw [if_neg (by omega), if_neg (by omega)]
    rw [show 28 + i - 24 - 4 = i by omega, BitVec.getLsbD_eq_getElem hi]
  · simp only [subField, BitVec.getElem_extractLsb', BitVec.getLsbD_append]
    rw [if_neg (by omega), if_pos (by omega)]
    simp [hi]
  · simp only [lenField, BitVec.getElem_extractLsb', BitVec.getLsbD_append]
    rw [if_pos (by omega)]
    simp [hi]

/-- The fields of the command's word. -/
def Statement (i : Instr) : Prop :=
  opField (encode i) = opcode i ∧ subField (encode i) = subCode i ∧
    lenField (encode i) = BitVec.ofNat 24 (lenOperand i)

theorem nop : Statement .nop := fields_of_append _ _ _
theorem kgen : Statement .kgen := fields_of_append _ _ _
theorem kfft : Statement .kfft := fields_of_append _ _ _
theorem kfreq : Statement .kfreq := fields_of_append _ _ _
theorem conv (r : Sel) (len : Nat) : Statement (.conv r len) := fields_of_append _ _ _
theorem ovlwrap (len : Nat) : Statement (.ovlwrap len) := fields_of_append _ _ _
theorem ovlunwrap : Statement .ovlunwrap := fields_of_append _ _ _
theorem ovlreset : Statement .ovlreset := fields_of_append _ _ _
theorem ovsbegin (len : Nat) : Statement (.ovsbegin len) := fields_of_append _ _ _
theorem ovsend : Statement .ovsend := fields_of_append _ _ _
theorem zstuff (len : Nat) : Statement (.zstuff len) := fields_of_append _ _ _
theorem decim (len : Nat) : Statement (.decim len) := fields_of_append _ _ _
theorem diagclr : Statement .diagclr := fields_of_append _ _ _

end Sys2Proof.Laws.WordFields
end

