-- ==== Sys2Proof/Laws/Step.lean ====
section
/-! SUPPORT. What one step can do, said once: one case a kind of move. -/

namespace Sys2Proof.Machine

/-- The state a move is made from: the move is off the queue (log 3). -/
def afterTake (s : State) (rest : List Move) : State := { s with moves := rest }

@[simp] theorem afterTake_cfg (s : State) (rest : List Move) :
    (afterTake s rest).cfg = s.cfg := rfl
@[simp] theorem afterTake_phase (s : State) (rest : List Move) :
    (afterTake s rest).phase = s.phase := rfl
@[simp] theorem afterTake_actlen (s : State) (rest : List Move) :
    (afterTake s rest).actlen = s.actlen := rfl
@[simp] theorem afterTake_faultCode (s : State) (rest : List Move) :
    (afterTake s rest).faultCode = s.faultCode := rfl
@[simp] theorem afterTake_faultCmd (s : State) (rest : List Move) :
    (afterTake s rest).faultCmd = s.faultCmd := rfl
@[simp] theorem afterTake_diagShort (s : State) (rest : List Move) :
    (afterTake s rest).diagShort = s.diagShort := rfl
@[simp] theorem afterTake_diagLong (s : State) (rest : List Move) :
    (afterTake s rest).diagLong = s.diagLong := rfl
@[simp] theorem afterTake_diagTrunc (s : State) (rest : List Move) :
    (afterTake s rest).diagTrunc = s.diagTrunc := rfl
@[simp] theorem afterTake_reply (s : State) (rest : List Move) :
    (afterTake s rest).reply = s.reply := rfl
@[simp] theorem afterTake_draws (s : State) (rest : List Move) :
    (afterTake s rest).draws = s.draws := rfl
@[simp] theorem afterTake_moves (s : State) (rest : List Move) :
    (afterTake s rest).moves = rest := rfl
@[simp] theorem elem_afterTake (s : State) (rest : List Move) (m : Mem) (i : Nat) :
    (afterTake s rest).elem m i = s.elem m i := elem_withMoves s rest m i

/-- The state with its answer to the host (log 3). -/
def replied (s : State) (r : Reply) : State := { s with reply := r }

@[simp] theorem replied_cfg (s : State) (r : Reply) : (replied s r).cfg = s.cfg := rfl
@[simp] theorem replied_phase (s : State) (r : Reply) : (replied s r).phase = s.phase := rfl
@[simp] theorem replied_actlen (s : State) (r : Reply) : (replied s r).actlen = s.actlen := rfl
@[simp] theorem replied_faultCode (s : State) (r : Reply) : (replied s r).faultCode = s.faultCode := rfl
@[simp] theorem replied_faultCmd (s : State) (r : Reply) : (replied s r).faultCmd = s.faultCmd := rfl
@[simp] theorem replied_diagShort (s : State) (r : Reply) : (replied s r).diagShort = s.diagShort := rfl
@[simp] theorem replied_diagLong (s : State) (r : Reply) : (replied s r).diagLong = s.diagLong := rfl
@[simp] theorem replied_diagTrunc (s : State) (r : Reply) : (replied s r).diagTrunc = s.diagTrunc := rfl
@[simp] theorem replied_moves (s : State) (r : Reply) : (replied s r).moves = s.moves := rfl
@[simp] theorem replied_draws (s : State) (r : Reply) : (replied s r).draws = s.draws := rfl
@[simp] theorem elem_replied (s : State) (r : Reply) (m : Mem) (i : Nat) :
    (replied s r).elem m i = s.elem m i := elem_withReply s r m i

/-- A step is one of the host's five moves, or a wait. -/
theorem step_cases {s t : State} (h : step s = .next t) :
    (s.moves = [] ∧ t = s) ∨
    (∃ rest, s.moves = .reset :: rest ∧ t = resetMove (afterTake s rest)) ∨
    (∃ rest off c, s.moves = .csrRead off :: rest ∧ csrAt off = some c ∧
      t = replied (afterTake s rest) (.csr (readCsr (afterTake s rest) c))) ∨
    (∃ rest w, s.moves = .csrWrite 0x04 w :: rest ∧
      issue w (replied (afterTake s rest) .done) = .next t) ∨
    (∃ rest r i m, s.moves = .smpRead r i :: rest ∧ bankOf r = some m ∧
      (mayRead s.phase m = true ∧ i.toNat < accessBound s m) ∧
      t = replied (afterTake s rest) (.sample (s.elem m i.toNat))) ∨
    ∃ rest r i m v, s.moves = .smpWrite r i v :: rest ∧ bankOf r = some m ∧
      (mayWrite s.phase m = true ∧ i.toNat < accessBound s m) ∧ v.kind = s.cfg.kind ∧
      t = replied ((afterTake s rest).fill m i.toNat 1 (fun _ => v)) .done := by
  have hb : ∀ rest m, accessBound (afterTake s rest) m = accessBound s m := fun _ m => by
    cases m <;> rfl
  unfold step at h
  split at h
  · exact .inl ⟨‹_›, (Host.Outcome.next.inj h).symm⟩
  rename_i mv rest hm
  refine .inr ?_
  cases mv with
  | reset => exact .inl ⟨rest, hm, (Host.Outcome.next.inj h).symm⟩
  | csrRead off =>
    simp only [hostMove, registerRead] at h
    split at h
    · cases h
    · exact .inr (.inl ⟨rest, off, _, hm, ‹_›, (Host.Outcome.next.inj h).symm⟩)
  | csrWrite off w =>
    simp only [hostMove, registerWrite] at h
    split at h
    · rename_i ho
      subst ho
      exact .inr (.inr (.inl ⟨rest, w, hm, h⟩))
    · cases h
  | smpRead r i =>
    simp only [hostMove, sampleRead] at h
    split at h
    · cases h
    split at h
    · rename_i m hbank hr
      exact .inr (.inr (.inr (.inl ⟨rest, r, i, m, hm, hbank, by
        have := hb rest m; unfold afterTake at this; rwa [this] at hr, by
        rw [← Host.Outcome.next.inj h, ← elem_withMoves s rest]; rfl⟩)))
    · cases h
  | smpWrite r i v =>
    simp only [hostMove, sampleWrite] at h
    split at h
    · cases h
    split at h
    · split at h
      · rename_i m hbank hr hk
        exact .inr (.inr (.inr (.inr ⟨rest, r, i, m, v, hm, hbank, by
          have := hb rest m; unfold afterTake at this; rwa [this] at hr, hk,
          (Host.Outcome.next.inj h).symm⟩)))
      · cases h
    · cases h

/-- Rule R70: a command word is ignored in FAULT, faults when it is illegal, or is executed. -/
theorem issue_cases {w : Word} {s t : State} (h : issue w s = .next t) :
    (s.phase = .fault ∧ t = s) ∨
    (s.phase ≠ .fault ∧ decode w = none ∧ t = raiseFault .illegalCmd w s) ∨
    (s.phase ≠ .fault ∧ ∃ i, decode w = some i ∧ exec i s = .next t) := by
  unfold issue at h
  split at h
  · exact .inl ⟨‹_›, (Host.Outcome.next.inj h).symm⟩
  · split at h
    · exact .inr (.inl ⟨‹_›, ‹_›, (Host.Outcome.next.inj h).symm⟩)
    · exact .inr (.inr ⟨‹_›, _, ‹_›, h⟩)

end Sys2Proof.Machine
end

