-- ==== Sys2Proof/Tests/Slice0.lean ====
section
/-! SUPPORT. The model's own tests: ill-formed terms, words written out bit by bit, one-step tests
with results taken from `95_test_vectors.md` or worked out by hand from the rules, and a state that
meets the hypotheses of each statement. -/

namespace Sys2Proof.Tests

set_option Elab.async false

open Sys2Proof Sys2Proof.Machine Sys2Proof.Reference Sys2Proof.Claims

/-! ## Ill-formed commands -/

theorem test_wellFormed_conv : wellFormed (.conv .io (2 ^ 24)) = false := by decide
theorem test_wellFormed_convX : wellFormed (.conv .x (2 ^ 24)) = false := by decide
theorem test_wellFormed_ovlwrap : wellFormed (.ovlwrap (2 ^ 24)) = false := by decide
theorem test_wellFormed_ovsbegin : wellFormed (.ovsbegin (2 ^ 24)) = false := by decide
theorem test_wellFormed_zstuff : wellFormed (.zstuff (2 ^ 24)) = false := by decide
theorem test_wellFormed_decim : wellFormed (.decim (2 ^ 24)) = false := by decide
theorem test_wellFormed_largest : wellFormed (.decim (2 ^ 24 - 1)) = true := by decide

/-! ## Decoding: OP, SUB, LEN written out from rules R71, R74, R77 -/

theorem test_decode_nop :
    decode 0b0000_0000_000000000000000000000000 = some .nop := by decide
theorem test_decode_kgen :
    decode 0b0001_0000_000000000000000000000000 = some .kgen := by decide
theorem test_decode_kfft :
    decode 0b0010_0000_000000000000000000000000 = some .kfft := by decide
theorem test_decode_kfreq :
    decode 0b0011_0000_000000000000000000000000 = some .kfreq := by decide
theorem test_decode_convIo :
    decode 0b0100_0000_000000000000000000001010 = some (.conv .io 10) := by decide
theorem test_decode_convX :
    decode 0b0100_0001_000000000000000000000110 = some (.conv .x 6) := by decide
theorem test_decode_ovlwrap :
    decode 0b0101_0000_000000000000000000000100 = some (.ovlwrap 4) := by decide
theorem test_decode_ovlunwrap :
    decode 0b0110_0000_000000000000000000000000 = some .ovlunwrap := by decide
theorem test_decode_ovlreset :
    decode 0b0111_0000_000000000000000000000000 = some .ovlreset := by decide
theorem test_decode_ovsbegin :
    decode 0b1000_0000_000000000000000000000010 = some (.ovsbegin 2) := by decide
theorem test_decode_ovsend :
    decode 0b1001_0000_000000000000000000000000 = some .ovsend := by decide
theorem test_decode_zstuff :
    decode 0b1010_0000_100000000000000000000001 = some (.zstuff 8388609) := by decide
theorem test_decode_decim :
    decode 0b1011_0000_111111111111111111111111 = some (.decim 16777215) := by decide
theorem test_decode_diagclr :
    decode 0b1100_0000_000000000000000000000000 = some .diagclr := by decide

/-- The illegal words of vector V41. -/
theorem test_decode_illegal :
    [0xD0000000, 0xE1234567, 0xFFFFFFFF, 0x00000001, 0x01000000, 0x10000001, 0x20000100, 0x3F000000,
      0x60000001, 0x70FFFFFF, 0x90000004, 0xC0000001, 0x42000005, 0x4F000000, 0x51000004, 0x81000002,
      0xA8000001, 0xB1000001].map decode = List.replicate 18 none := by decide

theorem test_decodeTableWord : decodeTableWord 32 0x4000000A = some (.conv .io 10) := by decide

/-- Little-endian behind a byte-addressed wrapper (rule R59). -/
theorem test_wrapperBytes : wrapperBytes 4 0x4000000A = [0x0A, 0, 0, 0x40] := by decide

/-- The flat address of `K[5]`: code 2, index 5 (rule R57). -/
theorem test_flatAddress : flatAddress 2 5 = 0x2000005 := by decide

/-! ## Small states -/

/-- An exact instance with the defaults of rules R12 to R15. -/
def tiny (F M : Nat) (beta : Rat) (tail : TailAdd) : Params :=
  { Params.ofFactor F M (Config.exactBeta beta) .exact with tailAdd := tail }

/-- Exact elements. -/
def reals (l : List Rat) : List Elem := l.map fun q => .real (.rat q)

/-- A memory that holds the given exact values from element 0 on. -/
def holds (l : List Rat) : Region :=
  Memory.fill (.real (.rat 0)) [] 0 l.length (fun i => (reals l).getD i (.real (.rat 0)))

/-- An exact state in a phase. -/
def inPhase (p : Params) (ph : Phase) : State := { State.resetOf p with phase := ph }

/-- The first n elements of a memory after a step's outcome. -/
def after (o : Host.Outcome State Fault Refusal) (m : Mem) (n : Nat) : List Elem :=
  match o with
  | .next t => t.elems m n
  | .fault _ => []
  | .refused _ => []

/-- A register after a step's outcome, read as the host reads it. -/
def register (o : Host.Outcome State Fault Refusal) (c : Csr) : Option Word :=
  match o with
  | .next t => some (readCsr t c)
  | .fault _ => none
  | .refused _ => none

/-- I-B of `95_test_vectors.md`: F = 1, M = 4, β = 2, so P = 2, OB = 4, N = 6. -/
def instB (tail : TailAdd) : Params := tiny 1 4 2 tail

/-- I-G: F = 1, M = 4, β = 4, so P = 0 and N = 4. -/
def instG : Params := tiny 1 4 4 .pre

/-- F = 1, M = 2, β = 2, so P = 2, OB = 2, N = 4: the roots of unity are rational. -/
def inst4 (tail : TailAdd) : Params := tiny 1 2 2 tail

/-- F = 2, M = 1, β = 2: P = 2, OB = 2, N = 4. -/
def inst42 (tail : TailAdd) : Params := tiny 2 1 2 tail

/-- The transform of `[1/2, 1/4, 1/4, 0]`, by hand: 1, (1 − i)/4, 1/2, (1 + i)/4. -/
def spectrum4 : Region := holds [1, 0, 1/4, -1/4, 1/2, 0, 1/4, 1/4]

/-! ## One step of each command -/

/-- Vector V45: `DIAG_SHORT` = 3, `DIAG_TRUNC` = 1 in READY. -/
def counting : State := { inPhase instG .ready with diagShort := 3, diagTrunc := 1 }

theorem test_nop_status : register (exec .nop counting) .status = some 0x11 := by decide +kernel
theorem test_diagclr_status :
    register (exec .diagclr counting) .status = some 0x01 := by decide +kernel

/-- Vector V2, β = 2: `K[0..3) = [0, 1, 0]`, zero above. -/
theorem test_kgen_delay : after (exec .kgen (inPhase (instB .pre) .unbuilt)) .k 6 =
    reals [0, 1, 0, 0, 0, 0] := by decide +kernel

/-- Vector V8: `KGEN` in READY. -/
theorem test_kgen_ready :
    register (exec .kgen (inPhase instG .ready)) .faultcmd = some 0x10000000 := by decide +kernel

/-- Vector V10: `K = [1/2, 1/2, 0, 0]`. -/
def halves : State := { inPhase instG .unbuilt with k := holds [1/2, 1/2] }

theorem test_kfft_spectrum :
    after (exec .kfft halves) .h 8 = reals [1, 0, 1/2, -1/2, 0, 0, 1/2, 1/2] := by decide +kernel
theorem test_kfft_ready : register (exec .kfft halves) .status = some 1 := by decide +kernel

/-- Vector V11: `H` as written by the host; `KFREQ`; `K` still zero. -/
def hostSpectrum : State := { inPhase instG .unbuilt with h := holds [0, 0, 4] }

theorem test_kfreq_ready : register (exec .kfreq hostSpectrum) .status = some 1 := by decide +kernel
theorem test_kfreq_keepsH :
    after (exec .kfreq hostSpectrum) .h 4 = reals [0, 0, 4, 0] := by decide +kernel

/-- Vector V11: then `CONV IO, 4` on `[1, 2, 3, 4]`. -/
theorem test_conv_cyclic :
    after (exec (.conv .io 4) { hostSpectrum with phase := .ready, io := holds [1, 2, 3, 4] }) .io 4 =
      reals [-2, -2, 2, 2] := by decide +kernel

/-- By hand, N = 4, g = [1/2, 1/4, 1/4, 0]: `CONV IO, 2` on `[5, 6, 9]` drops the tail, keeps
element 2 and counts short. -/
theorem test_conv_short :
    let t := exec (.conv .io 2) { inPhase (inst4 .pre) .ready with h := spectrum4, io := holds [5, 6, 9] }
    after t .io 3 = reals [5/2, 17/4, 9] ∧ register t .diagShort = some 1 := by decide +kernel

/-- Vector V20, second block, PRE: `[5, 6, 7, 8]` with `PAD = [7/4, 1]`. -/
theorem test_ovlwrap_pre :
    after (exec (.ovlwrap 4)
      { inPhase (instB .pre) .ready with io := holds [5, 6, 7, 8], pad := holds [7/4, 1] }) .x 6 =
      reals [27/4, 7, 7, 8, 0, 0] := by decide +kernel

/-- Vector V23: a block of 6 is truncated to OB = 4. -/
theorem test_ovlwrap_truncates :
    let t := exec (.ovlwrap 6) { inPhase (instB .pre) .ready with io := holds [1, 2, 3, 4, 5, 6] }
    register t .actlen = some 4 ∧ register t .diagTrunc = some 1 ∧
      after t .x 6 = reals [1, 2, 3, 4, 0, 0] := by decide +kernel

/-- Vector V20, second block: the view after `CONV X, 6`. -/
def filtered (tail : TailAdd) (view : List Rat) : State :=
  { inPhase (instB tail) .inner with actlen := 4, x := holds view, pad := holds [7/4, 1] }

theorem test_ovlunwrap_pre :
    let t := exec .ovlunwrap (filtered .pre [27/8, 83/16, 111/16, 15/2, 15/4, 2])
    after t .io 4 = reals [27/8, 83/16, 111/16, 15/2] ∧ after t .pad 2 = reals [15/4, 2] := by
  decide +kernel

/-- Program P2 under POST: the padding is added at the split. -/
theorem test_ovlunwrap_post :
    let t := exec .ovlunwrap (filtered .post [5/2, 17/4, 25/4, 29/4, 15/4, 2])
    after t .io 4 = reals [17/4, 21/4, 25/4, 29/4] ∧ after t .pad 2 = reals [15/4, 2] := by
  decide +kernel

/-- Vector V25. -/
theorem test_ovlreset_padding :
    after (exec .ovlreset { inPhase (instB .pre) .ready with pad := holds [15/4, 2] }) .pad 2 =
      reals [0, 0] := by decide +kernel

/-- Vector V30, F = 4: each sample scaled, three zeros after it. -/
theorem test_zstuff_four :
    after (exec (.zstuff 4) { inPhase (tiny 4 4 1 .pre) .ready with io := holds [-1, 1, 1, 0] })
      .os 16 = reals [-4, 0, 0, 0, 4, 0, 0, 0, 4, 0, 0, 0, 0, 0, 0, 0] := by decide +kernel

/-- Vector V31: `DECIM 2` leaves `IO[2..)`. -/
theorem test_decim_two :
    after (exec (.decim 2) { inPhase (tiny 4 4 1 .pre) .ready with
      io := holds [9, 9, 7, 7], os := holds [-4, 0, 0, 0, 4, 0, 0, 0, 4, 0, 0, 0] }) .io 4 =
      reals [-4, 4, 7, 7] := by decide +kernel

/-- Vector V40's fault on a block of M + 1. -/
theorem test_ovsbegin_asserts :
    let t := exec (.ovsbegin 17) (inPhase (tiny 4 16 1 .pre) .ready)
    register t .faultcode = some 1 ∧ register t .faultcmd = some 0x80000011 := by decide +kernel

/-- By hand, F = 2, N = 4, g = [1/2, 1/4, 1/4, 0], PRE, `IO = [5]`, `PAD = [7/4, 1]`: the view is
`[47/4, 1, 0, 0]` before the filter. -/
theorem test_ovsbegin_view :
    after (exec (.ovsbegin 1) { inPhase (inst42 .pre) .ready with
      h := spectrum4, io := holds [5], pad := holds [7/4, 1] }) .x 4 =
      reals [47/8, 55/16, 51/16, 1/4] := by decide +kernel

/-- The window of the last test, closed: by hand the view becomes `[243/64, 13/4, 251/64, 57/32]`;
`IO[0]` is its first element, `PAD` its last two. -/
theorem test_ovsend_closes :
    let t := exec .ovsend { inPhase (inst42 .pre) .callback with
      h := spectrum4, actlen := 2, x := holds [47/8, 55/16, 51/16, 1/4], pad := holds [7/4, 1] }
    after t .io 2 = reals [243/64, 0] ∧ after t .pad 2 = reals [251/64, 57/32] ∧
      after t .os 2 = reals [243/64, 13/4] := by decide +kernel

/-! ## Registers, reset, single IEEE operations -/

/-- Vector V37: the registers of instance I-E after reset. -/
theorem test_registers_reset :
    [Csr.id, .status, .viewlen, .cfgFactor, .cfgMaxblk, .cfgKlen, .cfgPad, .cfgN, .cfgOb, .cfgIocap,
      .cfgFlags, .latency].map (readCsr State.reset) =
      [0x46434531, 0, 4, 4, 16, 5, 4, 68, 64, 136, 0, 1] := by decide +kernel

/-- Vector V1: β → L. -/
theorem test_kernelLength :
    [8, 4, 3, 2, 3/2, 4/3, 13/10, 1, 4/5, 1/2, 3/10, 1/10, 1/20, 0, -1].map kernelLength =
      [1, 1, 3, 3, 3, 3, 5, 5, 5, 9, 15, 41, 81, 40000000001, 40000000001] := by decide +kernel

theorem test_illegal_parameters : (State.build (tiny 0 4 2 .pre)).isNone = true := by decide +kernel

/-- Hand calculation: 1 + 2^-24 is a tie and goes to the even 1; 1 + 2^-23 + 2^-24 is a tie and
goes up. -/
theorem test_add_ties :
    fpAdd .binary32 0 0x3F800000 0x33800000 = 0x3F800000 ∧
      fpAdd .binary32 0 0x3F800001 0x33800000 = 0x3F800002 := by decide +kernel

/-- Vector V48: −0 + (+0) is +0. 1 + (−1) is +0; (−0) + (−0) is −0. -/
theorem test_add_zeros :
    fpAdd .binary32 0 0x80000000 0 = 0 ∧ fpAdd .binary64 0 0x3FF0000000000000 0xBFF0000000000000 = 0 ∧
      fpAdd .binary32 0 0x80000000 0x80000000 = 0x80000000 := by decide +kernel

/-- The largest finite number times 2 overflows to infinity; the smallest subnormal times 3 is
exact; 3 · 0.1 in binary32. -/
theorem test_scale :
    fpScale .binary32 0 2 0x7F7FFFFF = 0x7F800000 ∧ fpScale .binary32 0 3 1 = 3 ∧
      fpScale .binary32 0 3 0x3DCCCCCD = 0x3E99999A := by decide +kernel

/-! ## States that meet the hypotheses of the statements -/

def unbuilt4 : State := inPhase (inst4 .pre) .unbuilt
def ready4 : State := inPhase (inst4 .pre) .ready
def inner4 : State := { inPhase (inst4 .pre) .inner with actlen := 2 }
def callback4 : State := { inPhase (inst42 .pre) .callback with actlen := 2 }
def fault4 : State := { inPhase (inst4 .pre) .fault with faultCode := .illegalCmd, faultCmd := 1 }

theorem witness_DecodeOfEncode :
    WellFormed .nop ∧ WellFormed (.conv .x 0) ∧ WellFormed (.decim (2 ^ 24 - 1)) :=
  ⟨trivial, (by decide : 0 < 2 ^ 24), (by decide : 2 ^ 24 - 1 < 2 ^ 24)⟩

theorem witness_EncodeOfDecode : decode 0x41FFFFFF = some (.conv .x 16777215) := by decide

theorem illegal_word : ¬LegalWord 0xD0000000 := by
  rintro (h | ⟨b, hb, len, hl, h⟩)
  · revert h
    decide
  · have h1 : len.testBit 31 = false := Nat.testBit_lt_two_pow (by omega)
    have h2 : len.testBit 30 = false := Nat.testBit_lt_two_pow (by omega)
    have e1 := congrArg (fun w : Word => w.getLsbD 31) h
    have e2 := congrArg (fun w : Word => w.getLsbD 30) h
    simp only [BitVec.getLsbD_or, BitVec.getLsbD_ofNat, h1, h2] at e1 e2
    simp only [lengthWords, List.mem_cons, List.not_mem_nil, or_false] at hb
    rcases hb with rfl | rfl | rfl | rfl | rfl | rfl <;> revert e1 e2 <;> decide

theorem witness_LegalWordsAreExactlyListed : ¬LegalWord 0xD0000000 ∧ ready4.phase ≠ .fault :=
  ⟨illegal_word, by decide⟩

theorem witness_StepRunsTheIssuedCommand :
    decode 0x50FFFFFF = some (.ovlwrap 16777215) ∧ WellFormed (.ovlwrap 16777215) :=
  ⟨by decide, (by decide : 16777215 < 2 ^ 24)⟩

theorem witness_FaultPhaseIgnoresCommands : fault4.phase = .fault := rfl

theorem witness_EngineWaitsForTheFirstMove : State.reset.moves = [] := rfl

/-- Each premise of the phase machine: an operand that fits at its bound, one that does not, a
command out of phase, an illegal word, and a step that is no command. -/
theorem witness_PhaseMachineIsComplete :
    OperandsFit ready4 (.decim 2) ∧ ¬OperandsFit ready4 (.decim 3) ∧
      (ready4.phase ≠ .fault ∧ phaseTable .kgen ready4.phase = .fault) ∧
      decode 0xD0000000 = none ∧ noReset (offering ready4 (.csrRead 0)) ∧
      (∀ w, (offering ready4 (.csrRead 0)).moves.head? ≠ some (.csrWrite 0x04 w)) ∧
      ∃ t, step (offering ready4 (.csrRead 0)) = .next t := by
  refine ⟨(by decide +kernel : 2 ≤ ready4.cfg.M), (by decide +kernel : ¬3 ≤ ready4.cfg.M), by decide,
    by decide, by unfold noReset; decide, fun w => ?_, _, rfl⟩
  simp [offering]

theorem witness_FaultEntryIsPrecise :
    Raises ready4 0xD0000000 .illegalCmd ∧ Raises ready4 0x10000000 .badPhase ∧
      Raises ready4 0x80000003 .assertBlock ∧ Raises ready4 0x40000009 .badOperand ∧
      ready4.phase ≠ .fault ∧
      ∃ t, step (offering ready4 (.csrWrite 0x04 0xD0000000)) = .next t ∧ t.phase = .fault := by
  refine ⟨⟨by decide, .inl ⟨by decide, rfl⟩⟩,
    ⟨by decide, .inr ⟨.kgen, by decide, .inl ⟨by decide, rfl⟩⟩⟩,
    ⟨by decide, .inr ⟨.ovsbegin 3, by decide,
      .inr ⟨by decide, (by decide +kernel : ¬3 ≤ ready4.cfg.M), rfl⟩⟩⟩,
    ⟨by decide, .inr ⟨.conv .io 9, by decide,
      .inr ⟨by decide, (by decide +kernel : ¬9 ≤ ready4.cfg.iocap), rfl⟩⟩⟩,
    by decide, _, rfl, rfl⟩

/-- One state for each rank of the priority, at the boundary of the operand check. -/
theorem witness_FaultPriority :
    fault4.phase = .fault ∧ (ready4.phase ≠ .fault ∧ decode 0xD0000000 = none) ∧
      (decode 0x80000063 = some (.ovsbegin 99) ∧
        phaseTable (.ovsbegin 99) unbuilt4.phase = .fault) ∧
      (decode 0x80000003 = some (.ovsbegin 3) ∧ phaseTable (.ovsbegin 3) ready4.phase ≠ .fault ∧
        ¬OperandsFit ready4 (.ovsbegin 3)) ∧
      (decode 0x80000002 = some (.ovsbegin 2) ∧ Executes ready4 (.ovsbegin 2)) := by
  refine ⟨rfl, by decide, by decide, ⟨by decide, by decide,
    (by decide +kernel : ¬3 ≤ ready4.cfg.M)⟩, by decide, by decide, by decide,
    (by decide +kernel : 2 ≤ ready4.cfg.M)⟩

theorem witness_OversizedBlockAsserts : ready4.phase = .ready ∧ ready4.cfg.M < 3 := by decide +kernel

theorem witness_OversizedLengthIsBadOperand :
    (ready4.phase = .ready ∧ ready4.cfg.iocap < 9) ∧
      (inner4.phase = .inner ∧ inner4.actlen.toNat + inner4.cfg.P < 5) ∧
      (callback4.phase = .callback ∧ callback4.actlen.toNat < 3) := by decide +kernel

theorem witness_DiagclrClearsTheCounters : counting.phase ≠ .fault := by decide

theorem witness_KgenWritesTheKernel :
    unbuilt4.phase = .unbuilt ∧ ready4.phase ∉ [Phase.unbuilt] ∧ ready4.phase ≠ .fault := by decide

theorem witness_KgenIsTheNormalisedWindowedSinc :
    unbuilt4.phase = .unbuilt ∧ unbuilt4.cfg.legal = true ∧ unbuilt4.cfg.arith = .exact := by
  decide +kernel

/-- F = 1, β = 2: the raw sum is 0.77 (vector V2). -/
theorem test_rawSum : rawSum unbuilt4.cfg = .rat (77 / 100) := by decide +kernel

theorem witness_KgenAtFactorOneIsADelay :
    unbuilt4.phase = .unbuilt ∧ unbuilt4.cfg.legal = true ∧ unbuilt4.cfg.arith = .exact ∧
      unbuilt4.cfg.F = 1 := by decide +kernel

/-- An instance whose β is between 1.4 and 1.5, as √2 is. -/
def irrational : Params := { tiny 1 1 2 .pre with beta := ⟨7 / 5, 3 / 2, 0⟩ }

theorem sqrt_two_bounds : (7 / 5 : ℝ) ≤ √2 ∧ √2 ≤ 3 / 2 := by
  constructor
  · exact Real.le_sqrt_of_sq_le (by norm_num)
  · exact Real.sqrt_le_iff.2 (by norm_num)

theorem irrational_holds : BetaHolds irrational.beta √2 := by
  have h := sqrt_two_bounds
  constructor <;> simp only [irrational] <;> push_cast <;> linarith

/-- An irrational β, a larger one, and both boundary values of β. -/
theorem witness_KernelLengthIsTheSmallestOdd :
    (betaSettled irrational.beta = true ∧ BetaHolds irrational.beta √2) ∧
      (betaSettled (tiny 1 1 4 .pre).beta = true ∧ BetaHolds (tiny 1 1 4 .pre).beta 4) ∧
      √2 ≤ 4 ∧ BetaHolds (tiny 1 1 (1 / 10 ^ 10) .pre).beta (1 / 10 ^ 10) ∧
      betaSettled (tiny 1 1 (1 / 10 ^ 10) .pre).beta = true := by
  refine ⟨⟨by decide +kernel, irrational_holds⟩, ⟨by decide +kernel, ?_⟩, ?_, ?_, by decide +kernel⟩
  · constructor <;> simp [tiny, Params.ofFactor, Config.exactBeta]
  · linarith [sqrt_two_bounds.2]
  · constructor <;> simp [tiny, Params.ofFactor, Config.exactBeta]

/-- β = √2: ceil(4/√2) = 3. -/
theorem witness_EveryRealBetaHasAnInstance :
    1 ≤ 1 ∧ 1 ≤ 1 ∧ 1 * 1 + kernelLengthOf √2 - 1 ≤ 2 ^ 23 := by
  have h := sqrt_two_bounds
  have e : initialLength √2 = 3 := by
    rw [initialLength, max_eq_left (by linarith), Nat.ceil_eq_iff (by norm_num)]
    constructor
    · rw [lt_div_iff₀ (by linarith)]
      norm_num
      linarith
    · rw [div_le_iff₀ (by linarith)]
      norm_num
      linarith
  simp [kernelLengthOf, e]

theorem witness_KfftTransformsTheKernel :
    unbuilt4.phase = .unbuilt ∧ inner4.phase ∉ [Phase.unbuilt] ∧ inner4.phase ≠ .fault := by decide

theorem witness_KfftIsTheForwardTransform :
    unbuilt4.phase = .unbuilt ∧ unbuilt4.cfg.arith = .exact := by decide

theorem witness_KfreqWritesOnlyThePhase :
    unbuilt4.phase = .unbuilt ∧ callback4.phase ∉ [Phase.unbuilt] ∧ callback4.phase ≠ .fault := by
  decide

/-- Each way a convolution is accepted, at its largest length. -/
theorem witness_ConvReplacesTheBlock :
    ConvAccepted ready4 .io 8 ∧ ConvAccepted inner4 .x 4 ∧ ConvAccepted callback4 .x 2 := by
  exact ⟨⟨rfl, by decide +kernel⟩, .inl (by decide +kernel), .inr (by decide +kernel)⟩

theorem witness_ConvIsTheCyclicConvolution :
    ConvAccepted ready4 .io 8 ∧ ready4.cfg.legal = true ∧ ready4.cfg.arith = .exact := by
  exact ⟨⟨rfl, by decide +kernel⟩, by decide +kernel, rfl⟩

theorem witness_BuiltKernelInTimeIsTheKernel :
    unbuilt4.phase = .unbuilt ∧ unbuilt4.cfg.legal = true ∧ unbuilt4.cfg.arith = .exact := by
  decide +kernel

theorem witness_FullConvolutionMultipliesSums :
    ConvAccepted inner4 .x inner4.cfg.N ∧ inner4.cfg.legal = true ∧ inner4.cfg.arith = .exact := by
  refine ⟨.inl (by decide +kernel), by decide +kernel, rfl⟩

theorem witness_OvlwrapOpensTheView :
    (ready4.phase = .ready ∧ ready4.cfg.legal = true ∧ 8 ≤ ready4.cfg.iocap) ∧
      (inner4.phase ∉ [Phase.ready] ∧ inner4.phase ≠ .fault) ∧ ready4.cfg.iocap < 9 := by
  decide +kernel

theorem witness_OvlunwrapSplitsTheView :
    inner4.phase = .inner ∧ ready4.phase ∉ [Phase.inner] ∧ ready4.phase ≠ .fault := by decide

theorem witness_OvlresetZeroesPaddingAndView :
    ready4.phase = .ready ∧ inner4.phase ∉ [Phase.ready] ∧ inner4.phase ≠ .fault := by decide

theorem witness_FilterUnderPre :
    ready4.phase = .ready ∧ ready4.cfg.legal = true ∧ ready4.cfg.arith = .exact ∧
      ready4.cfg.tailAdd = .pre ∧ 8 ≤ ready4.cfg.iocap := by decide +kernel

/-- A POST engine in mid-stream: the one sample 4 has gone through g = [1/2, 1/4, 1/4]; its tail
is `[1, 1]`. -/
def streaming : State :=
  { inPhase (inst4 .post) .ready with h := spectrum4, io := holds [5, 6], pad := holds [1, 1] }

theorem witness_FilterUnderPost :
    streaming.phase = .ready ∧ streaming.cfg.legal = true ∧ streaming.cfg.arith = .exact ∧
      streaming.cfg.tailAdd = .post ∧ 8 ≤ streaming.cfg.iocap := by decide +kernel

/-- The bins of `spectrum4`, as exact complex numbers. -/
def bins (j : Nat) : Cplx :=
  ⟨exactOf (streaming.elem .h (2 * j)), exactOf (streaming.elem .h (2 * j + 1))⟩

theorem streaming_kernel {k : Nat} (hk : k < 4) :
    kernelInTime streaming k = realOf (exactIdft 4 bins k).re / 4 := by
  have h := complexOf_exactIdft hk bins
  have hN : streaming.cfg.N = 4 := by decide +kernel
  rw [kernelInTime, hN]
  have e : idft 4 (kernelSpectrum streaming) k = complexOf (exactIdft 4 bins k) := h.symm
  rw [e]
  simp [complexOf]

theorem streaming_taps : kernelInTime streaming 1 = 1 / 4 ∧ kernelInTime streaming 2 = 1 / 4 ∧
    kernelInTime streaming 3 = 0 := by
  refine ⟨?_, ?_, ?_⟩
  · rw [streaming_kernel (by norm_num), show (exactIdft 4 bins 1).re = .rat 1 by decide +kernel]
    norm_num
  · rw [streaming_kernel (by norm_num), show (exactIdft 4 bins 2).re = .rat 1 by decide +kernel]
    norm_num
  · rw [streaming_kernel (by norm_num), show (exactIdft 4 bins 3).re = .rat 0 by decide +kernel]
    norm_num

/-- The taps of `streaming`, none from L = 3 on. -/
noncomputable def streamingTaps (k : ℕ) : ℝ := if k < 3 then kernelInTime streaming k else 0

theorem streaming_kernel_eq (k : ℕ) (hk : k < streaming.cfg.N) :
    kernelInTime streaming k = streamingTaps k := by
  have hN : streaming.cfg.N = 4 := by decide +kernel
  rw [hN] at hk
  unfold streamingTaps
  split_ifs with h
  · rfl
  · rw [show k = 3 by omega]
    exact streaming_taps.2.2

theorem streamingTaps_short (k : ℕ) (hk : streaming.cfg.L ≤ k) : streamingTaps k = 0 := by
  have hL : streaming.cfg.L = 3 := by decide +kernel
  exact if_neg (by omega)

theorem witness_PostStreamIsLinearConvolution :
    MidStream streaming streamingTaps 1 (fun m => if m = 0 then 4 else 0) ∧
      2 ≤ streaming.cfg.iocap := by
  refine ⟨⟨rfl, by decide +kernel, rfl, rfl, streaming_kernel_eq, streamingTaps_short,
    fun m hm => if_neg (by omega), fun j hj => ?_⟩, by decide +kernel⟩
  have hP : streaming.cfg.P = 2 := by decide +kernel
  obtain ⟨h1, h2, -⟩ := streaming_taps
  have e : streaming.elem .pad j = .real (.rat 1) := by
    have h0 : streaming.elem .pad 0 = .real (.rat 1) := by decide +kernel
    have h1' : streaming.elem .pad 1 = .real (.rat 1) := by decide +kernel
    rcases (show j = 0 ∨ j = 1 by omega) with rfl | rfl <;> assumption
  rw [e, elemReal_real, realOf_rat, linearConv]
  rcases (show j = 0 ∨ j = 1 by omega) with rfl | rfl
  · simp [Finset.sum_range_succ, streamingTaps, h1]
  · simp [Finset.sum_range_succ, streamingTaps, h2]

theorem witness_EmptyTailStartsAStream :
    let s := { streaming with io := [], pad := [] }
    s.phase = .ready ∧ s.cfg.legal = true ∧ s.cfg.arith = .exact ∧ s.cfg.tailAdd = .post ∧
      (∀ k, k < s.cfg.N → kernelInTime s k = streamingTaps k) ∧
      (∀ k, s.cfg.L ≤ k → streamingTaps k = 0) ∧ CleanForTheFirstBlock s := by
  refine ⟨rfl, by decide +kernel, rfl, rfl, streaming_kernel_eq, streamingTaps_short,
    fun m hm i => ?_, rfl, rfl, rfl⟩
  simp only [List.mem_cons, List.not_mem_nil, or_false] at hm
  rcases hm with rfl | rfl | rfl <;> rfl

theorem witness_ZstuffExpandsTheBlock :
    (ready4.phase = .ready ∧ ready4.cfg.legal = true ∧ 2 ≤ ready4.cfg.M) ∧
      (inner4.phase ∉ [Phase.ready] ∧ inner4.phase ≠ .fault) ∧ ready4.cfg.M < 3 := by
  decide +kernel

theorem witness_DecimKeepsEveryFth :
    (ready4.phase = .ready ∧ 2 ≤ ready4.cfg.M) ∧
      (unbuilt4.phase ∉ [Phase.ready] ∧ unbuilt4.phase ≠ .fault) ∧ ready4.cfg.M < 3 := by
  decide +kernel

theorem witness_RoundTripScalesByF :
    ready4.phase = .ready ∧ ready4.cfg.legal = true ∧ 2 ≤ ready4.cfg.M ∧
      ready4.cfg.arith = .exact := by decide +kernel

theorem witness_OvsbeginOpensTheCallback :
    (ready4.phase = .ready ∧ ready4.cfg.legal = true ∧ 2 ≤ ready4.cfg.M) ∧
      (callback4.phase ∉ [Phase.ready] ∧ callback4.phase ≠ .fault) ∧ ready4.cfg.M < 3 := by
  decide +kernel

theorem callback4_inv : Machine.Inv callback4 where
  legal := by decide +kernel
  actlen_le := by decide +kernel
  actlen_callback := fun _ => by decide +kernel
  faultCode_iff := by decide
  faultCmd_zero := fun _ => rfl
  memories := fun m => by cases m <;> exact Memory.wf_nil _ _

theorem witness_OvsendClosesTheCallback :
    callback4.phase = .callback ∧ Machine.Inv callback4 ∧ inner4.phase ∉ [Phase.callback] ∧
      inner4.phase ≠ .fault := ⟨rfl, callback4_inv, by decide, by decide⟩

theorem witness_RegistersReadTheirTable :
    (0x58, counting.diagTrunc.toNat) ∈ csrRows counting ∧
      0x1C ∉ (csrRows counting).map Prod.fst ∧ 0x5C ∉ (csrRows counting).map Prod.fst ∧
      (0x08 : Nat) ≠ 0x04 ∧ ∃ t, step (offering counting .reset) = .next t := by
  refine ⟨by decide +kernel, by decide +kernel, by decide +kernel, by decide, _, rfl⟩

/-- The last index with the right and the first without it, in both windows and outside. -/
theorem witness_SampleAccessFollowsTheRights :
    ((1, Mem.x) ∈ banks ∧ ReadRight inner4 .x 3 ∧ ¬ReadRight inner4 .x 4) ∧
      (WriteRight callback4 .x 1 ∧ ¬WriteRight callback4 .x 2 ∧
        (Elem.real (.rat 1)).kind = callback4.cfg.kind) ∧
      ((0, Mem.io) ∈ banks ∧ ReadRight ready4 .io 7 ∧ ¬ReadRight ready4 .io 8) ∧
      (WriteRight unbuilt4 .h 7 ∧ ¬WriteRight ready4 .h 7) ∧ 5 ≤ (5 : BitVec 4).toNat := by
  refine ⟨⟨by decide, ?_, ?_⟩, ⟨?_, ?_, rfl⟩, ⟨by decide, ?_, ?_⟩, ⟨?_, ?_⟩, by decide⟩
  · show 3 < inner4.actlen.toNat + inner4.cfg.P
    decide +kernel
  · show ¬4 < inner4.actlen.toNat + inner4.cfg.P
    decide +kernel
  · show 1 < callback4.actlen.toNat
    decide
  · show ¬2 < callback4.actlen.toNat
    decide
  · show 7 < ready4.cfg.iocap
    decide +kernel
  · show ¬8 < ready4.cfg.iocap
    decide +kernel
  · show 7 < 2 * unbuilt4.cfg.N
    decide +kernel
  · exact id

theorem witness_ResetMeetsTheInvariant : (inst4 .pre).legal = true := by decide +kernel

theorem witness_StepKeepsTheInvariant :
    Machine.Inv callback4 ∧ ∃ t, step callback4 = .next t := ⟨callback4_inv, _, rfl⟩

theorem witness_BuiltKernelIsImmutable :
    (offering ready4 (.csrWrite 0x04 0x70000000)).phase ≠ .unbuilt ∧
      noReset (offering ready4 (.csrWrite 0x04 0x70000000)) ∧
      ∃ t, step (offering ready4 (.csrWrite 0x04 0x70000000)) = .next t :=
  ⟨by decide, by unfold noReset; decide, _, rfl⟩

theorem witness_OnlyResetLeavesFault :
    (offering fault4 (.csrRead 0x10)).phase = .fault ∧ noReset (offering fault4 (.csrRead 0x10)) ∧
      ∃ t, step (offering fault4 (.csrRead 0x10)) = .next t :=
  ⟨rfl, by unfold noReset; decide, _, rfl⟩

theorem witness_CountersGrowByAtMostOneEvent :
    noReset (offering ready4 (.csrWrite 0x04 0x40000000)) ∧
      (offering ready4 (.csrWrite 0x04 0x40000000)).moves.head? ≠
        some (.csrWrite 0x04 0xC0000000) ∧
      ∃ t, step (offering ready4 (.csrWrite 0x04 0x40000000)) = .next t :=
  ⟨by unfold noReset; decide, by decide, _, rfl⟩

theorem witness_ConstantsAndOpenWindowStay :
    (∃ t, step (offering inner4 (.csrWrite 0x04 0x60000000)) = .next t) ∧
      noReset (offering inner4 (.csrWrite 0x04 0x60000000)) ∧
      (offering inner4 (.csrWrite 0x04 0x60000000)).phase = .inner ∧
      noReset (offering callback4 (.csrWrite 0x04 0x90000000)) ∧
      (offering callback4 (.csrWrite 0x04 0x90000000)).phase = .callback :=
  ⟨⟨_, rfl⟩, by unfold noReset; decide, rfl, by unfold noReset; decide, rfl⟩

theorem witness_EngineIsEmptyUntilBuilt :
    EmptyUntilBuilt (offering unbuilt4 (.csrWrite 0x04 0x30000000)) ∧
      (offering unbuilt4 (.csrWrite 0x04 0x30000000)).phase = .unbuilt ∧
      ∃ t, step (offering unbuilt4 (.csrWrite 0x04 0x30000000)) = .next t ∧ t.phase = .ready := by
  refine ⟨fun _ => ⟨fun m _ i => ?_, rfl, rfl, rfl⟩, rfl, _, rfl, rfl⟩
  cases m <;> rfl

theorem witness_ChannelsAreIndependent :
    ([ready4, inner4][1]? = some inner4 ∧ step inner4 = .next inner4) ∧ (∃ l', stepChannel 1 [ready4, inner4] = .next l') ∧ (0 : Nat) ≠ 1 :=
  ⟨⟨rfl, rfl⟩, ⟨_, rfl⟩, by decide⟩

/-- 2^24 + 1 is halfway between two binary32 magnitudes, and the even pattern is taken; the
midpoint of the last clause is (2^25 − 1)·2^252, the first magnitude that rounds to infinity. -/
theorem witness_RoundingIsToNearestEven :
    2 * ((2 ^ 24 + 1 : ℕ) : ℤ) < patternValue .binary32 (infinityOf .binary32 - 1) +
        patternValue .binary32 (infinityOf .binary32) ∧
      2 ^ 24 + 1 < infinityOf .binary32 ∧
      |patternValue .binary32 (roundMagnitude .binary32 (2 ^ 24 + 1)) - (2 ^ 24 + 1 : ℕ)| =
        |patternValue .binary32 (2 ^ 24 + 1) - (2 ^ 24 + 1 : ℕ)| ∧
      2 ^ 24 + 1 ≠ roundMagnitude .binary32 (2 ^ 24 + 1) ∧
      patternValue .binary32 (infinityOf .binary32 - 1) +
        patternValue .binary32 (infinityOf .binary32) = 2 * (((2 ^ 25 - 1) * 2 ^ 252 : ℕ) : ℤ) := by
  decide +kernel

/-- +infinity, −infinity, a NaN, 1, −1 and −0 of binary32, for each clause. -/
theorem witness_AdditionIsIeee :
    Config.resetParams.arith = .ieee ∧ 0xFF800000 < 2 * signBit Config.resetParams.fp ∧
      NanPattern .binary32 0x7FC00000 ∧
      (InfPattern .binary32 0x7F800000 ∧ InfPattern .binary32 0xFF800000) ∧
      (FinitePattern .binary32 0x3F800000 ∧ FinitePattern .binary32 0x80000000) ∧
      patternValue .binary32 0x3F800000 + patternValue .binary32 0x80000000 ≠ 0 ∧
      patternValue .binary32 0x3F800000 + patternValue .binary32 0xBF800000 = 0 := by
  refine ⟨rfl, by decide, ⟨by decide, by decide⟩, ⟨⟨by decide, by decide⟩, by decide, by decide⟩,
    ⟨?_, ?_⟩, by decide +kernel, by decide +kernel⟩
  · show 127 < 255
    decide
  · show 0 < 255
    decide

theorem witness_ScalingIsIeee :
    Config.resetParams.arith = .ieee ∧ 0xFFFFFFFF < 2 * signBit Config.resetParams.fp ∧
      NanPattern .binary32 0xFFFFFFFF ∧ InfPattern .binary32 0xFF800000 ∧
      FinitePattern .binary32 0xFF7FFFFF := by
  refine ⟨rfl, by decide, ⟨by decide, by decide⟩, ⟨by decide, by decide⟩, ?_⟩
  show 254 < 255
  decide

/-- Infinity for the first clause; −0 and a NaN for the others. -/
theorem witness_AddingPositiveZero :
    (0xFF800000 < 2 * signWeight .binary32 ∧ fpIsNan .binary32 0xFF800000 = false ∧
      0xFF800000 ≠ signWeight .binary32) ∧
      0x80000000 = signWeight .binary32 ∧
      (0xFFFFFFFF < 2 * signWeight .binary32 ∧ fpIsNan .binary32 0xFFFFFFFF = true) := by
  decide +kernel

end Sys2Proof.Tests
end

section
/-! Rounding (rule R16, log 10): the rounded pattern before the overflow clamp is a nearest one,
even at a tie; the clamp to infinity is then a comparison with the overflow midpoint. -/

namespace Sys2Proof.Machine

/-! ### The pattern at and the pattern after an exact magnitude -/

/-- The largest pattern that stands for at most `n`, in a format without an overflow bound. -/
def truncatePattern (f : FpFormat) (n : Nat) : Nat :=
  roundShift f n * 2 ^ fracBits f + n / 2 ^ roundShift f n

/-- The kept bits fill the significand, unless nothing is dropped. -/
theorem roundShift_kept (f : FpFormat) (n : Nat) :
    (roundShift f n = 0 ∨ 2 ^ fracBits f ≤ n / 2 ^ roundShift f n) ∧
      n / 2 ^ roundShift f n < 2 ^ (fracBits f + 1) := by
  rcases Nat.lt_or_ge n (2 ^ (fracBits f + 1)) with h | h
  · have hk : roundShift f n = 0 := if_pos h
    exact ⟨.inl hk, by simpa [hk] using h⟩
  · have hk : roundShift f n = Nat.log2 n - fracBits f := if_neg (by omega)
    have hn : n ≠ 0 := (Nat.lt_of_lt_of_le (by positivity) h).ne'
    have hlog : fracBits f + 1 ≤ Nat.log2 n := (Nat.le_log2 hn).2 h
    rw [hk, Nat.le_div_iff_mul_le (by positivity), Nat.div_lt_iff_lt_mul (by positivity), ← pow_add,
      ← pow_add, show fracBits f + (Nat.log2 n - fracBits f) = Nat.log2 n by omega,
      show fracBits f + 1 + (Nat.log2 n - fracBits f) = Nat.log2 n + 1 by omega]
    exact ⟨.inr (Nat.log2_self_le hn), Nat.lt_log2_self⟩

/-- The pattern k·2^frac + q stands for q·2^k also when k = 0 and q is subnormal. -/
theorem magnitudeOf_scaled (f : FpFormat) {k q : Nat} (h1 : k = 0 ∨ 2 ^ fracBits f ≤ q)
    (h2 : q ≤ 2 ^ (fracBits f + 1)) : magnitudeOf f (k * 2 ^ fracBits f + q) = q * 2 ^ k := by
  rcases Nat.lt_or_ge q (2 ^ fracBits f) with hq | hq
  · obtain rfl : k = 0 := h1.resolve_right (by omega)
    simpa using magnitudeOf_subnormal f hq
  · exact magnitudeOf_normal f k hq h2

theorem magnitudeOf_truncatePattern (f : FpFormat) (n : Nat) :
    magnitudeOf f (truncatePattern f n) = n / 2 ^ roundShift f n * 2 ^ roundShift f n := by
  obtain ⟨h1, h2⟩ := roundShift_kept f n
  exact magnitudeOf_scaled f h1 h2.le

theorem magnitudeOf_truncatePattern_succ (f : FpFormat) (n : Nat) :
    magnitudeOf f (truncatePattern f n + 1) =
      (n / 2 ^ roundShift f n + 1) * 2 ^ roundShift f n := by
  obtain ⟨h1, h2⟩ := roundShift_kept f n
  exact magnitudeOf_scaled f (h1.imp_right (by omega)) h2

/-- The exponent part of a pattern is even: the parity is that of the kept bits. -/
theorem truncatePattern_mod_two (f : FpFormat) (n : Nat) :
    truncatePattern f n % 2 = n / 2 ^ roundShift f n % 2 := by
  have hB : 2 ^ fracBits f % 2 = 0 := by cases f <;> rfl
  unfold truncatePattern
  rw [Nat.add_mod, Nat.mul_mod, hB]
  simp

/-! ### Nearest, even at a tie -/

/-- No pattern is closer to `n` than `r`, and `r` is even when another is as close. -/
def NearestEven (f : FpFormat) (n r : Nat) : Prop :=
  ∀ m, |(magnitudeOf f r : ℤ) - n| ≤ |(magnitudeOf f m : ℤ) - n| ∧
    (|(magnitudeOf f r : ℤ) - n| = |(magnitudeOf f m : ℤ) - n| → m ≠ r → r % 2 = 0)

/-- A pattern at or below `n` is nearest when `n` is below the midpoint with the next one. -/
theorem nearestEven_of_le_midpoint {f : FpFormat} {n p : Nat} (hp : magnitudeOf f p ≤ n)
    (h : 2 * n < magnitudeOf f p + magnitudeOf f (p + 1) ∨
      2 * n = magnitudeOf f p + magnitudeOf f (p + 1) ∧ p % 2 = 0) : NearestEven f n p := by
  intro m
  have hp' : |(magnitudeOf f p : ℤ) - n| = n - magnitudeOf f p := by
    rw [abs_of_nonpos (by omega)]
    ring
  rw [hp']
  rcases lt_trichotomy m p with hm | rfl | hm
  · have := magnitudeOf_strictMono f hm
    rw [abs_of_nonpos (by omega)]
    omega
  · exact ⟨hp'.ge, fun _ hne => absurd rfl hne⟩
  · have : magnitudeOf f (p + 1) ≤ magnitudeOf f m := (magnitudeOf_strictMono f).monotone hm
    rw [abs_of_nonneg (by omega)]
    omega

/-- A pattern at or above `n` is nearest when `n` is above the midpoint with the one before. -/
theorem nearestEven_of_midpoint_le {f : FpFormat} {n p : Nat} (hp : n ≤ magnitudeOf f (p + 1))
    (h : magnitudeOf f p + magnitudeOf f (p + 1) < 2 * n ∨
      magnitudeOf f p + magnitudeOf f (p + 1) = 2 * n ∧ (p + 1) % 2 = 0) :
    NearestEven f n (p + 1) := by
  intro m
  have hp' : |(magnitudeOf f (p + 1) : ℤ) - n| = magnitudeOf f (p + 1) - n :=
    abs_of_nonneg (by omega)
  rw [hp']
  rcases lt_trichotomy m (p + 1) with hm | rfl | hm
  · have : magnitudeOf f m ≤ magnitudeOf f p :=
      (magnitudeOf_strictMono f).monotone (Nat.le_of_lt_succ hm)
    rw [abs_of_nonpos (by omega)]
    omega
  · exact ⟨hp'.ge, fun _ hne => absurd rfl hne⟩
  · have := magnitudeOf_strictMono f hm
    rw [abs_of_nonneg (by omega)]
    omega

theorem NearestEven.le {f : FpFormat} {n r : Nat} (h : NearestEven f n r) (m : Nat) :
    |(magnitudeOf f r : ℤ) - n| ≤ |(magnitudeOf f m : ℤ) - n| := (h m).1

/-- A magnitude that a pattern stands for has no other nearest pattern. -/
theorem NearestEven.eq_of_exact {f : FpFormat} {m r : Nat}
    (h : NearestEven f (magnitudeOf f m) r) : r = m := by
  have h0 := h.le m
  rw [sub_self, abs_zero, abs_nonpos_iff, sub_eq_zero, Nat.cast_inj] at h0
  exact (magnitudeOf_strictMono f).injective h0

/-- Below the midpoint of two neighbours, the nearest pattern is at most the lower one. -/
theorem NearestEven.le_of_lt_midpoint {f : FpFormat} {n r p : Nat} (h : NearestEven f n r)
    (hn : 2 * n < magnitudeOf f p + magnitudeOf f (p + 1)) : r ≤ p := by
  by_contra hr
  have hpr : magnitudeOf f (p + 1) ≤ magnitudeOf f r :=
    (magnitudeOf_strictMono f).monotone (by omega)
  have hpp := magnitudeOf_strictMono f p.lt_add_one
  have hle := h.le p
  rw [abs_of_nonneg (by omega)] at hle
  rcases abs_cases ((magnitudeOf f p : ℤ) - n) with ⟨e, -⟩ | ⟨e, -⟩ <;> omega

/-- From the midpoint of an odd pattern and the next one on, the nearest pattern is above the odd
one: at the midpoint itself the tie goes to an even pattern. -/
theorem NearestEven.lt_of_midpoint_le {f : FpFormat} {n r p : Nat} (h : NearestEven f n r)
    (hodd : p % 2 = 1) (hn : magnitudeOf f p + magnitudeOf f (p + 1) ≤ 2 * n) : p < r := by
  by_contra hr
  have hrp : magnitudeOf f r ≤ magnitudeOf f p :=
    (magnitudeOf_strictMono f).monotone (by omega)
  have hpp := magnitudeOf_strictMono f p.lt_add_one
  obtain ⟨hle, htie⟩ := h (p + 1)
  rw [abs_of_nonpos (show (magnitudeOf f r : ℤ) - n ≤ 0 by omega)] at hle htie
  have habs : |(magnitudeOf f (p + 1) : ℤ) - n| = magnitudeOf f (p + 1) - n := by
    rcases abs_cases ((magnitudeOf f (p + 1) : ℤ) - n) with ⟨e, -⟩ | ⟨e, -⟩ <;> omega
  rw [habs] at hle htie
  have hr' : magnitudeOf f r = magnitudeOf f p := by omega
  obtain rfl := (magnitudeOf_strictMono f).injective hr'
  have := htie (by omega) (by omega)
  omega

/-! ### `roundMagnitude` -/

/-- The rounded pattern in a format without an overflow bound. -/
def roundUnbounded (f : FpFormat) (n : Nat) : Nat :=
  if roundsUp (n / 2 ^ roundShift f n) (n % 2 ^ roundShift f n) (roundShift f n) then
    truncatePattern f n + 1
  else truncatePattern f n

theorem roundMagnitude_eq (f : FpFormat) (n : Nat) :
    roundMagnitude f n = min (roundUnbounded f n) (infPattern f) := by
  unfold roundMagnitude roundUnbounded truncatePattern
  split_ifs <;> simp [Nat.add_assoc, *]

theorem roundsUp_iff (q rem k : Nat) :
    roundsUp q rem k = true ↔ 2 ^ k < 2 * rem ∨ 2 * rem = 2 ^ k ∧ q % 2 = 1 := by
  simp [roundsUp]

theorem roundUnbounded_nearestEven (f : FpFormat) (n : Nat) :
    NearestEven f n (roundUnbounded f n) := by
  have hlow := magnitudeOf_truncatePattern f n
  have hhigh := magnitudeOf_truncatePattern_succ f n
  have hpar := truncatePattern_mod_two f n
  have hdiv := Nat.div_add_mod' n (2 ^ roundShift f n)
  have hrem := Nat.mod_lt n (show 0 < 2 ^ roundShift f n by positivity)
  rw [Nat.add_mul] at hhigh
  unfold roundUnbounded
  split_ifs with hup
  · rw [roundsUp_iff] at hup
    exact nearestEven_of_midpoint_le (by omega) (by omega)
  · rw [roundsUp_iff] at hup
    exact nearestEven_of_le_midpoint (by omega) (by omega)

/-- A finite pattern's own magnitude rounds to the pattern. -/
theorem roundMagnitude_magnitudeOf (f : FpFormat) {m : Nat} (h : m ≤ infPattern f) :
    roundMagnitude f (magnitudeOf f m) = m := by
  rw [roundMagnitude_eq, (roundUnbounded_nearestEven f _).eq_of_exact, min_eq_left h]

theorem infPattern_pos (f : FpFormat) : 0 < infPattern f := by cases f <;> decide

theorem infPattern_sub_one_add_one (f : FpFormat) : infPattern f - 1 + 1 = infPattern f :=
  Nat.sub_add_cancel (infPattern_pos f)

/-- Below the overflow midpoint the result is finite and is the unbounded one. -/
theorem roundMagnitude_of_lt_midpoint {f : FpFormat} {n : Nat}
    (h : 2 * n < magnitudeOf f (infPattern f - 1) + magnitudeOf f (infPattern f)) :
    roundMagnitude f n < infPattern f ∧ NearestEven f n (roundMagnitude f n) := by
  have hpos := infPattern_pos f
  have hnear := roundUnbounded_nearestEven f n
  have hle : roundUnbounded f n ≤ infPattern f - 1 :=
    hnear.le_of_lt_midpoint (by rwa [infPattern_sub_one_add_one])
  rw [roundMagnitude_eq, min_eq_left (by omega)]
  exact ⟨by omega, hnear⟩

theorem roundMagnitude_of_midpoint_le {f : FpFormat} {n : Nat}
    (h : magnitudeOf f (infPattern f - 1) + magnitudeOf f (infPattern f) ≤ 2 * n) :
    roundMagnitude f n = infPattern f := by
  have hodd : (infPattern f - 1) % 2 = 1 := by cases f <;> rfl
  have hlt : infPattern f - 1 < roundUnbounded f n :=
    (roundUnbounded_nearestEven f n).lt_of_midpoint_le hodd (by rwa [infPattern_sub_one_add_one])
  exact (roundMagnitude_eq f n).trans (min_eq_right (Nat.le_of_pred_lt hlt))

end Sys2Proof.Machine
end

section
/-! The statements' reading of a bit pattern (log 10) agrees with the model's, for every pattern of
the format. -/

namespace Sys2Proof.Machine

open Sys2Proof.Claims

/-! ### The statements' constants -/

@[simp] theorem exponentWidth_eq (f : FpFormat) : exponentWidth f = expBits f := by cases f <;> rfl

@[simp] theorem fractionWidth_eq (f : FpFormat) : fractionWidth f = fracBits f := by
  cases f <;> rfl

@[simp] theorem signBit_eq (f : FpFormat) : signBit f = signWeight f := by cases f <;> rfl

@[simp] theorem infinityOf_eq (f : FpFormat) : infinityOf f = infPattern f := by cases f <;> rfl

theorem infPattern_lt_signWeight (f : FpFormat) : infPattern f < signWeight f := by
  have := infPattern_add f
  have : 0 < 2 ^ fracBits f := by positivity
  omega

/-! ### Sign and magnitude of a pattern -/

theorem fpMagBits_lt (f : FpFormat) (w : Nat) : fpMagBits f w < signWeight f :=
  Nat.mod_lt _ (by unfold signWeight; positivity)

theorem fpNegative_iff {f : FpFormat} {w : Nat} (h : w < 2 * signWeight f) :
    fpNegative f w = true ↔ signWeight f ≤ w := by
  have hpos : 0 < signWeight f := by unfold signWeight; positivity
  have hdiv : w / signWeight f < 2 := by rwa [Nat.div_lt_iff_lt_mul hpos]
  rw [fpNegative, decide_eq_true_iff, ← Nat.one_le_div_iff hpos]
  generalize w / signWeight f = d at *
  omega

/-- A pattern is its sign and its magnitude. -/
theorem fpPack_self {f : FpFormat} {w : Nat} (h : w < 2 * signWeight f) :
    fpPack f (fpNegative f w) (fpMagBits f w) = w := by
  unfold fpPack fpMagBits
  by_cases hs : signWeight f ≤ w
  · rw [if_pos ((fpNegative_iff h).2 hs), Nat.mod_eq_sub_mod hs, Nat.mod_eq_of_lt (by omega)]
    omega
  · rw [if_neg (mt (fpNegative_iff h).1 hs), Nat.mod_eq_of_lt (by omega), Nat.zero_add]

theorem exponentField_eq (f : FpFormat) (w : Nat) :
    exponentField f w = fpMagBits f w / 2 ^ fracBits f := by
  simp only [exponentField, fpMagBits, signWeight, exponentWidth_eq, fractionWidth_eq]
  rw [Nat.add_comm, pow_add, Nat.mod_mul_right_div_self]

theorem fractionField_eq (f : FpFormat) (w : Nat) :
    fractionField f w = fpMagBits f w % 2 ^ fracBits f := by
  simp only [fractionField, fpMagBits, signWeight, fractionWidth_eq]
  rw [Nat.mod_mod_of_dvd _ (pow_dvd_pow 2 (Nat.le_add_left _ _))]

/-- The largest exponent field is that of the patterns from infinity on. -/
theorem exponentField_lt_iff (f : FpFormat) (w : Nat) :
    exponentField f w < 2 ^ expBits f - 1 ↔ fpMagBits f w < infPattern f := by
  rw [exponentField_eq, Nat.div_lt_iff_lt_mul (by positivity), infPattern]

theorem fractionField_eq_zero_iff {f : FpFormat} {w : Nat} (h : infPattern f ≤ fpMagBits f w) :
    fractionField f w = 0 ↔ fpMagBits f w = infPattern f := by
  have hlt := fpMagBits_lt f w
  have hadd := infPattern_add f
  obtain ⟨c, hc⟩ := Nat.exists_eq_add_of_le h
  rw [fractionField_eq, hc, infPattern, Nat.mul_add_mod', Nat.mod_eq_of_lt (by omega)]
  omega

theorem exponentField_eq_max_iff (f : FpFormat) (w : Nat) :
    exponentField f w = 2 ^ expBits f - 1 ↔ infPattern f ≤ fpMagBits f w := by
  have hmax : exponentField f w < 2 ^ expBits f := by
    simpa [exponentField] using Nat.mod_lt _ (show 0 < 2 ^ expBits f by positivity)
  have := exponentField_lt_iff f w
  omega

/-! ### NaN, infinity, finite -/

theorem finitePattern_iff (f : FpFormat) (w : Nat) :
    FinitePattern f w ↔ fpMagBits f w < infPattern f := by
  rw [FinitePattern, exponentWidth_eq, exponentField_lt_iff]

theorem infPattern_iff (f : FpFormat) (w : Nat) :
    InfPattern f w ↔ fpMagBits f w = infPattern f := by
  rw [InfPattern, exponentWidth_eq, exponentField_eq_max_iff]
  exact ⟨fun ⟨h, h0⟩ => (fractionField_eq_zero_iff h).1 h0,
    fun h => ⟨h.ge, (fractionField_eq_zero_iff h.ge).2 h⟩⟩

theorem nanPattern_iff (f : FpFormat) (w : Nat) :
    NanPattern f w ↔ infPattern f < fpMagBits f w := by
  rw [NanPattern, exponentWidth_eq, exponentField_eq_max_iff]
  refine ⟨fun ⟨h, h0⟩ => lt_of_le_of_ne h fun e => h0 ((fractionField_eq_zero_iff h).2 e.symm),
    fun h => ⟨h.le, fun h0 => ?_⟩⟩
  exact h.ne' ((fractionField_eq_zero_iff h.le).1 h0)

theorem fpIsNan_iff (f : FpFormat) (w : Nat) : fpIsNan f w = true ↔ NanPattern f w := by
  rw [fpIsNan, decide_eq_true_iff, nanPattern_iff]

theorem fpIsInf_iff (f : FpFormat) (w : Nat) : fpIsInf f w = true ↔ InfPattern f w := by
  rw [fpIsInf, decide_eq_true_iff, infPattern_iff]

theorem fpIsNan_of_inf {f : FpFormat} {w : Nat} (h : InfPattern f w) : fpIsNan f w = false := by
  rw [infPattern_iff] at h
  simp [fpIsNan, h]

theorem fpIsNan_of_finite {f : FpFormat} {w : Nat} (h : FinitePattern f w) :
    fpIsNan f w = false := by
  rw [finitePattern_iff] at h
  simp [fpIsNan, h.le]

theorem fpIsInf_of_finite {f : FpFormat} {w : Nat} (h : FinitePattern f w) :
    fpIsInf f w = false := by
  rw [finitePattern_iff] at h
  simp [fpIsInf, h.ne]

/-- An infinity is its sign and the pattern of +infinity. -/
theorem fpPack_infPattern {f : FpFormat} {w : Nat} (hw : w < 2 * signWeight f)
    (h : InfPattern f w) : fpPack f (fpNegative f w) (infPattern f) = w := by
  rw [← (infPattern_iff f w).1 h, fpPack_self hw]

/-- Two infinities of one sign are one pattern. -/
theorem inf_eq_of_fpNegative_eq {f : FpFormat} {a b : Nat} (ha : a < 2 * signWeight f)
    (hb : b < 2 * signWeight f) (hia : InfPattern f a) (hib : InfPattern f b)
    (hs : fpNegative f a = fpNegative f b) : a = b := by
  rw [← fpPack_infPattern ha hia, hs, fpPack_infPattern hb hib]

/-! ### The value of a pattern -/

theorem patternValue_eq_fpValue {f : FpFormat} {w : Nat} (h : w < 2 * signWeight f) :
    patternValue f w = fpValue f w := by
  have hmag : (if exponentField f w = 0 then (fractionField f w : ℤ)
      else (2 ^ fracBits f + fractionField f w) * 2 ^ (exponentField f w - 1)) =
      magnitudeOf f (fpMagBits f w) := by
    rw [exponentField_eq, fractionField_eq, magnitudeOf]
    split_ifs <;> push_cast <;> rfl
  rw [patternValue, fpValue, fractionWidth_eq, signBit_eq, hmag]
  simp only [fpNegative_iff h]
  split_ifs <;> ring

theorem fpMagBits_of_lt {f : FpFormat} {m : Nat} (h : m < signWeight f) : fpMagBits f m = m :=
  Nat.mod_eq_of_lt h

/-- Without a sign bit a pattern's value is its magnitude; the pattern of +infinity counts as the
magnitude after the largest finite one. -/
theorem patternValue_of_lt {f : FpFormat} {m : Nat} (h : m < signWeight f) :
    patternValue f m = magnitudeOf f m := by
  have hneg : ¬fpNegative f m = true := by
    rw [fpNegative_iff (by omega)]
    omega
  rw [patternValue_eq_fpValue (by omega), fpValue, if_neg hneg, fpMagBits_of_lt h]

theorem natAbs_fpValue (f : FpFormat) (w : Nat) :
    (fpValue f w).natAbs = magnitudeOf f (fpMagBits f w) := by
  unfold fpValue
  split_ifs <;> omega

theorem magnitudeOf_eq_zero_iff (f : FpFormat) (m : Nat) : magnitudeOf f m = 0 ↔ m = 0 := by
  have h0 : magnitudeOf f 0 = 0 := magnitudeOf_subnormal f (by positivity)
  rw [← (magnitudeOf_strictMono f).injective.eq_iff (a := m) (b := 0), h0]

/-- A finite pattern of value zero has no magnitude bits. -/
theorem fpValue_eq_zero_iff (f : FpFormat) (w : Nat) : fpValue f w = 0 ↔ fpMagBits f w = 0 := by
  rw [← Int.natAbs_eq_zero, natAbs_fpValue, magnitudeOf_eq_zero_iff]

/-- The sign of a non-zero value is the sign bit. -/
theorem fpValue_neg_iff {f : FpFormat} {w : Nat} (h : fpValue f w ≠ 0) :
    fpValue f w < 0 ↔ fpNegative f w = true := by
  unfold fpValue at h ⊢
  split_ifs at h ⊢ with hs
  · exact iff_of_true (by omega) hs
  · exact iff_of_false (by omega) hs

/-! ### The element of a pattern -/

theorem toNat_word32_patternElem {a : Nat} (h : a < 2 * signWeight .binary32) :
    (word32 (patternElem .binary32 a)).toNat = a := by
  rw [patternElem, word32, BitVec.toNat_ofNat, Nat.mod_eq_of_lt (show a < 2 ^ 32 from h)]

theorem toNat_word64_patternElem {a : Nat} (h : a < 2 * signWeight .binary64) :
    (word64 (patternElem .binary64 a)).toNat = a := by
  rw [patternElem, word64, BitVec.toNat_ofNat, Nat.mod_eq_of_lt (show a < 2 ^ 64 from h)]

theorem elemAdd_patternElem {p : Params} (hp : p.arith = .ieee) (draw j : Nat) {a b : Nat}
    (ha : a < 2 * signWeight p.fp) (hb : b < 2 * signWeight p.fp) :
    elemAdd p draw j (patternElem p.fp a) (patternElem p.fp b) =
      patternElem p.fp (fpAdd p.fp (Config.nanBits draw j).toNat a b) := by
  unfold elemAdd Params.kind
  rw [hp]
  cases hf : p.fp with
  | binary32 =>
    rw [hf] at ha hb
    simp only [toNat_word32_patternElem ha, toNat_word32_patternElem hb]
    rfl
  | binary64 =>
    rw [hf] at ha hb
    simp only [toNat_word64_patternElem ha, toNat_word64_patternElem hb]
    rfl

theorem elemScale_patternElem {p : Params} (hp : p.arith = .ieee) (draw j : Nat) {a : Nat}
    (ha : a < 2 * signWeight p.fp) :
    elemScale p draw j (patternElem p.fp a) =
      patternElem p.fp (fpScale p.fp (Config.nanBits draw j).toNat p.F a) := by
  unfold elemScale Params.kind
  rw [hp]
  cases hf : p.fp with
  | binary32 =>
    rw [hf] at ha
    simp only [toNat_word32_patternElem ha]
    rfl
  | binary64 =>
    rw [hf] at ha
    simp only [toNat_word64_patternElem ha]
    rfl

end Sys2Proof.Machine
end

section
/-! What the single addition and the product F·x answer, one lemma per case of the operands
(rule R16, logs 8 and 10), and the statements O52 to O55. -/

namespace Sys2Proof.Machine

open Sys2Proof.Claims

/-! ### The range of a result -/

theorem fpPack_lt_of_le_inf {f : FpFormat} {m : Nat} (neg : Bool) (h : m ≤ infPattern f) :
    fpPack f neg m < 2 * signWeight f :=
  fpPack_lt f neg (h.trans_lt (infPattern_lt_signWeight f))

theorem fpAdd_lt (f : FpFormat) (bits a b : Nat) : fpAdd f bits a b < 2 * signWeight f := by
  unfold fpAdd
  split_ifs
  · exact freeNan_lt f bits
  · exact freeNan_lt f bits
  · exact fpPack_lt_of_le_inf _ le_rfl
  · exact fpPack_lt_of_le_inf _ le_rfl
  · exact fpPack_lt_of_le_inf _ (Nat.zero_le _)
  · exact fpPack_lt_of_le_inf _ (roundMagnitude_le f _)

theorem fpScale_lt (f : FpFormat) (bits n a : Nat) : fpScale f bits n a < 2 * signWeight f := by
  unfold fpScale
  split_ifs
  · exact freeNan_lt f bits
  · exact fpPack_lt_of_le_inf _ le_rfl
  · exact fpPack_lt_of_le_inf _ (roundMagnitude_le f _)

/-! ### The cases of the addition -/

theorem nanPattern_freeNan (f : FpFormat) (bits : Nat) : NanPattern f (freeNan f bits) :=
  (fpIsNan_iff f _).1 (freeNan_isNan f bits)

theorem fpAdd_of_nan {f : FpFormat} {a b : Nat} (bits : Nat) (h : NanPattern f a ∨ NanPattern f b) :
    fpAdd f bits a b = freeNan f bits := by
  rw [← fpIsNan_iff, ← fpIsNan_iff] at h
  exact if_pos (by simpa using h)

theorem fpAdd_of_opposite_infs {f : FpFormat} {a b : Nat} (bits : Nat) (ha : InfPattern f a)
    (hb : InfPattern f b) (hs : fpNegative f a ≠ fpNegative f b) :
    fpAdd f bits a b = freeNan f bits := by
  simp [fpAdd, fpIsNan_of_inf, (fpIsInf_iff f _).2, ha, hb, hs]

theorem fpAdd_of_inf_left {f : FpFormat} {a b : Nat} (bits : Nat) (haw : a < 2 * signWeight f)
    (ha : InfPattern f a) (hb : FinitePattern f b ∨ b = a) : fpAdd f bits a b = a := by
  rcases hb with hb | rfl
  · simp [fpAdd, fpIsNan_of_inf, fpIsNan_of_finite, fpIsInf_of_finite, (fpIsInf_iff f _).2,
      fpPack_infPattern, ha, hb, haw]
  · simp [fpAdd, fpIsNan_of_inf, (fpIsInf_iff f _).2, fpPack_infPattern, ha, haw]

theorem fpAdd_of_inf_right {f : FpFormat} {a b : Nat} (bits : Nat) (hbw : b < 2 * signWeight f)
    (hb : InfPattern f b) (ha : FinitePattern f a) : fpAdd f bits a b = b := by
  simp [fpAdd, fpIsNan_of_inf, fpIsNan_of_finite, fpIsInf_of_finite, (fpIsInf_iff f _).2,
    fpPack_infPattern, ha, hb, hbw]

theorem fpAdd_of_finite {f : FpFormat} {a b : Nat} (bits : Nat) (ha : FinitePattern f a)
    (hb : FinitePattern f b) : fpAdd f bits a b =
      if fpValue f a + fpValue f b = 0 then fpPack f (fpNegative f a && fpNegative f b) 0
      else fpRound f (fpValue f a + fpValue f b) := by
  simp [fpAdd, fpIsNan_of_finite, fpIsInf_of_finite, ha, hb]

/-! ### The cases of the product -/

theorem fpScale_of_nan {f : FpFormat} {a : Nat} (bits n : Nat) (h : NanPattern f a) :
    fpScale f bits n a = freeNan f bits :=
  if_pos ((fpIsNan_iff f a).2 h)

theorem fpScale_of_inf {f : FpFormat} {a : Nat} (bits n : Nat) (haw : a < 2 * signWeight f)
    (h : InfPattern f a) : fpScale f bits n a = a := by
  simp [fpScale, fpIsNan_of_inf, (fpIsInf_iff f _).2, fpPack_infPattern, h, haw]

theorem fpScale_of_finite {f : FpFormat} {a : Nat} (bits n : Nat) (h : FinitePattern f a) :
    fpScale f bits n a =
      fpPack f (fpNegative f a) (roundMagnitude f ((n : ℤ) * fpValue f a).natAbs) := by
  simp [fpScale, fpIsNan_of_finite, fpIsInf_of_finite, Int.natAbs_mul, natAbs_fpValue, h]

/-! ### The statements -/

/-- Settles O52: the unbounded rounding is nearest and even at a tie, and the clamp to infinity is
the comparison with the overflow midpoint. -/
theorem roundingIsToNearestEven : Obligations.RoundingIsToNearestEven := by
  unfold Obligations.RoundingIsToNearestEven
  intro f n
  have hinf := infPattern_lt_signWeight f
  simp only [infinityOf_eq]
  rw [patternValue_of_lt hinf, patternValue_of_lt (show infPattern f - 1 < signWeight f by omega)]
  constructor
  · intro h
    obtain ⟨hlt, hnear⟩ := roundMagnitude_of_lt_midpoint (by exact_mod_cast h)
    refine ⟨hlt, fun m hm => ?_⟩
    rw [patternValue_of_lt (hlt.trans hinf), patternValue_of_lt (hm.trans hinf)]
    exact hnear m
  · intro h
    exact roundMagnitude_of_midpoint_le (by exact_mod_cast h)

/-- Settles O53, case by case of the operands. -/
theorem additionIsIeee : Obligations.AdditionIsIeee := by
  unfold Obligations.AdditionIsIeee
  intro p draw j a b hp ha hb
  rw [signBit_eq] at ha hb ⊢
  refine ⟨_, fpAdd_lt p.fp _ a b, elemAdd_patternElem hp draw j ha hb, fun h => ?_,
    fun hia hib hne => ?_, fpAdd_of_inf_left _ ha, fpAdd_of_inf_right _ hb,
    fun hfa hfb => ⟨fun hsum => ?_, fun hsum => ?_⟩⟩
  · rw [fpAdd_of_nan _ h]
    exact nanPattern_freeNan _ _
  · rw [fpAdd_of_opposite_infs _ hia hib (mt (inf_eq_of_fpNegative_eq ha hb hia hib) hne)]
    exact nanPattern_freeNan _ _
  · rw [patternValue_eq_fpValue ha, patternValue_eq_fpValue hb] at hsum ⊢
    rw [fpAdd_of_finite _ hfa hfb, if_neg hsum, fpRound, fpPack]
    simp only [decide_eq_true_eq]
  · rw [patternValue_eq_fpValue ha, patternValue_eq_fpValue hb] at hsum
    rw [fpAdd_of_finite _ hfa hfb, if_pos hsum, fpPack]
    simp only [Bool.and_eq_true, fpNegative_iff ha, fpNegative_iff hb, Nat.add_zero]

/-- Settles O54, case by case of the operand. -/
theorem scalingIsIeee : Obligations.ScalingIsIeee := by
  unfold Obligations.ScalingIsIeee
  intro p draw j a hp ha
  rw [signBit_eq] at ha ⊢
  refine ⟨_, fpScale_lt p.fp _ p.F a, elemScale_patternElem hp draw j ha, fun h => ?_,
    fpScale_of_inf _ _ ha, fun h => ?_⟩
  · rw [fpScale_of_nan _ _ h]
    exact nanPattern_freeNan _ _
  · rw [fpScale_of_finite _ _ h, patternValue_eq_fpValue ha, fpPack]
    simp only [fpNegative_iff ha]

/-! ### Adding +0.0 -/

theorem finitePattern_zero (f : FpFormat) : FinitePattern f 0 :=
  (finitePattern_iff f 0).2 (infPattern_pos f)

theorem fpValue_zero (f : FpFormat) : fpValue f 0 = 0 :=
  (fpValue_eq_zero_iff f 0).2 (Nat.zero_mod _)

/-- A pattern that is no NaN is an infinity or finite. -/
theorem inf_or_finite_of_not_nan {f : FpFormat} {w : Nat} (h : fpIsNan f w = false) :
    InfPattern f w ∨ FinitePattern f w := by
  rw [infPattern_iff, finitePattern_iff]
  rw [fpIsNan, decide_eq_false_iff_not] at h
  omega

/-- A non-zero finite pattern is the rounded pattern of its own value. -/
theorem fpRound_fpValue {f : FpFormat} {a : Nat} (ha : a < 2 * signWeight f)
    (hf : FinitePattern f a) (h0 : fpValue f a ≠ 0) : fpRound f (fpValue f a) = a := by
  rw [finitePattern_iff] at hf
  simp only [fpRound, natAbs_fpValue, roundMagnitude_magnitudeOf f hf.le, fpValue_neg_iff h0,
    Bool.decide_eq_true, fpPack_self ha]

/-- The zeros are +0 and −0. -/
theorem eq_zero_or_signWeight {f : FpFormat} {a : Nat} (ha : a < 2 * signWeight f)
    (h0 : fpValue f a = 0) : a = 0 ∨ a = signWeight f := by
  rw [← fpPack_self ha, (fpValue_eq_zero_iff f a).1 h0, fpPack]
  cases fpNegative f a <;> simp

theorem fpAdd_zero_right {f : FpFormat} {a : Nat} (bits : Nat) (hf : FinitePattern f a) :
    fpAdd f bits a 0 = if fpValue f a = 0 then 0 else fpRound f (fpValue f a) := by
  have hneg : fpNegative f 0 = false := by simp [fpNegative]
  simp [fpAdd_of_finite bits hf (finitePattern_zero f), fpValue_zero, hneg, fpPack]

/-- Settles O55: a finite value other than −0 is its own rounding, and the infinities are kept. -/
theorem addingPositiveZero : Obligations.AddingPositiveZero := by
  unfold Obligations.AddingPositiveZero
  intro f bits a ha
  refine ⟨fun hnan hne => ?_, ?_, fun hnan => ?_⟩
  · rcases inf_or_finite_of_not_nan hnan with hi | hf
    · exact fpAdd_of_inf_left bits ha hi (.inl (finitePattern_zero f))
    · rw [fpAdd_zero_right bits hf]
      split_ifs with h0
      · exact ((eq_zero_or_signWeight ha h0).resolve_right hne).symm
      · exact fpRound_fpValue ha hf h0
  · rintro rfl
    have hmag : fpMagBits f (signWeight f) = 0 := Nat.mod_self _
    have hf : FinitePattern f (signWeight f) := by
      rw [finitePattern_iff, hmag]
      exact infPattern_pos f
    rw [fpAdd_zero_right bits hf, if_pos ((fpValue_eq_zero_iff f _).2 hmag)]
  · rw [fpAdd_of_nan bits (.inl ((fpIsNan_iff f a).1 hnan))]
    exact freeNan_isNan f bits

end Sys2Proof.Machine
end

section
/-! Every real β has rational bounds that settle its kernel length (rules R9 to R11 and R90,
log 2). -/

namespace Sys2Proof

open Sys2Proof.Reference

/-! ### The kernel length of R90 -/

/-- L0 is the least n with 4 ≤ n·max(β, 10^-10). -/
theorem initialLength_le_iff (β : ℝ) (n : ℕ) :
    initialLength β ≤ n ↔ 4 ≤ n * max β (1 / 10 ^ 10) := by
  rw [initialLength, Nat.ceil_le, div_le_iff₀ (lt_max_of_lt_right (by positivity))]

theorem initialLength_antitone : Antitone initialLength := fun β γ h => by
  rw [initialLength_le_iff]
  calc (4 : ℝ) ≤ initialLength β * max β (1 / 10 ^ 10) := (initialLength_le_iff β _).1 le_rfl
    _ ≤ initialLength β * max γ (1 / 10 ^ 10) := by gcongr

/-- The two tests for the lower bound 10^-10 agree. -/
theorem num_mul_le_den_iff (q : ℚ) :
    q.num * 10 ^ 10 ≤ (q.den : ℤ) ↔ (q : ℝ) ≤ 1 / 10 ^ 10 := by
  have hden : (0 : ℝ) < q.den := by exact_mod_cast q.den_pos
  have hq : (q : ℝ) * q.den = q.num := by exact_mod_cast Rat.mul_den_eq_num q
  rw [le_div_iff₀ (by positivity), ← mul_le_mul_iff_left₀ hden, one_mul, mul_right_comm, hq]
  exact_mod_cast Iff.rfl

/-- Above the lower bound L0 is the least n with 4·den ≤ num·n. -/
theorem kernelLen0_le_iff {q : ℚ} (h : ¬q.num * 10 ^ 10 ≤ (q.den : ℤ)) (n : ℕ) :
    kernelLen0 q ≤ n ↔ 4 * q.den ≤ q.num.toNat * n := by
  have hnum : 0 < q.num.toNat := by omega
  rw [kernelLen0, if_neg h, ← Nat.ceilDiv_eq_add_pred_div, ceilDiv_le_iff_le_mul hnum]

/-- The model's integer division is the ceiling of R90, at every rational β. -/
theorem kernelLen0_eq_initialLength (q : ℚ) : kernelLen0 q = initialLength q := by
  by_cases h : q.num * 10 ^ 10 ≤ (q.den : ℤ)
  · rw [kernelLen0, if_pos h, initialLength, max_eq_right ((num_mul_le_den_iff q).1 h), one_div,
      div_inv_eq_mul]
    exact_mod_cast (Nat.ceil_natCast (R := ℝ) (4 * 10 ^ 10)).symm
  · refine eq_of_forall_ge_iff fun n => ?_
    have hden : (0 : ℝ) < q.den := by exact_mod_cast q.den_pos
    have hq : (q : ℝ) * q.den = q.num.toNat := by
      rw [← Int.cast_natCast q.num.toNat, Int.toNat_of_nonneg (by omega)]
      exact_mod_cast Rat.mul_den_eq_num q
    have hlow := (num_mul_le_den_iff q).not.1 h
    rw [kernelLen0_le_iff h, initialLength_le_iff, max_eq_left (not_le.1 hlow).le,
      ← mul_le_mul_iff_left₀ hden, mul_assoc, hq, mul_comm (n : ℝ)]
    exact_mod_cast Iff.rfl

theorem initialLength_pos (β : ℝ) : 0 < initialLength β := by
  rw [← not_le, initialLength_le_iff]
  norm_num

theorem kernelLengthOf_pos (β : ℝ) : 0 < kernelLengthOf β := by
  have := initialLength_pos β
  unfold kernelLengthOf
  split_ifs <;> omega

theorem kernelLength_eq_kernelLengthOf {q : ℚ} {β : ℝ} (h : initialLength q = initialLength β) :
    kernelLength q = kernelLengthOf β := by
  rw [kernelLength, kernelLengthOf, kernelLen0_eq_initialLength, h]

/-! ### Rational bounds of a real β -/

theorem exists_rat_gt_mul_lt {c x d : ℝ} (hc : 0 ≤ c) (h : c * x < d) :
    ∃ q : ℚ, x < q ∧ c * q < d := by
  rcases hc.eq_or_lt with rfl | hc
  · obtain ⟨q, hq⟩ := exists_rat_gt x
    exact ⟨q, hq, by simpa using h⟩
  · obtain ⟨q, hxq, hqd⟩ := exists_rat_btwn ((lt_div_iff₀' hc).2 h)
    exact ⟨q, hxq, (lt_div_iff₀' hc).1 hqd⟩

/-- Above β lies a rational with the same L0, since (L0 − 1)·max(β, 10^-10) < 4 leaves room. -/
theorem exists_rat_ge_initialLength_eq (β : ℝ) :
    ∃ q : ℚ, β ≤ q ∧ initialLength q = initialLength β := by
  have hpos := initialLength_pos β
  have hroom : ((initialLength β - 1 : ℕ) : ℝ) * max β (1 / 10 ^ 10) < 4 := by
    rw [← not_le, ← initialLength_le_iff]
    omega
  obtain ⟨q, hxq, hq⟩ := exists_rat_gt_mul_lt (Nat.cast_nonneg _) hroom
  obtain ⟨hβq, hlow⟩ := max_lt_iff.1 hxq
  have hlt : ¬initialLength q ≤ initialLength β - 1 := by
    rw [initialLength_le_iff, max_eq_left hlow.le, not_le]
    exact hq
  have hle := initialLength_antitone hβq.le
  exact ⟨q, hβq.le, by omega⟩

/-- At or below β lies a rational with the same L0: 4 / L0, or any one when β ≤ 10^-10. -/
theorem exists_rat_le_initialLength_eq (β : ℝ) :
    ∃ q : ℚ, q ≤ β ∧ initialLength q = initialLength β := by
  rcases le_or_gt β (1 / 10 ^ 10) with hβ | hβ
  · obtain ⟨q, hq⟩ := exists_rat_lt β
    exact ⟨q, hq.le, by rw [initialLength, initialLength, max_eq_right hβ,
      max_eq_right (hq.le.trans hβ)]⟩
  · have hpos : (0 : ℝ) < initialLength β := by exact_mod_cast initialLength_pos β
    have h4 := (initialLength_le_iff β _).1 le_rfl
    rw [max_eq_left hβ.le] at h4
    have hq : ((4 / initialLength β : ℚ) : ℝ) = 4 / initialLength β := by push_cast; rfl
    have hle : ((4 / initialLength β : ℚ) : ℝ) ≤ β := by rwa [hq, div_le_iff₀' hpos]
    refine ⟨4 / initialLength β, hle, le_antisymm ?_ (initialLength_antitone hle)⟩
    rw [initialLength_le_iff, ← div_le_iff₀' hpos, hq]
    exact le_max_left _ _

/-- Every real β has data that stands for it, is settled and gives its kernel length. -/
theorem exists_settled_beta (β : ℝ) :
    ∃ b : Beta, betaSettled b = true ∧ BetaHolds b β ∧ kernelLength b.hi = kernelLengthOf β := by
  obtain ⟨lo, hlo, hlo_len⟩ := exists_rat_le_initialLength_eq β
  obtain ⟨hi, hhi, hhi_len⟩ := exists_rat_ge_initialLength_eq β
  refine ⟨⟨lo, hi, 0⟩, ?_, ⟨hlo, hhi⟩, kernelLength_eq_kernelLengthOf hhi_len⟩
  have hle : lo ≤ hi := by exact_mod_cast hlo.trans hhi
  simp [betaSettled, hle, kernelLen0_eq_initialLength, hlo_len, hhi_len]

/-! ### The parameter set -/

theorem Params.legal_iff (p : Params) : p.legal = true ↔
    betaSettled p.beta = true ∧ 1 ≤ p.F ∧ 1 ≤ p.M ∧ p.N ≤ Config.NMAX ∧ p.N ≤ p.iocap ∧
      p.iocap ≤ Config.IOCAPMAX ∧ 1 ≤ p.latDiv := by
  simp [Params.legal, and_assoc]

/-- The defaults of R13 to R15, with an IO region of one window (R12). -/
def oneWindowParams (F M : ℕ) (b : Beta) : Params :=
  { Params.ofFactor F M b .ieee with iocap := M * F + (kernelLength b.hi - 1) }

theorem oneWindowParams_N {F M : ℕ} {b : Beta} {β : ℝ} (h : kernelLength b.hi = kernelLengthOf β) :
    (oneWindowParams F M b).N = M * F + kernelLengthOf β - 1 := by
  rw [Nat.add_sub_assoc (kernelLengthOf_pos β), ← h]
  rfl

theorem oneWindowParams_legal {F M : ℕ} {b : Beta} (hb : betaSettled b = true) (hF : 1 ≤ F)
    (hM : 1 ≤ M) (hN : (oneWindowParams F M b).N ≤ Config.NMAX) :
    (oneWindowParams F M b).legal = true :=
  (Params.legal_iff _).2 ⟨hb, hF, hM, hN, le_rfl, hN.trans (by decide), hF⟩

/-- Settles O21: the bounds of `exists_settled_beta`, with an IO region of one window. -/
theorem everyRealBetaHasAnInstance : Obligations.EveryRealBetaHasAnInstance := by
  unfold Obligations.EveryRealBetaHasAnInstance
  intro F M β hF hM hN
  obtain ⟨b, hsettled, hholds, hlen⟩ := exists_settled_beta β
  have hwindow := oneWindowParams_N (F := F) (M := M) hlen
  exact ⟨oneWindowParams F M b, oneWindowParams_legal hsettled hF hM (hwindow ▸ hN), rfl, rfl,
    hholds, hwindow⟩

end Sys2Proof
end

section
/-! Every step keeps the invariant (rules R24, R29, R30, R42 to R49, R69): one lemma per update of
the state and per operation, then the thirteen commands, then the host's moves. -/

namespace Sys2Proof.Machine

/-! ### Sizes of a legal parameter set -/

theorem OB_le_N (p : Params) : p.OB ≤ p.N := Nat.le_add_right _ _

theorem N_le_iocap_of_legal {p : Params} (h : p.legal = true) : p.N ≤ p.iocap := by
  obtain ⟨-, -, -, -, hN, -⟩ := (Params.legal_iff p).1 h
  exact hN

/-- R25: ACTLEN has a bit for every length up to OB. -/
theorem OB_lt_of_legal {p : Params} (h : p.legal = true) : p.OB < 2 ^ 24 := by
  obtain ⟨-, -, -, hN, -⟩ := (Params.legal_iff p).1 h
  have := OB_le_N p
  unfold Config.NMAX at hN
  omega

theorem M_le_OB_of_legal {p : Params} (h : p.legal = true) : p.M ≤ p.OB := by
  obtain ⟨-, hF, -⟩ := (Params.legal_iff p).1 h
  exact Nat.le_mul_of_pos_right _ hF

/-! ### A command's checks -/

@[simp] theorem onlyReady_iff {ph : Phase} : onlyReady ph = true ↔ ph = .ready := by
  cases ph <;> decide

@[simp] theorem blockCheck_eq_none_iff {len : Nat} {s : State} :
    blockCheck len s = .none ↔ len ≤ s.cfg.M := by simp [blockCheck]

/-! ### Single updates -/

namespace Inv

variable {s t : State} {f : Nat → Elem} {m : Mem} {a n len : Nat}

/-- The invariant reads the parameters, the phase, ACTLEN, the fault record and the memories. -/
theorem of_same_fields (h : Inv s) (hcfg : t.cfg = s.cfg) (hphase : t.phase = s.phase)
    (hactlen : t.actlen = s.actlen) (hcode : t.faultCode = s.faultCode)
    (hcmd : t.faultCmd = s.faultCmd) (hregion : ∀ m, t.region m = s.region m) : Inv t where
  legal := hcfg ▸ h.legal
  actlen_le := by rw [hcfg, hactlen]; exact h.actlen_le
  actlen_callback := by rw [hcfg, hactlen, hphase]; exact h.actlen_callback
  faultCode_iff := by rw [hcode, hphase]; exact h.faultCode_iff
  faultCmd_zero := by rw [hcmd, hphase]; exact h.faultCmd_zero
  memories m := by rw [hcfg, hregion]; exact h.memories m

theorem diag (h : Inv s) (d : Diag) : Inv (s.diag d) := h.of_same_fields (by simp) (by simp)
  (by simp) (by simp) (by simp) (by simp)

theorem advance (h : Inv s) : Inv s.advance := h.of_same_fields rfl rfl rfl rfl rfl (by simp)

theorem clearDiags (h : Inv s) : Inv (clearDiags s) :=
  h.of_same_fields rfl rfl rfl rfl rfl (by simp)

theorem afterTake (h : Inv s) (rest : List Move) : Inv (afterTake s rest) :=
  h.of_same_fields rfl rfl rfl rfl rfl (region_withMoves s rest)

theorem replied (h : Inv s) (r : Reply) : Inv (replied s r) :=
  h.of_same_fields rfl rfl rfl rfl rfl (region_withReply s r)

/-- A range write below the capacity, of elements of the engine's kind. -/
theorem fill (h : Inv s) (hcap : a + n ≤ s.cfg.capacity m)
    (hkind : ∀ i, (f i).kind = s.cfg.kind) : Inv (s.fill m a n f) where
  legal := by simpa using h.legal
  actlen_le := by simpa using h.actlen_le
  actlen_callback := by simpa using h.actlen_callback
  faultCode_iff := by simpa using h.faultCode_iff
  faultCmd_zero := by simpa using h.faultCmd_zero
  memories m' := by
    rw [fill_region, fill_cfg]
    split
    · next hm =>
      subst hm
      exact Memory.fill_wf (h.memories m') hcap fun i _ _ => hkind i
    · exact h.memories m'

theorem setActlen (h : Inv s) (hn : n ≤ s.cfg.OB) (hphase : s.phase ≠ .callback) :
    Inv (s.setActlen n) where
  legal := h.legal
  actlen_le := by
    rw [setActlen_actlen, BitVec.toNat_ofNat, setActlen_cfg]
    exact (Nat.mod_le _ _).trans hn
  actlen_callback hc := absurd hc hphase
  faultCode_iff := h.faultCode_iff
  faultCmd_zero := h.faultCmd_zero
  memories m := by simpa using h.memories m

/-- Outside FAULT the phase moves freely, but into CALLBACK only with F dividing ACTLEN. -/
theorem setPhase (h : Inv s) {ph : Phase} (hs : s.phase ≠ .fault) (hph : ph ≠ .fault)
    (hcallback : ph = .callback → s.cfg.F ∣ s.actlen.toNat) : Inv (s.setPhase ph) where
  legal := h.legal
  actlen_le := h.actlen_le
  actlen_callback := hcallback
  faultCode_iff := iff_of_true (h.faultCode_iff.2 hs) hph
  faultCmd_zero _ := h.faultCmd_zero hs
  memories m := by simpa using h.memories m

theorem raiseFault (h : Inv s) {c : FaultCode} (hc : c ≠ .none) (w : Word) :
    Inv (raiseFault c w s) where
  legal := h.legal
  actlen_le := h.actlen_le
  actlen_callback hcallback := nomatch hcallback
  faultCode_iff := iff_of_false hc fun hne => hne rfl
  faultCmd_zero hne := absurd rfl hne
  memories m := by simpa using h.memories m

theorem resetOf {p : Params} (h : p.legal = true) : Inv (State.resetOf p) where
  legal := h
  actlen_le := Nat.zero_le _
  actlen_callback hc := nomatch hc
  faultCode_iff := iff_of_true rfl nofun
  faultCmd_zero _ := rfl
  memories m := by cases m <;> exact Memory.wf_nil _ _

/-! ### Reads and capacities -/

theorem elem_kind (h : Inv s) (m : Mem) (i : Nat) : (s.elem m i).kind = s.cfg.kind :=
  Memory.get_kind (h.memories m) i

theorem wrappedElem_kind (h : Inv s) (src : Mem) (n j : Nat) :
    (wrappedElem src n s j).kind = s.cfg.kind := by
  unfold wrappedElem
  extract_lets v
  have hv : v.kind = s.cfg.kind := by
    unfold v
    split
    · exact h.elem_kind src j
    · exact zero_kind _
  split
  · exact elemAdd_kind ..
  · exact hv

theorem unwrappedElem_kind (h : Inv s) (j : Nat) : (unwrappedElem s j).kind = s.cfg.kind := by
  unfold unwrappedElem
  split
  · exact elemAdd_kind ..
  · exact h.elem_kind .x j

theorem stuffedElem_kind (s : State) (i : Nat) : (stuffedElem s i).kind = s.cfg.kind := by
  unfold stuffedElem
  split
  · exact elemScale_kind ..
  · exact zero_kind _

theorem N_le_capacity_selMem (h : Inv s) (r : Sel) : s.cfg.N ≤ s.cfg.capacity (selMem r) := by
  cases r
  · exact N_le_iocap_of_legal h.legal
  · exact le_rfl

theorem OB_le_iocap (h : Inv s) : s.cfg.OB ≤ s.cfg.iocap :=
  (OB_le_N _).trans (N_le_iocap_of_legal h.legal)

/-! ### Operations -/

theorem scribble (h : Inv s) (hkind : ∀ i, (f i).kind = s.cfg.kind) : Inv (s.scribble f) :=
  ((h.fill (m := .w) (Nat.zero_add _).le hkind).fill (m := .scr) (by simp [Params.capacity])
    (by simp)).advance

theorem lengthDiag (h : Inv s) (len : Nat) : Inv (lengthDiag len s) := by
  unfold Machine.lengthDiag
  split_ifs
  · exact h.diag .short
  · exact h.diag .long
  · exact h

theorem truncDiag (h : Inv s) (len : Nat) : Inv (truncDiag len s) := by
  unfold Machine.truncDiag
  split_ifs
  · exact h.diag .trunc
  · exact h

theorem buildKernel (h : Inv s) : Inv (buildKernel s) :=
  h.fill (Nat.zero_add _).le (kernelElem_kind _)

theorem transformKernel (h : Inv s) (hs : s.phase ≠ .fault) : Inv (transformKernel s) :=
  ((h.fill (m := .h) (Nat.zero_add _).le (dftKernelElem_kind _ _)).scribble (by simp)).setPhase
    (by simpa using hs) nofun nofun

theorem convolve (h : Inv s) (r : Sel) (len : Nat) : Inv (convolve (selMem r) len s) := by
  have hcap := h.N_le_capacity_selMem r
  exact ((h.lengthDiag len).fill (by rw [lengthDiag_cfg]; omega) (by simp)).scribble (by simp)

/-- R122: the view has room for OB + P = N elements. -/
theorem wrap (h : Inv s) (src : Mem) (len : Nat) (hphase : s.phase ≠ .callback) :
    Inv (wrap src len s) := by
  have hroom : 0 + (min len s.cfg.OB + s.cfg.P) ≤ s.cfg.capacity .x := by
    simp only [Params.capacity, Params.N]
    omega
  exact (((h.truncDiag len).fill (by simpa using hroom)
    (by simpa using h.wrappedElem_kind src _)).setActlen (by simp) (by simpa using hphase)).advance

theorem addTail (h : Inv s) : Inv (addTail s) := by
  unfold Machine.addTail
  split
  · exact h
  · exact h.fill (by simp [Params.capacity, Params.N]) h.unwrappedElem_kind

theorem unwrap (h : Inv s) {dst : Mem} (hcap : s.cfg.OB ≤ s.cfg.capacity dst) :
    Inv (unwrap dst s) := by
  have hlen := h.actlen_le.trans hcap
  exact ((h.addTail.fill (by simpa using hlen) (by simpa using h.unwrappedElem_kind)).fill
    (by simp [Params.capacity]) (by simpa using fun j => h.unwrappedElem_kind _)).advance

theorem clearOverlap (h : Inv s) : Inv (clearOverlap s) :=
  (h.fill (Nat.zero_add _).le fun _ => zero_kind _).fill (by simp [Params.capacity])
    (by simp [State.zero])

theorem zeroStuff (h : Inv s) (hlen : len ≤ s.cfg.M) : Inv (zeroStuff len s) :=
  (h.fill ((Nat.zero_add _).trans_le (Nat.mul_le_mul_right _ hlen)) (stuffedElem_kind s)).advance

theorem decimate (h : Inv s) (hlen : len ≤ s.cfg.OB) : Inv (decimate len s) :=
  h.fill ((Nat.zero_add _).trans_le (hlen.trans h.OB_le_iocap)) fun _ => h.elem_kind ..

theorem filterView (h : Inv s) : Inv (filterView s) := h.convolve .x _

/-- R159: the callback opens on ACTLEN = len·F, which no bound cuts. -/
theorem beginOversample (h : Inv s) (hphase : s.phase = .ready) (hlen : len ≤ s.cfg.M) :
    Inv (beginOversample len s) := by
  have hle : len * s.cfg.F ≤ s.cfg.OB := Nat.mul_le_mul_right _ hlen
  have hlt := hle.trans_lt (OB_lt_of_legal h.legal)
  have hview := ((h.zeroStuff hlen).wrap .os (len * s.cfg.F) (by simp [hphase])).filterView
  refine hview.setPhase (by simp [hphase]) nofun fun _ => ?_
  rw [filterView_actlen, wrap_actlen, zeroStuff_cfg, Nat.min_eq_left hle,
    BitVec.toNat_ofNat, Nat.mod_eq_of_lt hlt]
  simp

theorem endOversample (h : Inv s) (hs : s.phase ≠ .fault) : Inv (endOversample s) := by
  have hsplit : Inv (Machine.unwrap .os (Machine.filterView s)) := h.filterView.unwrap le_rfl
  have hlen : s.actlen.toNat / s.cfg.F ≤ s.cfg.OB := (Nat.div_le_self _ _).trans h.actlen_le
  exact (hsplit.decimate (by simpa using hlen)).setPhase (by simpa using hs) nofun nofun

end Inv

/-! ### Commands -/

/-- The effect of a legal command whose operands fit. -/
theorem effectOf_inv {i : Instr} {s : State} (h : Inv s) (hs : s.phase ≠ .fault)
    (hlegal : legalIn i s.phase = true) (hcheck : checkOf i s = .none) : Inv (effectOf i s) := by
  cases i with
  | nop => exact h
  | kgen => exact h.buildKernel
  | kfft => exact h.transformKernel hs
  | kfreq => exact h.setPhase hs nofun nofun
  | conv r len => exact h.convolve r len
  | ovlwrap len =>
    have hready : s.phase = .ready := onlyReady_iff.1 hlegal
    exact (h.wrap .io len (by simp [hready])).setPhase (by simpa using hs) nofun nofun
  | ovlunwrap =>
    exact (h.unwrap (dst := .io) h.OB_le_iocap).setPhase (by simpa using hs) nofun nofun
  | ovlreset => exact h.clearOverlap
  | ovsbegin len =>
    exact h.beginOversample (onlyReady_iff.1 hlegal) (blockCheck_eq_none_iff.1 hcheck)
  | ovsend => exact h.endOversample hs
  | zstuff len => exact h.zeroStuff (blockCheck_eq_none_iff.1 hcheck)
  | decim len =>
    exact h.decimate ((blockCheck_eq_none_iff.1 hcheck).trans (M_le_OB_of_legal h.legal))
  | diagclr => exact h.clearDiags

theorem exec_inv {i : Instr} {s t : State} (h : Inv s) (hexec : exec i s = .next t) : Inv t := by
  rw [exec_eq_runCommand] at hexec
  obtain ⟨-, rfl⟩ | ⟨-, -, rfl⟩ | ⟨-, -, hcheck, rfl⟩ | ⟨hs, hlegal, hcheck, rfl⟩ :=
    runCommand_cases hexec
  · exact h
  · exact h.raiseFault (c := .badPhase) nofun _
  · exact h.raiseFault hcheck _
  · exact effectOf_inv h hs hlegal hcheck

theorem issue_inv {w : Word} {s t : State} (h : Inv s) (hissue : issue w s = .next t) : Inv t := by
  obtain ⟨-, rfl⟩ | ⟨-, -, rfl⟩ | ⟨-, i, -, hexec⟩ := issue_cases hissue
  · exact h
  · exact h.raiseFault (c := .illegalCmd) nofun w
  · exact exec_inv h hexec

/-! ### Moves of the host -/

/-- R51, R180: `W` and `S` hold free values of the engine's kind. -/
theorem resetMove_inv {s : State} (h : s.cfg.legal = true) : Inv (resetMove s) := by
  have hreset : Inv { State.resetOf s.cfg with
      moves := s.moves, draws := s.draws, reply := .done } :=
    (Inv.resetOf h).of_same_fields rfl rfl rfl rfl rfl fun m => by cases m <;> rfl
  exact (hreset.scribble (hiddenElem_kind _ _)).advance

theorem windowLen_le_N {s : State} (h : Inv s) : windowLen s ≤ s.cfg.N := by
  have hle := h.actlen_le
  unfold windowLen Params.N
  split <;> omega

/-- R62: every index the host may use lies below the capacity. -/
theorem accessBound_le_capacity {s : State} (h : Inv s) (m : Mem) :
    accessBound s m ≤ s.cfg.capacity m := by
  cases m with
  | x => exact windowLen_le_N h
  | io | k | h | pad => exact le_rfl
  | os | w | scr => exact Nat.zero_le _

/-- Settles O45: one case a kind of move; the commands by `effectOf_inv`. -/
theorem stepKeepsTheInvariant : Obligations.StepKeepsTheInvariant := by
  unfold Obligations.StepKeepsTheInvariant
  intro s t h hstep
  obtain ⟨-, rfl⟩ | ⟨rest, -, rfl⟩ | ⟨rest, off, c, -, -, rfl⟩ | ⟨rest, w, -, hissue⟩ |
      ⟨rest, r, i, m, -, -, -, rfl⟩ | ⟨rest, r, i, m, v, -, -, ⟨-, hbound⟩, hkind, rfl⟩ :=
    step_cases hstep
  · exact h
  · exact resetMove_inv h.legal
  · exact (h.afterTake rest).replied _
  · exact issue_inv ((h.afterTake rest).replied _) hissue
  · exact (h.afterTake rest).replied _
  · have hcap := accessBound_le_capacity h m
    exact ((h.afterTake rest).fill (by rw [afterTake_cfg]; omega) fun _ => hkind).replied _

/-- Settles O44: the parameters of `State.reset` are legal. -/
theorem resetMeetsTheInvariant : Obligations.ResetMeetsTheInvariant := by
  unfold Obligations.ResetMeetsTheInvariant
  exact ⟨Inv.resetOf (by decide), fun p hp => Inv.resetOf hp⟩

end Sys2Proof.Machine
end

section
/-! The host's port: a word written to CMD runs its command (rules R34, R70), and what each register
of rule R32's table reads. -/

namespace Sys2Proof.Machine

open Sys2Proof.Claims Sys2Proof.Laws

/-- The step on an offered move is that move: the queue is as it was before the offer (log 3). -/
theorem step_offering (s : State) (m : Move) : step (offering s m) = hostMove m s := rfl

/-! ### Issuing a command -/

theorem lenOperand_lt {i : Instr} (h : WellFormed i) : lenOperand i < 2 ^ 24 := by
  cases i with
  | conv | ovlwrap | ovsbegin | zstuff | decim => exact h
  | nop | kgen | kfft | kfreq | ovlunwrap | ovlreset | ovsend | diagclr =>
    exact Nat.two_pow_pos 24

/-- R80: the three fields of a command's word lead back to it. -/
theorem decode_encode {i : Instr} (h : WellFormed i) : decode (encode i) = some i := by
  obtain ⟨hop, hsub, hlen⟩ : WordFields.Statement i := WordFields.fields_of_append _ _ _
  have hlenNat : (lenField (encode i)).toNat = lenOperand i := by
    rw [hlen, BitVec.toNat_ofNat, Nat.mod_eq_of_lt (lenOperand_lt h)]
  cases i with
  | nop | kgen | kfft | kfreq | ovlunwrap | ovlreset | ovsend | diagclr =>
    simp [decode, hop, opcode, plainCommand, hsub, subCode, hlen, lenOperand]
  | ovlwrap | ovsbegin | zstuff | decim =>
    simp [decode, hop, opcode, lengthCommand, hsub, subCode, hlenNat, lenOperand]
  | conv r len =>
    cases r <;>
      simp [decode, hop, opcode, convCommand, hsub, subCode, selCode, hlenNat, lenOperand]

/-- R70, R157: FAULT ignores a command either way. -/
theorem issue_of_decode {w : Word} {i : Instr} (h : decode w = some i) (s : State) :
    issue w s = exec i s := by
  by_cases hs : s.phase = .fault
  · rw [exec_eq_runCommand, runCommand_of_fault hs, issue, if_pos hs]
  · simp [issue, hs, h]

theorem step_cmdWrite {w : Word} {i : Instr} (h : decode w = some i) (s : State) :
    step (offering s (.csrWrite 0x04 w)) = exec i { s with reply := .done } :=
  issue_of_decode h _

theorem withFetchWord_encode (s : State) (i : Instr) :
    s.withFetchWord 32 (encode i).toNat = offering s (.csrWrite 0x04 (encode i)) := by
  rw [State.withFetchWord, Nat.mod_eq_of_lt (encode i).isLt, BitVec.ofNat_toNat, BitVec.setWidth_eq]
  rfl

/-- Settles O6. -/
theorem stepRunsTheIssuedCommand : Obligations.StepRunsTheIssuedCommand := by
  unfold Obligations.StepRunsTheIssuedCommand
  refine ⟨fun s w i h => step_cmdWrite h s, fun s i h => ?_⟩
  rw [withFetchWord_encode]
  exact step_cmdWrite (decode_encode h) s

/-! ### STATUS -/

theorem phaseCode_toNat (ph : Phase) : ph.code.toNat = phaseNumber ph := by cases ph <;> rfl

/-- R35: PHASE below BUSY and DIAG_ANY. -/
theorem statusWord_toNat (s : State) :
    (statusWord s).toNat = phaseNumber s.phase + diagNumber s := by
  rw [statusWord, diagAny, diagNumber]
  by_cases h : 0 < s.diagShort.toNat + s.diagLong.toNat + s.diagTrunc.toNat
  · cases s.phase <;> simp [h, Phase.code, phaseNumber]
  · cases s.phase <;> simp [h, Phase.code, phaseNumber]

/-- Settles O42: each field is a part of the concatenation that `statusWord` is. -/
theorem statusFields : Obligations.StatusFields := by
  unfold Obligations.StatusFields
  intro s
  refine ⟨?_, ?_, ?_, ?_⟩
  · rw [statusWord, BitVec.extractLsb'_append_eq_right, phaseCode_toNat]
  · rw [statusWord, BitVec.getLsbD_append, if_neg (by decide), BitVec.getLsbD_append,
      if_pos (by decide)]
    rfl
  · rw [statusWord, BitVec.getLsbD_append, if_neg (by decide), BitVec.getLsbD_append,
      if_neg (by decide), BitVec.getLsbD_append, if_pos (by decide)]
    simp [diagAny]
  · rw [statusWord, BitVec.extractLsb'_append_eq_of_le (by decide),
      BitVec.extractLsb'_append_eq_of_le (by decide)]
    exact BitVec.extractLsb'_append_eq_left

/-! ### The register table -/

/-- A register's row of rule R32's table: the number it reads. -/
def tableValue (s : State) : Csr → Nat
  | .id => 0x46434531
  | .cmd => 0
  | .status => phaseNumber s.phase + diagNumber s
  | .faultcode => faultNumber s.faultCode
  | .faultcmd => s.faultCmd.toNat
  | .actlen => s.actlen.toNat
  | .viewlen => s.actlen.toNat + (s.cfg.L - 1)
  | .cfgFactor => s.cfg.F
  | .cfgMaxblk => s.cfg.M
  | .cfgKlen => s.cfg.L
  | .cfgPad => s.cfg.L - 1
  | .cfgN => s.cfg.M * s.cfg.F + s.cfg.L - 1
  | .cfgOb => s.cfg.M * s.cfg.F
  | .cfgIocap => s.cfg.iocap
  | .cfgFlags => flagsNumber s.cfg
  | .latency => (s.cfg.L - 1) / s.cfg.latDiv
  | .diagShort => s.diagShort.toNat
  | .diagLong => s.diagLong.toNat
  | .diagTrunc => s.diagTrunc.toNat

theorem csrRows_eq_map (s : State) :
    csrRows s = allCsrs.map fun c => (c.offset, tableValue s c) := rfl

/-- R10: N = M·F + L − 1, since L ≥ 1. -/
theorem N_eq (p : Params) : p.N = p.M * p.F + p.L - 1 := by
  have hL := kernelLength_odd p
  simp only [Params.N, Params.OB, Params.P]
  omega

/-- R38: FP64 below TAIL_POST. -/
theorem cfgFlags_toNat (p : Params) : (cfgFlags p).toNat = flagsNumber p := by
  cases hf : p.fp <;> cases ht : p.tailAdd <;> simp [cfgFlags, flagsNumber, hf, ht]

theorem readCsr_eq_tableValue (s : State) (c : Csr) :
    readCsr s c = BitVec.ofNat 32 (tableValue s c) := by
  cases c with
  | status =>
    simp only [tableValue, readCsr, ← statusWord_toNat, BitVec.ofNat_toNat, BitVec.setWidth_eq]
  | faultcode =>
    simp only [tableValue, readCsr]
    cases s.faultCode <;> rfl
  | cfgN => simp only [tableValue, readCsr, N_eq]
  | cfgFlags =>
    simp only [tableValue, readCsr, ← cfgFlags_toNat, BitVec.ofNat_toNat, BitVec.setWidth_eq]
  | faultcmd | actlen | diagShort | diagLong | diagTrunc => simp [tableValue, readCsr]
  | id | cmd | viewlen | cfgFactor | cfgMaxblk | cfgKlen | cfgPad | cfgOb | cfgIocap | latency =>
    rfl

theorem csrAt_offset (c : Csr) : csrAt c.offset = some c := by cases c <;> rfl

theorem csrAt_eq_none_iff {off : Nat} : csrAt off = none ↔ off ∉ allCsrs.map Csr.offset := by
  simp [csrAt]

theorem registerRead_offset (c : Csr) (s : State) : registerRead c.offset s =
    .next { s with reply := .csr (BitVec.ofNat 32 (tableValue s c)) } := by
  simp [registerRead, csrAt_offset, readCsr_eq_tableValue]

theorem registerRead_unmapped {off : Nat} (h : csrAt off = none) (s : State) :
    registerRead off s = .refused (.csrAccess off) := by
  simp [registerRead, h]

/-! ### The registers after `Reset` -/

section

variable (s : State)

@[simp] theorem resetMove_cfg : (resetMove s).cfg = s.cfg := by simp [resetMove, State.resetOf]
@[simp] theorem resetMove_phase : (resetMove s).phase = .unbuilt := by
  simp [resetMove, State.resetOf]
@[simp] theorem resetMove_actlen : (resetMove s).actlen = 0 := by simp [resetMove, State.resetOf]
@[simp] theorem resetMove_faultCode : (resetMove s).faultCode = .none := by
  simp [resetMove, State.resetOf]
@[simp] theorem resetMove_faultCmd : (resetMove s).faultCmd = 0 := by
  simp [resetMove, State.resetOf]
@[simp] theorem resetMove_diagShort : (resetMove s).diagShort = 0 := by
  simp [resetMove, State.resetOf]
@[simp] theorem resetMove_diagLong : (resetMove s).diagLong = 0 := by
  simp [resetMove, State.resetOf]
@[simp] theorem resetMove_diagTrunc : (resetMove s).diagTrunc = 0 := by
  simp [resetMove, State.resetOf]

/-- R32's reset column. -/
theorem csrRows_resetMove : csrRows (resetMove s) = csrResetRows s.cfg := by
  simp [csrRows, csrResetRows, diagNumber, phaseNumber, faultNumber]

end

/-- Settles O41: the table's rows are those of `allCsrs`, in which `csrAt` looks an offset up. -/
theorem registersReadTheirTable : Obligations.RegistersReadTheirTable := by
  unfold Obligations.RegistersReadTheirTable
  refine ⟨fun s row hrow => ?_, fun s off hoff => ?_, fun s off v hoff => ?_, fun s t ht => ?_⟩
  · obtain ⟨c, -, rfl⟩ := List.mem_map.1 (csrRows_eq_map s ▸ hrow)
    exact registerRead_offset c s
  · rw [csrRows_eq_map, List.map_map] at hoff
    exact registerRead_unmapped (csrAt_eq_none_iff.2 hoff) s
  · exact if_neg hoff
  · obtain rfl := Host.Outcome.next.inj ht
    exact csrRows_resetMove s

end Sys2Proof.Machine
end

section
/-! The sample space: the model's rights and bounds are rule R62's table, and what a read and a
write give with the right and without it (rules R58, R62, R63). -/

namespace Sys2Proof.Machine

open Sys2Proof.Claims

/-! ### Region codes and rights -/

/-- R57. -/
theorem bankOf_of_mem_banks {r : BitVec 4} {m : Mem} (h : (r, m) ∈ banks) : bankOf r = some m :=
  (by decide : ∀ b ∈ banks, bankOf b.1 = some b.2) (r, m) h

theorem bankOf_of_five_le {r : BitVec 4} (h : 5 ≤ r.toNat) : bankOf r = none := by
  unfold bankOf
  split
  case h_6 => rfl
  all_goals omega

/-- The model keeps rule R62's right and bound apart; the table's entry is both. -/
theorem mayRead_and_lt_iff {s : State} {m : Mem} {i : Nat} :
    mayRead s.phase m = true ∧ i < accessBound s m ↔ ReadRight s m i := by
  cases m with
  | x => cases h : s.phase <;> simp [ReadRight, mayRead, accessBound, onlyWindow, windowLen, h]
  | io | k | h | pad | os | w | scr => simp [ReadRight, mayRead, accessBound]

theorem mayWrite_and_lt_iff {s : State} {m : Mem} {i : Nat} :
    mayWrite s.phase m = true ∧ i < accessBound s m ↔ WriteRight s m i := by
  cases m with
  | x => cases h : s.phase <;> simp [WriteRight, mayWrite, accessBound, onlyWindow, windowLen, h]
  | io | k | h =>
    cases h : s.phase <;> simp [WriteRight, mayWrite, accessBound, onlyUnbuilt, onlyReady, h]
  | pad | os | w | scr => simp [WriteRight, mayWrite]

/-! ### One access -/

section

variable {s : State} {r : BitVec 4} {i : BitVec 24} {m : Mem} {v : Elem}

theorem sampleRead_of_right (hm : bankOf r = some m) (h : ReadRight s m i.toNat) :
    sampleRead r i s = .next (replied s (.sample (s.elem m i.toNat))) := by
  simp [sampleRead, hm, mayRead_and_lt_iff, h, replied]

theorem sampleRead_of_not_right (hm : bankOf r = some m) (h : ¬ReadRight s m i.toNat) :
    sampleRead r i s = .refused (.sampleAccess r i) := by
  simp [sampleRead, hm, mayRead_and_lt_iff, h]

theorem sampleWrite_of_right (hm : bankOf r = some m) (h : WriteRight s m i.toNat)
    (hv : v.kind = s.cfg.kind) :
    sampleWrite r i v s = .next (replied (s.fill m i.toNat 1 fun _ => v) .done) := by
  simp [sampleWrite, hm, mayWrite_and_lt_iff, h, hv, replied]

theorem sampleWrite_of_not_right (hm : bankOf r = some m) (h : ¬WriteRight s m i.toNat) :
    sampleWrite r i v s = .refused (.sampleAccess r i) := by
  simp [sampleWrite, hm, mayWrite_and_lt_iff, h]

theorem sampleRead_of_reserved (hr : bankOf r = none) :
    sampleRead r i s = .refused (.sampleAccess r i) := by
  simp [sampleRead, hr]

theorem sampleWrite_of_reserved (hr : bankOf r = none) :
    sampleWrite r i v s = .refused (.sampleAccess r i) := by
  simp [sampleWrite, hr]

end

theorem elem_fill_one_same (s : State) (m : Mem) (i : Nat) (f : Nat → Elem) :
    (s.fill m i 1 f).elem m i = f i := by
  rw [elem_fill, if_pos ⟨rfl, le_rfl, Nat.lt_succ_self i⟩]

theorem elem_fill_one_of_ne (s : State) (m : Mem) {i j : Nat} (h : j ≠ i) (f : Nat → Elem) :
    (s.fill m i 1 f).elem m j = s.elem m j := by
  rw [elem_fill, if_neg (by omega)]

/-- Settles O43: the port looks the code up, then asks for the table's right; the write is a range
write of length one. -/
theorem sampleAccessFollowsTheRights : Obligations.SampleAccessFollowsTheRights := by
  unfold Obligations.SampleAccessFollowsTheRights
  intro s r i
  simp only [step_offering, hostMove]
  refine ⟨fun m hbank => ?_, fun hr => ?_⟩
  · have hm := bankOf_of_mem_banks hbank
    refine ⟨sampleRead_of_right hm, sampleRead_of_not_right hm, fun v => ⟨fun hw hv => ?_,
      sampleWrite_of_not_right hm⟩⟩
    refine ⟨_, sampleWrite_of_right hm hw hv, ?_, fun j hj => ?_, fun m' hm' j => ?_, ?_⟩
    · rw [elem_replied, elem_fill_one_same]
    · rw [elem_replied, elem_fill_one_of_ne s m hj]
    · rw [elem_replied, elem_fill_ne (List.mem_singleton.not.1 hm')]
    · simp [SameDiags, replied]
  · have hm := bankOf_of_five_le hr
    exact ⟨sampleRead_of_reserved hm, fun _ => sampleWrite_of_reserved hm⟩

end Sys2Proof.Machine
end

section
/-! The encoding in the other direction: a legal word is put together from its three fields, which
are those of its command (rules R71 to R76, R80); the list of rule R76; the assembler's lines (rules
R82, R83); the lengths over the bound of `CONV` and `OVLWRAP` (rules R81, R165). -/

namespace Sys2Proof.Machine

open Sys2Proof.Claims Sys2Proof.Laws

/-- Settles O3. -/
theorem decodeOfEncode : Obligations.DecodeOfEncode := by
  unfold Obligations.DecodeOfEncode
  exact fun _ => decode_encode

/-! ### A word that decodes -/

/-- R71: OP ‖ SUB ‖ LEN is the whole word. -/
theorem append_fields (w : Word) : opField w ++ subField w ++ lenField w = w := by
  calc opField w ++ subField w ++ lenField w
      _ = w.extractLsb' 24 8 ++ lenField w :=
        congrArg (· ++ lenField w) (BitVec.extractLsb'_append_extractLsb'_eq_extractLsb' rfl)
      _ = w.extractLsb' 0 32 := BitVec.extractLsb'_append_extractLsb'_eq_extractLsb' rfl
      _ = w := BitVec.extractLsb'_eq_self

/-- The opcode, the SUB code and the length operand of `i` are the fields of `w`. -/
def HasFields (w : Word) (i : Instr) : Prop :=
  opcode i = opField w ∧ subCode i = subField w ∧ lenOperand i = (lenField w).toNat

theorem encode_of_hasFields {w : Word} {i : Instr} (h : HasFields w i) : encode i = w := by
  obtain ⟨hop, hsub, hlen⟩ := h
  rw [encode, hop, hsub, hlen, BitVec.ofNat_toNat, BitVec.setWidth_eq, append_fields]

theorem wellFormed_of_lenOperand_lt {i : Instr} (h : lenOperand i < 2 ^ 24) : WellFormed i := by
  cases i with
  | conv | ovlwrap | ovsbegin | zstuff | decim => exact h
  | nop | kgen | kfft | kfreq | ovlunwrap | ovlreset | ovsend | diagclr => trivial

/-- R73: the field LEN has 24 bits. -/
theorem wellFormed_of_hasFields {w : Word} {i : Instr} (h : HasFields w i) : WellFormed i := by
  obtain ⟨-, -, hlen⟩ := h
  exact wellFormed_of_lenOperand_lt (hlen ▸ (lenField w).isLt)

/-- R75: nothing but the opcode is set in the word of a command without operands. -/
theorem hasFields_of_plainCommand {w : Word} {i j : Instr} (h : plainCommand w j = some i)
    (hop : opcode j = opField w) (hsub : subCode j = 0) (hlen : lenOperand j = 0) :
    HasFields w i := by
  unfold plainCommand at h
  split_ifs at h with hw
  obtain ⟨hsubw, hlenw⟩ := hw
  obtain rfl := Option.some.inj h
  exact ⟨hop, by rw [hsub, hsubw], by rw [hlen, hlenw]; rfl⟩

/-- R75: SUB is 0 in the word of a command with only a length. -/
theorem hasFields_of_lengthCommand {w : Word} {i : Instr} {f : Nat → Instr}
    (h : lengthCommand w f = some i) (hop : ∀ len, opcode (f len) = opField w)
    (hsub : ∀ len, subCode (f len) = 0) (hlen : ∀ len, lenOperand (f len) = len) :
    HasFields w i := by
  unfold lengthCommand at h
  split_ifs at h with hsubw
  obtain rfl := Option.some.inj h
  exact ⟨hop _, by rw [hsub, hsubw], hlen _⟩

/-- R77: SUB is the region's code in the word of `CONV`. -/
theorem hasFields_of_convCommand {w : Word} {i : Instr} (h : convCommand w = some i)
    (hop : 0x4 = opField w) : HasFields w i := by
  unfold convCommand at h
  split_ifs at h with hio hx
  · obtain rfl := Option.some.inj h
    exact ⟨hop, hio.symm, rfl⟩
  · obtain rfl := Option.some.inj h
    exact ⟨hop, hx.symm, rfl⟩

/-- R80: the decoder reads each of the three fields of the command off the word. -/
theorem hasFields_of_decode {w : Word} {i : Instr} (h : decode w = some i) : HasFields w i := by
  have hop {n : Nat} (hn : (opField w).toNat = n) : BitVec.ofNat 4 n = opField w := by
    rw [← hn, BitVec.ofNat_toNat, BitVec.setWidth_eq]
  unfold decode at h
  split at h
  case h_1 hn | h_2 hn | h_3 hn | h_4 hn | h_7 hn | h_8 hn | h_10 hn | h_13 hn =>
    exact hasFields_of_plainCommand h (hop hn) rfl rfl
  case h_6 hn | h_9 hn | h_11 hn | h_12 hn =>
    exact hasFields_of_lengthCommand h (fun _ => hop hn) (fun _ => rfl) fun _ => rfl
  case h_5 hn => exact hasFields_of_convCommand h (hop hn)
  case h_14 => cases h

/-- Settles O4: the command's fields are the word's. -/
theorem encodeOfDecode : Obligations.EncodeOfDecode := by
  unfold Obligations.EncodeOfDecode
  intro w i h
  have hfields := hasFields_of_decode h
  exact ⟨wellFormed_of_hasFields hfields, encode_of_hasFields hfields⟩

/-! ### The list of legal words -/

/-- The commands without a length. -/
def plainCommands : List Instr :=
  [.nop, .kgen, .kfft, .kfreq, .ovlunwrap, .ovlreset, .ovsend, .diagclr]

/-- The commands with a length; `CONV` counts once for each region. -/
def lengthCommands : List (Nat → Instr) :=
  [.conv .io, .conv .x, .ovlwrap, .ovsbegin, .zstuff, .decim]

theorem fixedWords_eq_map : fixedWords = plainCommands.map encode := by decide

theorem lengthWords_eq_map : lengthWords = lengthCommands.map fun cmd => encode (cmd 0) := by decide

theorem mem_plainCommands_or_lengthCommands (i : Instr) :
    i ∈ plainCommands ∨ ∃ cmd ∈ lengthCommands, i = cmd (lenOperand i) := by
  cases i with
  | nop | kgen | kfft | kfreq | ovlunwrap | ovlreset | ovsend | diagclr =>
    exact .inl (by decide)
  | ovlwrap | ovsbegin | zstuff | decim => exact .inr ⟨_, by simp [lengthCommands], rfl⟩
  | conv r =>
    refine .inr ⟨.conv r, ?_, rfl⟩
    cases r <;> simp [lengthCommands]

theorem wellFormed_of_mem_plainCommands {i : Instr} (h : i ∈ plainCommands) : WellFormed i := by
  apply wellFormed_of_lenOperand_lt
  revert i
  decide

theorem toNat_append_length (op sub : BitVec 4) {len : Nat} (h : len < 2 ^ 24) :
    BitVec.toNat (w := 32) (op ++ sub ++ BitVec.ofNat 24 len) =
      (op ++ sub).toNat <<< 24 ||| len := by
  rw [BitVec.toNat_append, BitVec.toNat_ofNat, Nat.mod_eq_of_lt h]

/-- R71: a length that fits its field is or-ed into the word. -/
theorem append_length_eq_or (op sub : BitVec 4) {len : Nat} (h : len < 2 ^ 24) :
    op ++ sub ++ BitVec.ofNat 24 len =
      (op ++ sub ++ BitVec.ofNat 24 0) ||| BitVec.ofNat 32 len := by
  apply BitVec.eq_of_toNat_eq
  rw [BitVec.toNat_or, BitVec.toNat_ofNat, Nat.mod_eq_of_lt (by omega)]
  exact (toNat_append_length op sub h).trans
    (by rw [toNat_append_length op sub (by omega), Nat.or_zero])

/-- R73, R74: a command's word is its base word or its length. -/
theorem encodesAs_of_mem_lengthCommands {cmd : Nat → Instr} (h : cmd ∈ lengthCommands) :
    EncodesAs (encode (cmd 0)) cmd := by
  intro len hlen
  simp only [lengthCommands, List.mem_cons, List.not_mem_nil, or_false] at h
  obtain rfl | rfl | rfl | rfl | rfl | rfl := h <;> exact append_length_eq_or _ _ hlen

theorem wellFormed_of_mem_lengthCommands {cmd : Nat → Instr} (h : cmd ∈ lengthCommands) {len : Nat}
    (hlen : len < 2 ^ 24) : WellFormed (cmd len) := by
  simp only [lengthCommands, List.mem_cons, List.not_mem_nil, or_false] at h
  obtain rfl | rfl | rfl | rfl | rfl | rfl := h <;> exact hlen

/-- R76: the listed words are the words of the commands. -/
theorem legalWord_iff_encode {w : Word} : LegalWord w ↔ ∃ i, WellFormed i ∧ encode i = w := by
  unfold LegalWord
  rw [fixedWords_eq_map, lengthWords_eq_map]
  constructor
  · rintro (h | ⟨b, hb, len, hlen, rfl⟩)
    · obtain ⟨i, hi, rfl⟩ := List.mem_map.1 h
      exact ⟨i, wellFormed_of_mem_plainCommands hi, rfl⟩
    · obtain ⟨cmd, hcmd, rfl⟩ := List.mem_map.1 hb
      exact ⟨cmd len, wellFormed_of_mem_lengthCommands hcmd hlen,
        encodesAs_of_mem_lengthCommands hcmd len hlen⟩
  · rintro ⟨i, hi, rfl⟩
    obtain hplain | ⟨cmd, hcmd, hlen⟩ := mem_plainCommands_or_lengthCommands i
    · exact .inl (List.mem_map_of_mem hplain)
    · refine .inr ⟨_, List.mem_map_of_mem hcmd, _, lenOperand_lt hi, ?_⟩
      rw [← encodesAs_of_mem_lengthCommands hcmd _ (lenOperand_lt hi), ← hlen]

theorem exists_decode_iff_legalWord {w : Word} : (∃ i, decode w = some i) ↔ LegalWord w := by
  rw [legalWord_iff_encode]
  constructor
  · rintro ⟨i, h⟩
    exact ⟨i, encodeOfDecode w i h⟩
  · rintro ⟨i, hi, rfl⟩
    exact ⟨i, decode_encode hi⟩

theorem decode_eq_none_iff {w : Word} : decode w = none ↔ ¬LegalWord w := by
  rw [← exists_decode_iff_legalWord, ← Option.ne_none_iff_exists', not_not]

/-- R76, R166: outside FAULT an illegal word raises `ILLEGAL_CMD`. -/
theorem issue_of_decode_eq_none {w : Word} (h : decode w = none) {s : State}
    (hs : s.phase ≠ .fault) : issue w s = .next (raiseFault .illegalCmd w s) := by
  simp [issue, hs, h]

/-- Settles O5. -/
theorem legalWordsAreExactlyListed : Obligations.LegalWordsAreExactlyListed := by
  unfold Obligations.LegalWordsAreExactlyListed
  refine fun w => ⟨exists_decode_iff_legalWord, fun hw s hs => ?_⟩
  exact issue_of_decode_eq_none (decode_eq_none_iff.2 hw) (s := { s with reply := .done }) hs

/-! ### Words and lines written out -/

/-- Settles O1: the decoder computes each of the nine words. -/
theorem listedWordsDecode : Obligations.ListedWordsDecode := by
  unfold Obligations.ListedWordsDecode
  decide

/-- Settles O2: the tokens of each line do not depend on the parameters, and only `FILTER`'s
expansion names them. -/
theorem listingLinesAssemble : Obligations.ListingLinesAssemble := by
  unfold Obligations.ListingLinesAssemble
  intro p
  exact ⟨rfl, rfl, rfl, rfl, rfl, rfl, rfl, rfl⟩

/-! ### A length over its bound -/

/-- R157: no command is legal in FAULT. -/
theorem ne_fault_of_legalIn {i : Instr} {ph : Phase} (h : legalIn i ph = true) : ph ≠ .fault := by
  rintro rfl
  cases i with
  | conv r => cases r <;> cases h
  | _ => cases h

/-- R81, R166: a command legal in its phase whose operand check fails raises the check's fault. -/
theorem exec_of_check {i : Instr} {s : State} {code : FaultCode} (hlegal : legalIn i s.phase = true)
    (hcheck : checkOf i s = code) (hcode : code ≠ .none) :
    exec i s = .next (raiseFault code (encode i) s) := by
  subst hcheck
  rw [exec_eq_runCommand, runCommand_of_check (ne_fault_of_legalIn hlegal) hlegal hcode]

theorem ioCheck_of_lt {len : Nat} {s : State} (h : s.cfg.iocap < len) :
    ioCheck len s = .badOperand := if_neg (by omega)

theorem windowLen_inner {s : State} (h : s.phase = .inner) :
    windowLen s = s.actlen.toNat + s.cfg.P := by simp [windowLen, h]

theorem windowLen_callback {s : State} (h : s.phase = .callback) :
    windowLen s = s.actlen.toNat := by simp [windowLen, h]

theorem windowCheck_of_lt {len : Nat} {s : State} (h : windowLen s < len) :
    windowCheck len s = .badOperand := if_neg (by omega)

/-- Settles O14: in the phases the statement names the command is legal, so its operand check
decides. -/
theorem oversizedLengthIsBadOperand : Obligations.OversizedLengthIsBadOperand := by
  unfold Obligations.OversizedLengthIsBadOperand
  refine ⟨fun s len hs hlen => ?_, fun s len hs hlen => ?_, fun s len h => ?_⟩
  · exact exec_of_check (onlyReady_iff.2 hs) (ioCheck_of_lt hlen) nofun
  · exact exec_of_check (onlyReady_iff.2 hs) (ioCheck_of_lt hlen) nofun
  · obtain ⟨hs, hlen⟩ | ⟨hs, hlen⟩ := h
    · exact exec_of_check (by rw [hs]; rfl)
        (windowCheck_of_lt (by rwa [windowLen_inner hs])) nofun
    · exact exec_of_check (by rw [hs]; rfl)
        (windowCheck_of_lt (by rwa [windowLen_callback hs])) nofun

end Sys2Proof.Machine
end

section
/-! The sinc kernel unit: what `KGEN` writes (rules R91, R94, R98), the coefficients in exact
arithmetic (rules R92, R93), and the pure delay at F = 1 (rule R95). -/

namespace Sys2Proof.Machine

open Sys2Proof.Reference Sys2Proof.Claims

/-! ### A command by its phase -/

@[simp] theorem onlyUnbuilt_iff {ph : Phase} : onlyUnbuilt ph = true ↔ ph = .unbuilt := by
  cases ph <;> simp [onlyUnbuilt]

/-- R70: a command legal in its phase, with operands that fit, has its effect. -/
theorem exec_of_legal {i : Instr} {s : State} (hlegal : legalIn i s.phase = true)
    (hcheck : checkOf i s = .none) : exec i s = .next (effectOf i s) := by
  rw [exec_eq_runCommand, runCommand_of_legal (ne_fault_of_legalIn hlegal) hlegal hcheck]

/-- R81: the phases listed are all those in which the command is legal. -/
theorem badPhaseOutside_of_legalIn {i : Instr} {phases : List Phase}
    (h : ∀ ph, legalIn i ph = true → ph ∈ phases) : BadPhaseOutside phases i := by
  intro s hout hfault
  rw [exec_eq_runCommand, runCommand_of_illegal hfault (Bool.eq_false_iff.2 (mt (h _) hout))]
  rfl

/-! ### `KGEN` -/

theorem exec_kgen {s : State} (h : s.phase = .unbuilt) : exec .kgen s = .next (buildKernel s) :=
  exec_of_legal (onlyUnbuilt_iff.2 h) rfl

theorem elem_buildKernel_k {s : State} {i : Nat} (h : i < s.cfg.N) :
    (buildKernel s).elem .k i = kernelElem s.cfg i := by
  rw [elem_buildKernel, if_pos ⟨rfl, h⟩]

theorem elem_buildKernel_k_of_ge {s : State} {i : Nat} (h : s.cfg.N ≤ i) :
    (buildKernel s).elem .k i = s.elem .k i := by
  rw [elem_buildKernel, if_neg (by omega)]

theorem elem_buildKernel_ne {s : State} {m : Mem} (h : m ≠ .k) (i : Nat) :
    (buildKernel s).elem m i = s.elem m i := by
  rw [elem_buildKernel, if_neg fun hm => h hm.1]

/-- R91: the elements do not depend on what `K` held. -/
theorem elem_buildKernel_buildKernel (s : State) (i : Nat) :
    (buildKernel (buildKernel s)).elem .k i = (buildKernel s).elem .k i := by
  by_cases h : i < s.cfg.N
  · rw [elem_buildKernel_k (by simpa using h), elem_buildKernel_k h, buildKernel_cfg]
  · exact elem_buildKernel_k_of_ge (by simpa using h)

/-- Settles O17. -/
theorem kgenWritesTheKernel : Obligations.KgenWritesTheKernel := by
  unfold Obligations.KgenWritesTheKernel
  refine ⟨fun s hs => ?_, badPhaseOutside_of_legalIn fun ph h => ?_, rfl⟩
  · refine ⟨_, exec_kgen hs, fun i hi => elem_buildKernel_k hi, fun i => elem_buildKernel_k_of_ge,
      fun m hm => elem_buildKernel_ne (List.mem_singleton.not.1 hm), by simp [SameRecord],
      by simp [SameDiags], buildKernel_phase s, buildKernel_actlen s, ?_⟩
    exact ⟨_, exec_kgen ((buildKernel_phase s).trans hs), elem_buildKernel_buildKernel s⟩
  · exact List.mem_singleton.2 (onlyUnbuilt_iff.1 h)

/-! ### The exact coefficients -/

theorem L_le_N_of_legal {p : Params} (h : p.legal = true) : p.L ≤ p.N := by
  obtain ⟨-, -, hM, -⟩ := (Params.legal_iff p).1 h
  have hOB := M_le_OB_of_legal h
  unfold Params.N Params.P
  omega

theorem one_le_F_of_legal {p : Params} (h : p.legal = true) : 1 ≤ p.F := by
  obtain ⟨-, hF, -⟩ := (Params.legal_iff p).1 h
  exact hF

/-- R93, R94: the normalised coefficient below L, 0 from L on. -/
theorem elemReal_kernelElem {p : Params} (hp : p.arith = .exact) (hF : 1 ≤ p.F) (i : Nat) :
    elemReal (kernelElem p i) =
      if i < p.L then rawCoefficient p.F p.L i / rawCoefficientSum p.F p.L else 0 := by
  by_cases h : i < p.L
  · rw [kernelElem, if_pos h, if_pos h, kgenElem, elemOf_exact hp, elemReal_real, kernelTap,
      realOf_exactMul, realOf_exactInv, realOf_rawTap p hF, realOf_rawSum p hF, div_eq_mul_inv]
  · rw [kernelElem, if_neg h, if_neg h, elemReal_zero hp]

/-- R93: unity DC gain. -/
theorem sum_rawCoefficient_div {F L : ℕ} (hF : 1 ≤ F) (hL : L % 2 = 1) :
    ∑ i ∈ Finset.range L, rawCoefficient F L i / rawCoefficientSum F L = 1 := by
  rw [← Finset.sum_div]
  exact div_self (rawCoefficientSum_pos hF hL).ne'

/-- Settles O18: the quotients sum to 1 since `rawCoefficientSum_pos` allows the division. -/
theorem kgenIsTheNormalisedWindowedSinc : Obligations.KgenIsTheNormalisedWindowedSinc := by
  unfold Obligations.KgenIsTheNormalisedWindowedSinc
  intro s hs hlegal hexact
  have hF := one_le_F_of_legal hlegal
  have hL := kernelLength_odd s.cfg
  have hcoeff : ∀ i, i < s.cfg.L → elemReal ((buildKernel s).elem .k i) =
      rawCoefficient s.cfg.F s.cfg.L i / rawCoefficientSum s.cfg.F s.cfg.L := fun i hi => by
    rw [elem_buildKernel_k (hi.trans_le (L_le_N_of_legal hlegal)), elemReal_kernelElem hexact hF,
      if_pos hi]
  refine ⟨rawCoefficientSum_pos hF hL, _, exec_kgen hs, hcoeff, ?_⟩
  rw [Finset.sum_congr rfl fun i hi => hcoeff i (Finset.mem_range.1 hi),
    sum_rawCoefficient_div hF hL]

/-! ### F = 1 -/

/-- At F = 1 the sinc is 0 at every tap but the centre. -/
theorem sincAt_one (d : ℕ) : sincAt 1 d = if d = 0 then 1 else 0 := by
  have hsin : Real.sin (d * (Real.pi / (1 : ℕ))) = 0 := by
    rw [Nat.cast_one, div_one, Real.sin_nat_mul_pi]
  have hzero : (d * (Real.pi / (1 : ℕ)) : ℝ) = 0 ↔ d = 0 := by simp [Real.pi_ne_zero]
  rw [sincAt, sinc, hsin, zero_div, if_congr hzero rfl rfl]

theorem rawCoefficient_one (m i : ℕ) : rawCoefficient 1 (2 * m + 1) i =
    if i = m then hamming (2 * m + 1) m else 0 := by
  obtain ⟨d, rfl | ⟨hd, rfl⟩⟩ : ∃ d, i = m + d ∨ (d ≤ m ∧ i = m - d) := by
    rcases le_total m i with h | h
    · exact ⟨i - m, .inl (by omega)⟩
    · exact ⟨m - i, .inr (by omega)⟩
  · rw [(rawCoefficient_around le_rfl m d).1, sincAt_one]
    by_cases h : d = 0 <;> simp [h]
  · rw [(rawCoefficient_around le_rfl m d).2 hd, sincAt_one]
    by_cases h : d = 0
    · simp [h]
    · rw [if_neg h, if_neg (by omega), zero_mul]

theorem rawCoefficientSum_one (m : ℕ) :
    rawCoefficientSum 1 (2 * m + 1) = hamming (2 * m + 1) m := by
  rw [rawCoefficientSum, Finset.sum_congr rfl fun i _ => rawCoefficient_one m i,
    Finset.sum_ite_eq', if_pos (Finset.mem_range.2 (by omega))]

/-- R95: the centre tap is the whole sum. -/
theorem rawCoefficient_one_div_sum {L : ℕ} (hL : L % 2 = 1) (i : ℕ) :
    rawCoefficient 1 L i / rawCoefficientSum 1 L = if i = (L - 1) / 2 then 1 else 0 := by
  obtain ⟨m, rfl⟩ : ∃ m, L = 2 * m + 1 := ⟨L / 2, by omega⟩
  rw [rawCoefficient_one, rawCoefficientSum_one, ite_div, div_self (hamming_pos _ _).ne', zero_div,
    show (2 * m + 1 - 1) / 2 = m by omega]

/-- Settles O19: from L on both sides are 0, since (L − 1)/2 is below L. -/
theorem kgenAtFactorOneIsADelay : Obligations.KgenAtFactorOneIsADelay := by
  unfold Obligations.KgenAtFactorOneIsADelay
  intro s hs _ hexact hF
  have hL := kernelLength_odd s.cfg
  refine ⟨_, exec_kgen hs, fun i hi => ?_⟩
  rw [elem_buildKernel_k hi, elemReal_kernelElem hexact hF.ge, hF]
  by_cases h : i < s.cfg.L
  · rw [if_pos h, rawCoefficient_one_div_sum hL]
  · rw [if_neg h, if_neg (by omega)]

end Sys2Proof.Machine
end

section
/-! `kernel_length(β)` is the smallest odd number from L0 on (rules R10, R90), and the L of all
parameters whose data stands for β (log 2). -/

namespace Sys2Proof

open Sys2Proof.Reference

theorem kernelLengthOf_odd (β : ℝ) : kernelLengthOf β % 2 = 1 := by
  unfold kernelLengthOf
  split_ifs <;> omega

theorem initialLength_le_kernelLengthOf (β : ℝ) : initialLength β ≤ kernelLengthOf β := by
  unfold kernelLengthOf
  split_ifs <;> omega

theorem kernelLengthOf_le {β : ℝ} {n : ℕ} (hodd : n % 2 = 1) (hn : initialLength β ≤ n) :
    kernelLengthOf β ≤ n := by
  unfold kernelLengthOf
  split_ifs <;> omega

theorem kernelLengthOf_antitone : Antitone kernelLengthOf := fun β _ h =>
  kernelLengthOf_le (kernelLengthOf_odd β)
    ((initialLength_antitone h).trans (initialLength_le_kernelLengthOf β))

theorem kernelLengthOf_of_four_le {β : ℝ} (h : 4 ≤ β) : kernelLengthOf β = 1 := by
  refine le_antisymm (kernelLengthOf_le rfl ?_) (kernelLengthOf_pos β)
  rw [initialLength_le_iff, Nat.cast_one, one_mul]
  exact h.trans (le_max_left _ _)

theorem kernelLengthOf_of_le_lower {β : ℝ} (h : β ≤ 1 / 10 ^ 10) :
    kernelLengthOf β = 40000000001 := by
  have h0 : initialLength β = 40000000000 := by
    rw [initialLength, max_eq_right h, show (4 / (1 / 10 ^ 10) : ℝ) = (40000000000 : ℕ) by norm_num,
      Nat.ceil_natCast]
  rw [kernelLengthOf, h0]
  rfl

/-- Every real between settled bounds has the L0 of the upper one: L0 does not increase with β. -/
theorem initialLength_hi_eq {b : Beta} {β : ℝ} (hb : betaSettled b = true) (h : BetaHolds b β) :
    initialLength b.hi = initialLength β := by
  obtain ⟨-, hlen⟩ : b.lo ≤ b.hi ∧ kernelLen0 b.lo = kernelLen0 b.hi := by
    simpa [betaSettled] using hb
  obtain ⟨hlo, hhi⟩ := h
  rw [kernelLen0_eq_initialLength, kernelLen0_eq_initialLength] at hlen
  exact le_antisymm (initialLength_antitone hhi) (hlen ▸ initialLength_antitone hlo)

theorem L_eq_kernelLengthOf {p : Params} {β : ℝ} (hp : betaSettled p.beta = true)
    (h : BetaHolds p.beta β) : p.L = kernelLengthOf β :=
  kernelLength_eq_kernelLengthOf (initialLength_hi_eq hp h)

/-- Settles O20: each claim is one about `kernelLengthOf`. -/
theorem kernelLengthIsTheSmallestOdd : Obligations.KernelLengthIsTheSmallestOdd := by
  unfold Obligations.KernelLengthIsTheSmallestOdd
  intro p β hp hβ
  rw [L_eq_kernelLengthOf hp hβ]
  refine ⟨rfl, kernelLengthOf_odd β, initialLength_le_kernelLengthOf β, fun n => kernelLengthOf_le,
    fun q γ hq hγ hle => ?_, kernelLengthOf_of_four_le, kernelLengthOf_of_le_lower⟩
  rw [L_eq_kernelLengthOf hq hγ]
  exact kernelLengthOf_antitone hle

end Sys2Proof
end

section
/-! The transforms of R19 are Mathlib's discrete Fourier transform on `ZMod N`: inversion, the
convolution theorem of R111 and the product of sums of R117, about sequences alone. -/

namespace Sys2Proof.Machine

open Sys2Proof.Reference

variable {n : ℕ} [NeZero n]

/-! ### Sums over one period -/

theorem sum_range_eq_sum_zmod {α : Type} [AddCommMonoid α] (f : ℕ → α) :
    ∑ k ∈ Finset.range n, f k = ∑ z : ZMod n, f z.val := by
  have hval : ∀ k ∈ Finset.range n, (k : ZMod n).val = k := fun k hk =>
    ZMod.val_cast_of_lt (Finset.mem_range.1 hk)
  exact Finset.sum_nbij' (fun k => (k : ZMod n)) ZMod.val (by simp) (by simp [ZMod.val_lt]) hval
    (by simp) fun k hk => by rw [hval k hk]

theorem root_intCast (sign : ℤ) (a : ℕ) :
    root sign n a = ZMod.stdAddChar ((sign * a : ℤ) : ZMod n) := by
  rw [ZMod.stdAddChar_coe, root]
  congr 1
  push_cast
  ring

theorem root_one_eq (a : ℕ) : root 1 n a = ZMod.stdAddChar (a : ZMod n) := by
  simpa using root_intCast 1 a

theorem root_neg_one_eq (a : ℕ) : root (-1) n a = ZMod.stdAddChar (-(a : ZMod n)) := by
  simpa using root_intCast (-1) a

theorem dft_eq_zmod (x : ℕ → ℂ) (j : ℕ) :
    dft n x j = ZMod.dft (fun z : ZMod n => x z.val) j := by
  rw [dft, sum_range_eq_sum_zmod, ZMod.dft_apply]
  refine Finset.sum_congr rfl fun z _ => ?_
  rw [root_neg_one_eq, smul_eq_mul, mul_comm, Nat.cast_mul, ZMod.natCast_zmod_val, mul_comm z]

theorem idft_eq_sum_zmod (y : ℕ → ℂ) (k : ℕ) :
    idft n y k = ∑ z : ZMod n, y z.val * ZMod.stdAddChar (z * (k : ZMod n)) := by
  rw [idft, sum_range_eq_sum_zmod]
  refine Finset.sum_congr rfl fun z _ => ?_
  rw [root_one_eq, Nat.cast_mul, ZMod.natCast_zmod_val]

theorem cconv_eq_sum_zmod (g x : ℕ → ℝ) (m : ℕ) :
    cconv n g x m = ∑ z : ZMod n, g z.val * x ((m : ZMod n) - z).val := by
  rw [cconv, sum_range_eq_sum_zmod]
  refine Finset.sum_congr rfl fun z _ => ?_
  have h : (m + (n - z.val)) % n = ((m : ZMod n) - z).val := by
    rw [← ZMod.val_natCast, Nat.cast_add, Nat.cast_sub z.val_le, ZMod.natCast_self,
      ZMod.natCast_zmod_val, zero_sub, sub_eq_add_neg]
  rw [h]

/-! ### The laws -/

/-- R19's transforms are unscaled, so the two of them scale by N. -/
theorem idft_dft (x : ℕ → ℂ) {k : ℕ} (hk : k < n) : idft n (dft n x) k = n * x k := by
  have hn : (n : ℂ) ≠ 0 := Nat.cast_ne_zero.2 (NeZero.ne n)
  have h := congrFun (ZMod.dft.symm_apply_apply fun z : ZMod n => x z.val) k
  rw [ZMod.invDFT_apply, ZMod.val_cast_of_lt hk, smul_eq_mul, inv_mul_eq_iff_eq_mul₀ hn] at h
  rw [← h, idft_eq_sum_zmod]
  refine Finset.sum_congr rfl fun z _ => ?_
  rw [dft_eq_zmod, ZMod.natCast_zmod_val, smul_eq_mul, mul_comm]

/-- R110, R111: a product of spectra is a cyclic convolution in time, for any spectrum `y`. -/
theorem idft_dft_mul (x y : ℕ → ℂ) (m : ℕ) : idft n (fun j => dft n x j * y j) m =
    ∑ z : ZMod n, idft n y z.val * x ((m : ZMod n) - z).val := by
  have hterm : ∀ a b : ZMod n, ZMod.stdAddChar (-(a * b)) * x a.val * y b.val *
      ZMod.stdAddChar (b * (m : ZMod n)) =
        y b.val * ZMod.stdAddChar (b * ((m : ZMod n) - a)) * x a.val := fun a b => by
    rw [show b * ((m : ZMod n) - a) = -(a * b) + b * m by ring, AddChar.map_add_eq_mul]
    ring
  calc idft n (fun j => dft n x j * y j) m
      = ∑ b : ZMod n, ∑ a : ZMod n,
          ZMod.stdAddChar (-(a * b)) * x a.val * y b.val *
            ZMod.stdAddChar (b * (m : ZMod n)) := by
        simp_rw [idft_eq_sum_zmod, dft_eq_zmod, ZMod.dft_apply, ZMod.natCast_zmod_val, smul_eq_mul,
          Finset.sum_mul]
    _ = ∑ a : ZMod n, idft n y ((m : ZMod n) - a).val * x a.val := by
        simp_rw [hterm, idft_eq_sum_zmod, ZMod.natCast_zmod_val, Finset.sum_mul]
        exact Finset.sum_comm
    _ = ∑ z : ZMod n, idft n y z.val * x ((m : ZMod n) - z).val :=
        Fintype.sum_equiv (Equiv.subLeft (m : ZMod n)) _ _ fun a => by simp

/-- R109, R111: the real part may be taken of the kernel in time alone, since the block is real. -/
theorem re_idft_dft_mul_div (x : ℕ → ℝ) (y : ℕ → ℂ) (m : ℕ) :
    (idft n (fun j => dft n (fun i => (x i : ℂ)) j * y j) m).re / n =
      cconv n (fun k => (idft n y k).re / n) x m := by
  rw [idft_dft_mul, cconv_eq_sum_zmod, Complex.re_sum, Finset.sum_div]
  exact Finset.sum_congr rfl fun z _ => by rw [Complex.re_mul_ofReal, div_mul_eq_mul_div]

/-- R117: every tap meets every sample of the period once. -/
theorem sum_cconv (g x : ℕ → ℝ) : ∑ m ∈ Finset.range n, cconv n g x m =
    (∑ k ∈ Finset.range n, g k) * ∑ k ∈ Finset.range n, x k := by
  have hshift : ∀ z : ZMod n, ∑ m : ZMod n, x (m - z).val = ∑ m : ZMod n, x m.val := fun z =>
    Fintype.sum_equiv (Equiv.subRight z) _ _ fun _ => rfl
  simp_rw [sum_range_eq_sum_zmod, cconv_eq_sum_zmod, ZMod.natCast_zmod_val]
  rw [Finset.sum_comm, Finset.sum_mul]
  simp_rw [← Finset.mul_sum, hshift]

end Sys2Proof.Machine
end

section
/-! The convolution engine's commands: `KFFT`, `KFREQ` and `CONV` (rules R101 to R115). -/

namespace Sys2Proof.Machine

open Sys2Proof.Claims

/-! ### `KFFT` and `KFREQ` -/

theorem exec_kfft {s : State} (h : s.phase = .unbuilt) :
    exec .kfft s = .next (transformKernel s) :=
  exec_of_legal (onlyUnbuilt_iff.2 h) rfl

theorem exec_kfreq {s : State} (h : s.phase = .unbuilt) :
    exec .kfreq s = .next (s.setPhase .ready) :=
  exec_of_legal (onlyUnbuilt_iff.2 h) rfl

theorem elem_transformKernel_h {s : State} {i : Nat} (h : i < 2 * s.cfg.N) :
    (transformKernel s).elem .h i = dftKernelElem s.cfg (s.elems .k s.cfg.N) i := by
  rw [elem_transformKernel s (m := .h) nofun nofun, if_pos ⟨rfl, h⟩]

theorem elem_transformKernel_h_of_ge {s : State} {i : Nat} (h : 2 * s.cfg.N ≤ i) :
    (transformKernel s).elem .h i = s.elem .h i := by
  rw [elem_transformKernel s (m := .h) nofun nofun, if_neg (by omega)]

theorem sameMemories_transformKernel (s : State) :
    SameMemories [.h, .w, .scr] s (transformKernel s) := by
  intro m hm i
  obtain ⟨hh, hw, hs⟩ : m ≠ .h ∧ m ≠ .w ∧ m ≠ .scr := by simpa using hm
  rw [elem_transformKernel s hw hs, if_neg fun h => hh h.1]

/-- Settles O22. -/
theorem kfftTransformsTheKernel : Obligations.KfftTransformsTheKernel := by
  unfold Obligations.KfftTransformsTheKernel
  refine ⟨fun s hs => ?_, badPhaseOutside_of_legalIn fun ph h => ?_, rfl⟩
  · exact ⟨_, exec_kfft hs, fun i => elem_transformKernel_h, fun i => elem_transformKernel_h_of_ge,
      sameMemories_transformKernel s, by simp [SameRecord], by simp [SameDiags],
      transformKernel_phase s, transformKernel_actlen s⟩
  · exact List.mem_singleton.2 (onlyUnbuilt_iff.1 h)

/-- Settles O24. -/
theorem kfreqWritesOnlyThePhase : Obligations.KfreqWritesOnlyThePhase := by
  unfold Obligations.KfreqWritesOnlyThePhase
  exact ⟨fun s hs => exec_kfreq hs,
    badPhaseOutside_of_legalIn fun ph h => List.mem_singleton.2 (onlyUnbuilt_iff.1 h), rfl⟩

/-! ### `CONV` -/

theorem ioCheck_of_le {len : Nat} {s : State} (h : len ≤ s.cfg.iocap) :
    ioCheck len s = .none := if_pos h

theorem windowCheck_of_le {len : Nat} {s : State} (h : len ≤ windowLen s) :
    windowCheck len s = .none := if_pos h

theorem target_eq_selMem (r : Sel) : target r = selMem r := by cases r <;> rfl

/-- R104: where it is accepted, a convolution is executed. -/
theorem exec_conv {s : State} {r : Sel} {len : Nat} (h : ConvAccepted s r len) :
    exec (.conv r len) s = .next (convolve (target r) len s) := by
  rw [target_eq_selMem]
  cases r with
  | io =>
    obtain ⟨hready, hlen⟩ := h
    exact exec_of_legal (onlyReady_iff.2 hready) (ioCheck_of_le hlen)
  | x =>
    obtain ⟨hs, hlen⟩ | ⟨hs, hlen⟩ := h
    · exact exec_of_legal (by rw [hs]; rfl) (windowCheck_of_le (by rwa [windowLen_inner hs]))
    · exact exec_of_legal (by rw [hs]; rfl) (windowCheck_of_le (by rwa [windowLen_callback hs]))

/-- R113: the block's elements beyond the transform length are not written. -/
theorem elem_convolve_target (s : State) (r : Sel) (len k : Nat) :
    (convolve (target r) len s).elem (target r) k = if k < min len s.cfg.N then
      cconvElem s.cfg (s.elems .h (2 * s.cfg.N)) (s.elems (target r) (min len s.cfg.N)) k
    else s.elem (target r) k := by
  rw [elem_convolve s _ len (by cases r <;> nofun) (by cases r <;> nofun)]
  simp

theorem sameMemories_convolve (s : State) (m : Mem) (len : Nat) :
    SameMemories [m, .w, .scr] s (convolve m len s) := by
  intro m' hm i
  obtain ⟨hne, hw, hs⟩ : m' ≠ m ∧ m' ≠ .w ∧ m' ≠ .scr := by simpa using hm
  rw [elem_convolve s m len hw hs, if_neg fun h => hne h.1]

/-- R160: the saturating increment counts one event. -/
theorem counted_ite (p : Prop) [Decidable p] (c : Word) :
    Counted p c (if p then satIncrement c else c) :=
  ⟨fun h => by rw [if_pos h, satIncrement_toNat], fun h => if_neg h⟩

/-- Settles O25. -/
theorem convReplacesTheBlock : Obligations.ConvReplacesTheBlock := by
  unfold Obligations.ConvReplacesTheBlock
  intro s r len h
  refine ⟨_, exec_conv h, fun k hk => ?_, fun k hk => ?_, sameMemories_convolve s _ len,
    by simp [SameRecord], convolve_phase _ len s, convolve_actlen _ len s, ?_, ?_,
    convolve_diagTrunc _ len s⟩
  · rw [elem_convolve_target, if_pos hk]
  · rw [elem_convolve_target, if_neg (by omega)]
  · rw [convolve_diagShort]
    exact counted_ite _ _
  · rw [convolve_diagLong]
    exact counted_ite _ _

end Sys2Proof.Machine
end

section
/-! The convolution engine in exact arithmetic: `KFFT` is the forward transform (R101), `CONV` the
cyclic convolution with the kernel in time (R111), which multiplies sums (R117). -/

namespace Sys2Proof.Machine

open Sys2Proof.Reference Sys2Proof.Claims

/-! ### The operands as complex numbers -/

theorem N_pos_of_legal {p : Params} (h : p.legal = true) : 0 < p.N := by
  have hL := kernelLength_odd p
  have hle := L_le_N_of_legal h
  omega

/-- R101, R105: samples are loaded as real numbers. -/
theorem complexOf_loadReal (l : List Elem) (i : Nat) :
    complexOf (loadReal l i) = ((realOf (exactAt l i) : ℝ) : ℂ) := by
  apply Complex.ext <;> simp [complexOf, loadReal]

theorem complexOf_loadReal_kernel {s : State} {k : Nat} (h : k < s.cfg.N) :
    complexOf (loadReal (s.elems .k s.cfg.N) k) = ((elemReal (s.elem .k k) : ℝ) : ℂ) := by
  rw [complexOf_loadReal, exactAt_elems, if_pos h]

theorem complexOf_loadReal_block (s : State) (m : Mem) (n i : Nat) :
    complexOf (loadReal (s.elems m n) i) = ((blockOf s m n i : ℝ) : ℂ) := by
  rw [complexOf_loadReal, exactAt_elems, blockOf]

theorem complexOf_kernelBin {s : State} {j : Nat} (h : j < s.cfg.N) :
    complexOf (kernelBin (s.elems .h (2 * s.cfg.N)) j) = kernelSpectrum s j := by
  rw [complexOf, kernelBin, kernelSpectrum, exactAt_elems, exactAt_elems, if_pos (by omega),
    if_pos (by omega)]

theorem interleave_even (w : Nat → Cplx) (j : Nat) : interleave w (2 * j) = (w j).re := by
  simp [interleave]

theorem interleave_odd (w : Nat → Cplx) (j : Nat) : interleave w (2 * j + 1) = (w j).im := by
  rw [interleave, if_neg (by omega), show (2 * j + 1) / 2 = j by omega]

theorem elemReal_dftKernelElem {p : Params} (hp : p.arith = .exact) (l : List Elem) (i : Nat) :
    elemReal (dftKernelElem p l i) = realOf (interleave (exactDft p.N (loadReal l)) i) :=
  congrArg elemReal (elemOf_exact hp _ _)

/-! ### `KFFT` -/

theorem kernelSpectrum_transformKernel {s : State} (hexact : s.cfg.arith = .exact) {j : Nat}
    (hj : j < s.cfg.N) : kernelSpectrum (transformKernel s) j =
      dft s.cfg.N (fun k => ((elemReal (s.elem .k k) : ℝ) : ℂ)) j := by
  rw [kernelSpectrum, elem_transformKernel_h (by omega), elem_transformKernel_h (by omega),
    elemReal_dftKernelElem hexact, elemReal_dftKernelElem hexact, interleave_even, interleave_odd,
    ← complexOf, complexOf_exactDft hj]
  exact dft_congr (fun k hk => complexOf_loadReal_kernel hk) j

/-- Settles O23. -/
theorem kfftIsTheForwardTransform : Obligations.KfftIsTheForwardTransform := by
  unfold Obligations.KfftIsTheForwardTransform
  exact fun s hs hexact => ⟨_, exec_kfft hs, fun j hj => kernelSpectrum_transformKernel hexact hj⟩

/-- Settles O27: `idft_dft` undoes the transform of `kernelSpectrum_transformKernel`. -/
theorem builtKernelInTimeIsTheKernel : Obligations.BuiltKernelInTimeIsTheKernel := by
  unfold Obligations.BuiltKernelInTimeIsTheKernel
  intro s hs hlegal hexact
  refine ⟨_, exec_kfft hs, fun k hk => ?_⟩
  have hN := N_pos_of_legal hlegal
  have : NeZero s.cfg.N := ⟨hN.ne'⟩
  rw [kernelInTime, transformKernel_cfg,
    idft_congr (fun j hj => kernelSpectrum_transformKernel hexact hj), idft_dft _ hk,
    Complex.re_mul_ofReal, Complex.natCast_re]
  exact mul_div_cancel_left₀ _ (Nat.cast_ne_zero.2 hN.ne')

/-! ### `CONV` -/

theorem elemReal_convolve {s : State} (hlegal : s.cfg.legal = true) (hexact : s.cfg.arith = .exact)
    {r : Sel} {len n : Nat} (hn : n < min len s.cfg.N) :
    elemReal ((convolve (target r) len s).elem (target r) n) =
      cconv s.cfg.N (kernelInTime s) (blockOf s (target r) (min len s.cfg.N)) n := by
  have : NeZero s.cfg.N := ⟨(N_pos_of_legal hlegal).ne'⟩
  have hprod : ∀ j, j < s.cfg.N →
      dft s.cfg.N (fun i => complexOf (loadReal (s.elems (target r) (min len s.cfg.N)) i)) j *
        complexOf (kernelBin (s.elems .h (2 * s.cfg.N)) j) =
      dft s.cfg.N (fun i => ((blockOf s (target r) (min len s.cfg.N) i : ℝ) : ℂ)) j *
        kernelSpectrum s j := fun j hj => by
    simp_rw [complexOf_kernelBin hj, complexOf_loadReal_block]
  rw [elem_convolve_target, if_pos hn, elemReal_cconvElem hexact (by omega), idft_congr hprod]
  exact re_idft_dft_mul_div _ _ _

/-- Settles O26. -/
theorem convIsTheCyclicConvolution : Obligations.ConvIsTheCyclicConvolution := by
  unfold Obligations.ConvIsTheCyclicConvolution
  exact fun s r len h hlegal hexact => ⟨_, exec_conv h, fun n hn =>
    elemReal_convolve hlegal hexact hn⟩

/-- Settles O28: the results are those of `elemReal_convolve`, and `sum_cconv` sums them. -/
theorem fullConvolutionMultipliesSums : Obligations.FullConvolutionMultipliesSums := by
  unfold Obligations.FullConvolutionMultipliesSums
  intro s r h hlegal hexact
  have : NeZero s.cfg.N := ⟨(N_pos_of_legal hlegal).ne'⟩
  refine ⟨_, exec_conv h, ?_⟩
  calc ∑ n ∈ Finset.range s.cfg.N,
        elemReal ((convolve (target r) s.cfg.N s).elem (target r) n)
      = ∑ n ∈ Finset.range s.cfg.N,
          cconv s.cfg.N (kernelInTime s) (blockOf s (target r) s.cfg.N) n :=
        Finset.sum_congr rfl fun n hn => by
          rw [elemReal_convolve hlegal hexact (by simpa using hn), min_self]
    _ = (∑ k ∈ Finset.range s.cfg.N, kernelInTime s k) *
          ∑ k ∈ Finset.range s.cfg.N, blockOf s (target r) s.cfg.N k := sum_cconv _ _
    _ = (∑ k ∈ Finset.range s.cfg.N, kernelInTime s k) *
          ∑ k ∈ Finset.range s.cfg.N, elemReal (s.elem (target r) k) := by
        congr 1
        exact Finset.sum_congr rfl fun k hk => if_pos (Finset.mem_range.1 hk)

end Sys2Proof.Machine
end

section
/-! Rule R103: from the step that builds the engine until `Reset`, no move writes `K` or `H`. -/

namespace Sys2Proof.Machine

open Sys2Proof.Claims

/-- What rule R103 asks of a step: the engine stays built, and `K` and `H` read as before. -/
def KernelKept (s t : State) : Prop :=
  t.phase ≠ .unbuilt ∧ ∀ j, t.elem .k j = s.elem .k j ∧ t.elem .h j = s.elem .h j

theorem KernelKept.of_elem_eq {s t : State} (hphase : t.phase ≠ .unbuilt)
    (helem : ∀ m j, m = .k ∨ m = .h → t.elem m j = s.elem m j) : KernelKept s t :=
  ⟨hphase, fun j => ⟨helem .k j (.inl rfl), helem .h j (.inr rfl)⟩⟩

/-- The commands legal in a built engine write other memories only (rule R81). -/
theorem elem_effectOf_of_built {i : Instr} {s : State} (hlegal : legalIn i s.phase = true)
    (hs : s.phase ≠ .unbuilt) {m : Mem} (hm : m = .k ∨ m = .h) (j : Nat) :
    (effectOf i s).elem m j = s.elem m j := by
  obtain ⟨hio, hx, hpad, hos, hw, hscr⟩ :
      m ≠ .io ∧ m ≠ .x ∧ m ≠ .pad ∧ m ≠ .os ∧ m ≠ .w ∧ m ≠ .scr := by
    obtain rfl | rfl := hm <;> decide
  cases i with
  | nop => rfl
  | kgen | kfft | kfreq => exact absurd (onlyUnbuilt_iff.1 hlegal) hs
  | conv r len => cases r <;> simp [effectOf, selMem, elem_convolve, hio, hx, hw, hscr]
  | ovlwrap len => simp [effectOf, elem_wrap, hx]
  | ovlunwrap => simp [effectOf, elem_unwrap, hio, hx, hpad]
  | ovlreset => simp [effectOf, elem_clearOverlap, hx, hpad]
  | ovsbegin len =>
    simp [effectOf, beginOversample, filterView, elem_convolve, elem_wrap, elem_zeroStuff, hx, hos,
      hw, hscr]
  | ovsend =>
    simp [effectOf, endOversample, filterView, elem_decimate, elem_unwrap, elem_convolve, hio, hx,
      hpad, hos, hw, hscr]
  | zstuff len => simp [effectOf, elem_zeroStuff, hos]
  | decim len => simp [effectOf, elem_decimate, hio]
  | diagclr => exact elem_clearDiags s m j

theorem effectOf_phase_ne_unbuilt (i : Instr) {s : State} (hs : s.phase ≠ .unbuilt) :
    (effectOf i s).phase ≠ .unbuilt := by
  cases i <;> simp [effectOf, hs]

theorem exec_kernelKept {i : Instr} {s t : State} (hs : s.phase ≠ .unbuilt)
    (hexec : exec i s = .next t) : KernelKept s t := by
  rw [exec_eq_runCommand] at hexec
  obtain ⟨-, rfl⟩ | ⟨-, -, rfl⟩ | ⟨-, -, -, rfl⟩ | ⟨-, hlegal, -, rfl⟩ := runCommand_cases hexec
  · exact .of_elem_eq hs fun _ _ _ => rfl
  · exact .of_elem_eq nofun fun m j _ => elem_raiseFault _ _ s m j
  · exact .of_elem_eq nofun fun m j _ => elem_raiseFault _ _ s m j
  · exact .of_elem_eq (effectOf_phase_ne_unbuilt i hs) fun _ j hm =>
      elem_effectOf_of_built hlegal hs hm j

theorem issue_kernelKept {w : Word} {s t : State} (hs : s.phase ≠ .unbuilt)
    (hissue : issue w s = .next t) : KernelKept s t := by
  obtain ⟨-, rfl⟩ | ⟨-, -, rfl⟩ | ⟨-, i, -, hexec⟩ := issue_cases hissue
  · exact .of_elem_eq hs fun _ _ _ => rfl
  · exact .of_elem_eq nofun fun m j _ => elem_raiseFault _ _ s m j
  · exact exec_kernelKept hs hexec

/-- R62: the host's right to write `K` and `H` ends with the build. -/
theorem not_mayWrite_of_built {ph : Phase} (hs : ph ≠ .unbuilt) {m : Mem} (hm : m = .k ∨ m = .h) :
    mayWrite ph m = false := by
  have h : onlyUnbuilt ph = false := Bool.eq_false_iff.2 fun h => hs (onlyUnbuilt_iff.1 h)
  obtain rfl | rfl := hm <;> exact h

/-- Settles O46: one case a kind of move; the commands by `exec_kernelKept`. -/
theorem builtKernelIsImmutable : Obligations.BuiltKernelIsImmutable := by
  unfold Obligations.BuiltKernelIsImmutable
  intro s t hs hreset hstep
  obtain ⟨-, rfl⟩ | ⟨rest, hmoves, -⟩ | ⟨rest, off, c, -, -, rfl⟩ | ⟨rest, w, -, hissue⟩ |
    ⟨rest, r, i, m, -, -, -, rfl⟩ | ⟨rest, r, i, m, v, -, -, ⟨hright, -⟩, -, rfl⟩ :=
    step_cases hstep
  · exact KernelKept.of_elem_eq hs fun _ _ _ => rfl
  · exact absurd (by rw [hmoves]; rfl) hreset
  · exact KernelKept.of_elem_eq hs fun m j _ => by simp
  · obtain ⟨hphase, hkernel⟩ := issue_kernelKept (by simpa using hs) hissue
    exact ⟨hphase, by simpa using hkernel⟩
  · exact KernelKept.of_elem_eq hs fun m j _ => by simp
  · refine KernelKept.of_elem_eq (by simpa using hs) fun m' j hm' => ?_
    have hne : m' ≠ m := by
      rintro rfl
      simp [not_mayWrite_of_built hs hm'] at hright
    rw [elem_replied, elem_fill_ne hne, elem_afterTake]

end Sys2Proof.Machine
end

section
/-! The overlap buffer's commands: `OVLWRAP`, `OVLUNWRAP` and `OVLRESET` (rules R120 to R130). -/

namespace Sys2Proof.Machine

open Sys2Proof.Claims

@[simp] theorem onlyInner_iff {ph : Phase} : onlyInner ph = true ↔ ph = .inner := by
  cases ph <;> decide

/-! ### `OVLWRAP` -/

/-- R121: the view is made and the window opens on it. -/
def openView (len : Nat) (s : State) : State := (wrap .io len s).setPhase .inner

theorem exec_ovlwrap {s : State} {len : Nat} (h : s.phase = .ready) (hlen : len ≤ s.cfg.iocap) :
    exec (.ovlwrap len) s = .next (openView len s) :=
  exec_of_legal (onlyReady_iff.2 h) (ioCheck_of_le hlen)

theorem elem_openView_x {s : State} {len j : Nat} (h : j < min len s.cfg.OB + s.cfg.P) :
    (openView len s).elem .x j = extendedView s s.draws (min len s.cfg.OB) (s.elem .io) j := by
  rw [openView, elem_setPhase, elem_wrap, if_pos ⟨rfl, h⟩]
  rfl

theorem elem_openView_x_of_ge {s : State} {len j : Nat} (h : min len s.cfg.OB + s.cfg.P ≤ j) :
    (openView len s).elem .x j = s.elem .x j := by
  rw [openView, elem_setPhase, elem_wrap, if_neg (by omega)]

theorem sameMemories_openView (len : Nat) (s : State) : SameMemories [.x] s (openView len s) := by
  intro m hm i
  rw [openView, elem_setPhase, elem_wrap, if_neg fun h => hm (by simp [h.1])]

/-- R25: with legal parameters ACTLEN holds the whole length. -/
theorem openView_actlen {s : State} (h : s.cfg.legal = true) (len : Nat) :
    (openView len s).actlen.toNat = min len s.cfg.OB := by
  have hOB := OB_lt_of_legal h
  rw [openView, setPhase_actlen, wrap_actlen, BitVec.toNat_ofNat, Nat.mod_eq_of_lt (by omega)]

theorem counted_openView (len : Nat) (s : State) :
    Counted (s.cfg.OB < len) s.diagTrunc (openView len s).diagTrunc := by
  rw [openView, setPhase_diagTrunc, wrap_diagTrunc]
  exact counted_ite _ _

/-- Settles O29. -/
theorem ovlwrapOpensTheView : Obligations.OvlwrapOpensTheView := by
  unfold Obligations.OvlwrapOpensTheView
  refine ⟨fun s len hs hlegal hlen => ?_, fun len => badPhaseOutside_of_legalIn fun ph h => ?_,
    fun s len hs hlen => exec_of_check (onlyReady_iff.2 hs) (ioCheck_of_lt hlen) nofun,
    encodesAs_of_mem_lengthCommands (by simp [lengthCommands])⟩
  · exact ⟨_, exec_ovlwrap hs hlen, fun j => elem_openView_x, fun j => elem_openView_x_of_ge,
      openView_actlen hlegal len, rfl, sameMemories_openView len s,
      by simp [SameRecord, openView], by simp [openView], by simp [openView],
      counted_openView len s⟩
  · exact List.mem_singleton.2 (onlyReady_iff.1 h)

/-! ### `OVLUNWRAP` -/

/-- R127: the view is split and the window closes. -/
def closeView (s : State) : State := (unwrap .io s).setPhase .ready

theorem exec_ovlunwrap {s : State} (h : s.phase = .inner) :
    exec .ovlunwrap s = .next (closeView s) :=
  exec_of_legal (onlyInner_iff.2 h) rfl

theorem elem_closeView_io {s : State} {j : Nat} (h : j < s.actlen.toNat) :
    (closeView s).elem .io j = splitView s s.draws (s.elem .x) j := by
  rw [closeView, elem_setPhase, elem_unwrap, if_neg nofun, if_pos ⟨rfl, h⟩]
  rfl

theorem elem_closeView_io_of_ge {s : State} {j : Nat} (h : s.actlen.toNat ≤ j) :
    (closeView s).elem .io j = s.elem .io j := by
  rw [closeView, elem_setPhase, elem_unwrap, if_neg nofun, if_neg (by omega), if_neg nofun]

theorem elem_closeView_pad {s : State} {j : Nat} (h : j < s.cfg.P) :
    (closeView s).elem .pad j = splitView s s.draws (s.elem .x) (s.actlen.toNat + j) := by
  rw [closeView, elem_setPhase, elem_unwrap, if_pos ⟨rfl, h⟩]
  rfl

theorem elem_closeView_pad_of_ge {s : State} {j : Nat} (h : s.cfg.P ≤ j) :
    (closeView s).elem .pad j = s.elem .pad j := by
  rw [closeView, elem_setPhase, elem_unwrap, if_neg (by omega), if_neg nofun, if_neg nofun]

theorem elem_closeView_x (s : State) (j : Nat) :
    (closeView s).elem .x j = splitView s s.draws (s.elem .x) j := by
  rw [closeView, elem_setPhase, elem_unwrap, if_neg nofun, if_neg nofun, if_pos rfl]
  rfl

theorem sameMemories_closeView (s : State) : SameMemories [.io, .pad, .x] s (closeView s) := by
  intro m hm i
  obtain ⟨hio, hpad, hx⟩ : m ≠ .io ∧ m ≠ .pad ∧ m ≠ .x := by simpa using hm
  rw [closeView, elem_setPhase, elem_unwrap, if_neg fun h => hpad h.1, if_neg fun h => hio h.1,
    if_neg hx]

/-- Settles O30. -/
theorem ovlunwrapSplitsTheView : Obligations.OvlunwrapSplitsTheView := by
  unfold Obligations.OvlunwrapSplitsTheView
  refine ⟨fun s hs => ?_, badPhaseOutside_of_legalIn fun ph h => ?_, rfl⟩
  · exact ⟨_, exec_ovlunwrap hs, fun j => elem_closeView_io, fun j => elem_closeView_io_of_ge,
      fun j => elem_closeView_pad, fun j => elem_closeView_pad_of_ge, elem_closeView_x s,
      sameMemories_closeView s, by simp [SameRecord, closeView], by simp [SameDiags, closeView],
      rfl, by simp [closeView]⟩
  · exact List.mem_singleton.2 (onlyInner_iff.1 h)

/-! ### `OVLRESET` -/

theorem exec_ovlreset {s : State} (h : s.phase = .ready) :
    exec .ovlreset s = .next (clearOverlap s) :=
  exec_of_legal (onlyReady_iff.2 h) rfl

theorem elem_clearOverlap_pad {s : State} {j : Nat} (h : j < s.cfg.P) :
    (clearOverlap s).elem .pad j = s.cfg.kind.zero := by
  rw [elem_clearOverlap, if_pos (.inl ⟨rfl, h⟩)]

theorem elem_clearOverlap_x {s : State} {j : Nat} (h : j < s.cfg.N) :
    (clearOverlap s).elem .x j = s.cfg.kind.zero := by
  rw [elem_clearOverlap, if_pos (.inr ⟨rfl, h⟩)]

/-- R130: beyond the last element of `PAD` and of `X` nothing is written. -/
theorem elem_clearOverlap_of_ge {s : State} {m : Mem} {j : Nat} (hpad : m = .pad → s.cfg.P ≤ j)
    (hx : m = .x → s.cfg.N ≤ j) : (clearOverlap s).elem m j = s.elem m j := by
  rw [elem_clearOverlap, if_neg]
  rintro (⟨hm, hj⟩ | ⟨hm, hj⟩)
  · exact hj.not_ge (hpad hm)
  · exact hj.not_ge (hx hm)

theorem sameMemories_clearOverlap (s : State) : SameMemories [.pad, .x] s (clearOverlap s) := by
  intro m hm i
  obtain ⟨hpad, hx⟩ : m ≠ .pad ∧ m ≠ .x := by simpa using hm
  exact elem_clearOverlap_of_ge (absurd · hpad) (absurd · hx)

/-- Settles O31. -/
theorem ovlresetZeroesPaddingAndView : Obligations.OvlresetZeroesPaddingAndView := by
  unfold Obligations.OvlresetZeroesPaddingAndView
  refine ⟨fun s hs => ?_, badPhaseOutside_of_legalIn fun ph h => ?_, rfl⟩
  · exact ⟨_, exec_ovlreset hs, fun j => elem_clearOverlap_pad,
      fun j hj => elem_clearOverlap_of_ge (fun _ => hj) nofun, fun j => elem_clearOverlap_x,
      fun j hj => elem_clearOverlap_of_ge nofun fun _ => hj, sameMemories_clearOverlap s,
      by simp [SameRecord], by simp [SameDiags], clearOverlap_phase s, clearOverlap_actlen s⟩
  · exact List.mem_singleton.2 (onlyReady_iff.1 h)

end Sys2Proof.Machine
end

section
/-! Linear and cyclic convolution of sequences alone: when nothing wraps around (R116), and a stream
to which a block is appended (R133). -/

namespace Sys2Proof.Machine

open Sys2Proof.Reference

variable {g g' x x' past block : ℕ → ℝ} {n m j T P : ℕ}

/-- Sample m of cconv_N only looks at N taps and N samples. -/
theorem cconv_congr (hg : ∀ k, k < n → g k = g' k) (hx : ∀ k, k < n → x k = x' k) (hn : 0 < n) :
    cconv n g x m = cconv n g' x' m :=
  Finset.sum_congr rfl fun k hk => by
    rw [hg k (Finset.mem_range.1 hk), hx _ (Nat.mod_lt _ hn)]

/-- The sum may run on beyond sample j, over no more terms. -/
theorem linearConv_eq_sum_ite (g x : ℕ → ℝ) (h : j < n) :
    linearConv g x j = ∑ k ∈ Finset.range n, if k ≤ j then g k * x (j - k) else 0 := by
  rw [← Finset.sum_filter, linearConv]
  congr 1
  ext k
  simp only [Finset.mem_filter, Finset.mem_range]
  omega

/-- R116: P + 1 taps and a block of at most N − P samples: the tail that wraps around is zero. -/
theorem cconv_eq_linearConv (hg : ∀ k, P < k → g k = 0) (hx : ∀ i, n ≤ i + P → x i = 0)
    (hj : j < n) : cconv n g x j = linearConv g x j := by
  rw [cconv, linearConv_eq_sum_ite g x hj]
  refine Finset.sum_congr rfl fun k hk => ?_
  have hkn : k < n := Finset.mem_range.1 hk
  split_ifs with hkj
  · rw [show j + (n - k) = j - k + n by omega, Nat.add_mod_right, Nat.mod_eq_of_lt (by omega)]
  · rw [Nat.mod_eq_of_lt (by omega)]
    by_cases hkP : P < k
    · rw [hg k hkP, zero_mul]
    · rw [hx _ (by omega), mul_zero]

/-- P + 1 taps reach P samples back, so that beyond them nothing of a stream is left. -/
theorem linearConv_eq_zero (hg : ∀ k, P < k → g k = 0) (hx : ∀ i, T ≤ i → x i = 0) (hj : P ≤ j) :
    linearConv g x (T + j) = 0 := by
  refine Finset.sum_eq_zero fun k _ => ?_
  by_cases hkP : P < k
  · rw [hg k hkP, zero_mul]
  · rw [hx _ (by omega), mul_zero]

theorem linearConv_zero (g : ℕ → ℝ) (m : ℕ) : linearConv g (fun _ => 0) m = 0 := by
  simp [linearConv]

/-- R133: the stream of T samples with a block appended to it. -/
def appended (T : ℕ) (past block : ℕ → ℝ) (m : ℕ) : ℝ := if m < T then past m else block (m - T)

/-- R133: what comes out after T samples is the tail of the past and the answer to the block. -/
theorem linearConv_appended (g : ℕ → ℝ) (hpast : ∀ i, T ≤ i → past i = 0) :
    linearConv g (appended T past block) (T + j) =
      linearConv g past (T + j) + linearConv g block j := by
  rw [linearConv_eq_sum_ite g block (show j < T + j + 1 by omega), linearConv, linearConv,
    ← Finset.sum_add_distrib]
  refine Finset.sum_congr rfl fun k hk => ?_
  have hkm : k < T + j + 1 := Finset.mem_range.1 hk
  unfold appended
  by_cases hkj : k ≤ j
  · rw [if_neg (by omega), if_pos hkj, hpast _ (by omega), mul_zero, zero_add,
      show T + j - k - T = j - k by omega]
  · rw [if_pos (by omega), if_neg hkj, add_zero]

end Sys2Proof.Machine
end

section
/-! `FILTER` in exact arithmetic: one block under PRE and under POST (rules R131, R132), and under
POST the stream of all blocks (R133). -/

namespace Sys2Proof.Machine

open Sys2Proof.Reference Sys2Proof.Claims

variable {s : State} {len j : Nat}

/-! ### The three commands -/

/-- R83: the view in its window, convolved with the kernel. -/
def filteredView (len : Nat) (s : State) : State :=
  convolve .x (min len s.cfg.OB + s.cfg.P) (openView len s)

/-- R83: the state `FILTER len` ends in. -/
def filtered (len : Nat) (s : State) : State := closeView (filteredView len s)

theorem filterRun_filtered (hs : s.phase = .ready) (hlegal : s.cfg.legal = true)
    (hlen : len ≤ s.cfg.iocap) : FilterRun s len (filtered len s) := by
  refine ⟨_, _, exec_ovlwrap hs hlen, exec_conv (r := .x) (.inl ⟨rfl, ?_⟩), exec_ovlunwrap ?_⟩
  · rw [openView_actlen hlegal]
    simp [openView]
  · exact convolve_phase _ _ _

theorem sameMemories_filteredView (len : Nat) (s : State) :
    SameMemories [.x, .w, .scr] s (filteredView len s) := by
  intro m hm i
  have hx : m ∉ [Mem.x] := fun h => hm (by simpa using .inl (List.mem_singleton.1 h))
  exact (sameMemories_convolve _ _ _ m hm i).trans (sameMemories_openView len s m hx i)

@[simp] theorem filtered_cfg (len : Nat) (s : State) : (filtered len s).cfg = s.cfg := by
  simp [filtered, closeView, filteredView, openView]

theorem counted_filtered (len : Nat) (s : State) :
    Counted (min len s.cfg.OB + s.cfg.P < s.cfg.N) s.diagShort (filtered len s).diagShort := by
  have h : (filtered len s).diagShort = if min len s.cfg.OB + s.cfg.P < s.cfg.N then
      satIncrement s.diagShort else s.diagShort := by
    simp [filtered, closeView, filteredView, openView, convolve_diagShort]
  rw [h]
  exact counted_ite _ _

/-! ### One block -/

/-- The kernel in time is that of `H` (R111). -/
theorem kernelInTime_congr {t : State} (hcfg : t.cfg = s.cfg)
    (hh : ∀ i, t.elem .h i = s.elem .h i) : kernelInTime t = kernelInTime s := by
  have hspectrum : kernelSpectrum t = kernelSpectrum s := by
    funext j
    rw [kernelSpectrum, hh, hh, ← kernelSpectrum]
  funext k
  rw [kernelInTime, hspectrum, hcfg, ← kernelInTime]

/-- The carried padding, where the variant `v` adds it: 0 from P on and in the other variant. -/
noncomputable def carriedTail (s : State) (v : TailAdd) (j : ℕ) : ℝ :=
  if s.cfg.tailAdd = v ∧ j < s.cfg.P then elemReal (s.elem .pad j) else 0

theorem elemReal_extendedView (hexact : s.cfg.arith = .exact) (draw n j : Nat) :
    elemReal (extendedView s draw n (s.elem .io) j) = blockOf s .io n j + carriedTail s .pre j := by
  have hblock : elemReal (if j < n then s.elem .io j else s.cfg.kind.zero) = blockOf s .io n j := by
    rw [apply_ite elemReal, elemReal_zero hexact, blockOf]
  by_cases hadd : s.cfg.tailAdd = .pre ∧ j < s.cfg.P
  · rw [extendedView, if_pos hadd, elemReal_elemAdd hexact, hblock, carriedTail, if_pos hadd]
  · rw [extendedView, if_neg hadd, hblock, carriedTail, if_neg hadd, add_zero]

theorem elemReal_splitView (hexact : s.cfg.arith = .exact) (draw : Nat) (view : Nat → Elem)
    (j : Nat) :
    elemReal (splitView s draw view j) = elemReal (view j) + carriedTail s .post j := by
  unfold splitView carriedTail
  split_ifs
  · exact elemReal_elemAdd hexact _ _ _ _
  · exact (add_zero _).symm

theorem elemReal_filteredView (hlegal : s.cfg.legal = true) (hexact : s.cfg.arith = .exact)
    (hj : j < min len s.cfg.OB + s.cfg.P) :
    elemReal ((filteredView len s).elem .x j) = cconv s.cfg.N (kernelInTime s)
      (fun i => blockOf s .io (min len s.cfg.OB) i + carriedTail s .pre i) j := by
  have hcfg : (openView len s).cfg = s.cfg := by simp [openView]
  have hroom : min len s.cfg.OB + s.cfg.P ≤ s.cfg.N := by unfold Params.N; omega
  have hconv := elemReal_convolve (s := openView len s) (r := .x) (n := j)
    (len := min len s.cfg.OB + s.cfg.P) (by rwa [hcfg]) (by rwa [hcfg]) (by rw [hcfg]; omega)
  rw [hcfg, min_eq_left hroom, kernelInTime_congr hcfg
    (sameMemories_openView len s .h (by simp))] at hconv
  refine hconv.trans (cconv_congr (fun _ _ => rfl) (fun i _ => ?_) (N_pos_of_legal hlegal))
  by_cases hi : i < min len s.cfg.OB + s.cfg.P
  · rw [blockOf, if_pos hi, ← elemReal_extendedView hexact s.draws]
    exact congrArg elemReal (elem_openView_x hi)
  · rw [blockOf, if_neg hi, blockOf, if_neg (by omega), carriedTail, if_neg (by omega), add_zero]

/-- R131, R132: sample j of the filtered block, the padding added before the convolution under PRE
and after it under POST. The first n samples are the output, the P after them the new padding. -/
noncomputable def filterSample (len : Nat) (s : State) (j : ℕ) : ℝ :=
  cconv s.cfg.N (kernelInTime s)
      (fun i => blockOf s .io (min len s.cfg.OB) i + carriedTail s .pre i) j +
    carriedTail s .post j

theorem elemReal_splitView_filteredView (hlegal : s.cfg.legal = true)
    (hexact : s.cfg.arith = .exact) (hj : j < min len s.cfg.OB + s.cfg.P) (draw : Nat) :
    elemReal (splitView (filteredView len s) draw ((filteredView len s).elem .x) j) =
      filterSample len s j := by
  have hcfg : (filteredView len s).cfg = s.cfg := by simp [filteredView, openView]
  have hpad : (filteredView len s).elem .pad j = s.elem .pad j :=
    sameMemories_filteredView len s .pad (by simp) j
  have htail : carriedTail (filteredView len s) .post j = carriedTail s .post j := by
    rw [carriedTail, hcfg, hpad, ← carriedTail]
  rw [elemReal_splitView (by rwa [hcfg]), elemReal_filteredView hlegal hexact hj, htail,
    filterSample]

theorem filteredView_actlen (hlegal : s.cfg.legal = true) (len : Nat) :
    (filteredView len s).actlen.toNat = min len s.cfg.OB := by
  rw [filteredView, convolve_actlen, openView_actlen hlegal]

theorem elemReal_filtered_io (hlegal : s.cfg.legal = true) (hexact : s.cfg.arith = .exact)
    (hj : j < min len s.cfg.OB) :
    elemReal ((filtered len s).elem .io j) = filterSample len s j := by
  rw [filtered, elem_closeView_io (by rwa [filteredView_actlen hlegal]),
    elemReal_splitView_filteredView hlegal hexact (by omega)]

theorem elemReal_filtered_pad (hlegal : s.cfg.legal = true) (hexact : s.cfg.arith = .exact)
    (hj : j < s.cfg.P) :
    elemReal ((filtered len s).elem .pad j) = filterSample len s (min len s.cfg.OB + j) := by
  rw [filtered, elem_closeView_pad (by simpa [filteredView, openView] using hj),
    filteredView_actlen hlegal, elemReal_splitView_filteredView hlegal hexact (by omega)]

theorem filterSample_pre (hpre : s.cfg.tailAdd = .pre) (len j : Nat) :
    filterSample len s j = cconv s.cfg.N (kernelInTime s)
      (fun i => (if i < min len s.cfg.OB then elemReal (s.elem .io i) else 0) +
        if i < s.cfg.P then elemReal (s.elem .pad i) else 0) j := by
  simp [filterSample, carriedTail, blockOf, hpre]

theorem filterSample_post (hpost : s.cfg.tailAdd = .post) (len j : Nat) :
    filterSample len s j =
      cconv s.cfg.N (kernelInTime s) (blockOf s .io (min len s.cfg.OB)) j +
        if j < s.cfg.P then elemReal (s.elem .pad j) else 0 := by
  simp [filterSample, carriedTail, hpost]

/-- Settles O32. -/
theorem filterUnderPre : Obligations.FilterUnderPre := by
  unfold Obligations.FilterUnderPre
  intro s len hs hlegal hexact hpre hlen
  refine ⟨_, filterRun_filtered hs hlegal hlen, fun j hj => ?_, fun j hj => ?_, rfl,
    counted_filtered len s⟩
  · rw [elemReal_filtered_io hlegal hexact hj, filterSample_pre hpre]
  · rw [elemReal_filtered_pad hlegal hexact hj, filterSample_pre hpre]

/-- Settles O33. -/
theorem filterUnderPost : Obligations.FilterUnderPost := by
  unfold Obligations.FilterUnderPost
  intro s len hs hlegal hexact hpost hlen
  refine ⟨_, filterRun_filtered hs hlegal hlen, fun j hj => ?_, fun j hj => ?_, rfl⟩
  · rw [elemReal_filtered_io hlegal hexact hj, filterSample_post hpost]
  · rw [elemReal_filtered_pad hlegal hexact hj, filterSample_post hpost]

/-! ### The stream under POST -/

theorem kernelInTime_filtered (len : Nat) (s : State) :
    kernelInTime (filtered len s) = kernelInTime s :=
  kernelInTime_congr (filtered_cfg len s) fun i =>
    (sameMemories_closeView _ .h (by simp) i).trans
      (sameMemories_filteredView len s .h (by simp) i)

/-- R132, R133: in mid-stream, what `FILTER` gives is the next n + P samples of the stream. -/
theorem filterSample_of_midStream {g : ℕ → ℝ} {T : ℕ} {past : ℕ → ℝ} (h : MidStream s g T past)
    (hj : j < min len s.cfg.OB + s.cfg.P) : filterSample len s j =
      linearConv g (appended T past (blockOf s .io (min len s.cfg.OB))) (T + j) := by
  have htaps : ∀ k, s.cfg.P < k → g k = 0 := fun k hk =>
    h.short k (by unfold Params.P at hk; omega)
  have hblock : ∀ i, s.cfg.N ≤ i + s.cfg.P → blockOf s .io (min len s.cfg.OB) i = 0 := fun i hi =>
    if_neg (by unfold Params.N at hi; omega)
  have htail : (if j < s.cfg.P then elemReal (s.elem .pad j) else 0) =
      linearConv g past (T + j) := by
    split_ifs with hjP
    · exact h.tail j hjP
    · exact (linearConv_eq_zero htaps h.ends (by omega)).symm
  calc filterSample len s j
      = cconv s.cfg.N g (blockOf s .io (min len s.cfg.OB)) j + linearConv g past (T + j) := by
        rw [filterSample_post h.post, htail,
          cconv_congr h.kernel (fun _ _ => rfl) (N_pos_of_legal h.legal)]
    _ = linearConv g (blockOf s .io (min len s.cfg.OB)) j + linearConv g past (T + j) := by
        rw [cconv_eq_linearConv htaps hblock (by unfold Params.N; omega)]
    _ = linearConv g (appended T past (blockOf s .io (min len s.cfg.OB))) (T + j) := by
        rw [linearConv_appended g h.ends, add_comm]

theorem midStream_filtered {g : ℕ → ℝ} {T : ℕ} {past : ℕ → ℝ} (h : MidStream s g T past)
    (len : Nat) : MidStream (filtered len s) g (T + min len s.cfg.OB)
      (appended T past (blockOf s .io (min len s.cfg.OB))) where
  ready := rfl
  legal := by rw [filtered_cfg, h.legal]
  exact := by rw [filtered_cfg, h.exact]
  post := by rw [filtered_cfg, h.post]
  kernel := by rw [filtered_cfg, kernelInTime_filtered]; exact h.kernel
  short := by rw [filtered_cfg]; exact h.short
  ends m hm := by rw [appended, if_neg (by omega), blockOf, if_neg (by omega)]
  tail j hj := by
    rw [filtered_cfg] at hj
    rw [elemReal_filtered_pad h.legal h.exact hj, filterSample_of_midStream h (by omega),
      Nat.add_assoc]

/-- Settles O34: the samples `FILTER` gives are the stream's (`filterSample_of_midStream`); the
first n are the output, the rest the tail of the next mid-stream state. -/
theorem postStreamIsLinearConvolution : Obligations.PostStreamIsLinearConvolution := by
  unfold Obligations.PostStreamIsLinearConvolution
  intro s g T past len h hlen
  refine ⟨_, filterRun_filtered h.ready h.legal hlen, filtered_cfg len s, fun j hj => ?_,
    midStream_filtered h len⟩
  rw [elemReal_filtered_io h.legal h.exact hj, filterSample_of_midStream h (by omega)]
  rfl

/-- R133: with nothing gone in, the tail of the empty stream is +0.0. -/
theorem midStream_of_pad_zero {g : ℕ → ℝ} (hs : s.phase = .ready) (hlegal : s.cfg.legal = true)
    (hexact : s.cfg.arith = .exact) (hpost : s.cfg.tailAdd = .post)
    (hkernel : ∀ k, k < s.cfg.N → kernelInTime s k = g k) (hshort : ∀ k, s.cfg.L ≤ k → g k = 0)
    (hpad : ∀ j, j < s.cfg.P → s.elem .pad j = s.cfg.kind.zero) :
    MidStream s g 0 (fun _ => 0) where
  ready := hs
  legal := hlegal
  exact := hexact
  post := hpost
  kernel := hkernel
  short := hshort
  ends _ _ := rfl
  tail j hj := by rw [hpad j hj, elemReal_zero hexact, linearConv_zero]

/-- Settles O35: the padding is +0.0 in both states, and `OVLRESET` leaves `H` alone. -/
theorem emptyTailStartsAStream : Obligations.EmptyTailStartsAStream := by
  unfold Obligations.EmptyTailStartsAStream
  intro s g hs hlegal hexact hpost hkernel hshort
  refine ⟨fun ⟨hzero, _⟩ => midStream_of_pad_zero hs hlegal hexact hpost hkernel hshort fun j _ =>
    hzero .pad (by simp) j, _, exec_ovlreset hs, ?_⟩
  have hcfg : (clearOverlap s).cfg = s.cfg := clearOverlap_cfg s
  have hkept : kernelInTime (clearOverlap s) = kernelInTime s :=
    kernelInTime_congr hcfg (sameMemories_clearOverlap s .h (by simp))
  exact midStream_of_pad_zero ((clearOverlap_phase s).trans hs) (by rwa [hcfg]) (by rwa [hcfg])
    (by rwa [hcfg]) (by rwa [hcfg, hkept]) (by rwa [hcfg])
    fun j hj => elem_clearOverlap_pad (by rwa [hcfg] at hj)

end Sys2Proof.Machine
end

section
/-! No step changes the constants, and in a window no move but `Reset` changes ACTLEN (rules R22,
R24, R126, R180). -/

namespace Sys2Proof.Machine

open Sys2Proof.Claims

@[simp] theorem effectOf_cfg (i : Instr) (s : State) : (effectOf i s).cfg = s.cfg := by
  cases i <;> simp [effectOf]

/-- R126: the commands legal in an open window do not write ACTLEN. -/
theorem effectOf_actlen_of_window {i : Instr} {s : State}
    (hs : s.phase = .inner ∨ s.phase = .callback) (hlegal : legalIn i s.phase = true) :
    (effectOf i s).actlen = s.actlen := by
  have hready : s.phase ≠ .ready := by
    obtain h | h := hs <;> simp [h]
  cases i with
  | ovlwrap len | ovsbegin len => exact absurd (onlyReady_iff.1 hlegal) hready
  | nop | kgen | kfft | kfreq | conv r len | ovlunwrap | ovlreset | ovsend | zstuff len | decim len
  | diagclr => simp [effectOf]

/-- What rules R22 and R126 ask of a step from a window, `Reset` apart. -/
def ConstantsAndActlenKept (s t : State) : Prop :=
  t.cfg = s.cfg ∧ (s.phase = .inner ∨ s.phase = .callback → t.actlen = s.actlen)

theorem exec_constantsAndActlenKept {i : Instr} {s t : State} (hexec : exec i s = .next t) :
    ConstantsAndActlenKept s t := by
  rw [exec_eq_runCommand] at hexec
  obtain ⟨-, rfl⟩ | ⟨-, -, rfl⟩ | ⟨-, -, -, rfl⟩ | ⟨-, hlegal, -, rfl⟩ := runCommand_cases hexec
  · exact ⟨rfl, fun _ => rfl⟩
  · exact ⟨rfl, fun _ => rfl⟩
  · exact ⟨rfl, fun _ => rfl⟩
  · exact ⟨effectOf_cfg i s, fun hs => effectOf_actlen_of_window hs hlegal⟩

theorem issue_constantsAndActlenKept {w : Word} {s t : State} (hissue : issue w s = .next t) :
    ConstantsAndActlenKept s t := by
  obtain ⟨-, rfl⟩ | ⟨-, -, rfl⟩ | ⟨-, i, -, hexec⟩ := issue_cases hissue
  · exact ⟨rfl, fun _ => rfl⟩
  · exact ⟨rfl, fun _ => rfl⟩
  · exact exec_constantsAndActlenKept hexec

/-- Settles O49: one case a kind of move; the commands by `issue_constantsAndActlenKept`. -/
theorem constantsAndOpenWindowStay : Obligations.ConstantsAndOpenWindowStay := by
  unfold Obligations.ConstantsAndOpenWindowStay
  intro s t hstep
  obtain ⟨-, rfl⟩ | ⟨rest, hmoves, rfl⟩ | ⟨rest, off, c, -, -, rfl⟩ | ⟨rest, w, -, hissue⟩ |
    ⟨rest, r, i, m, -, -, -, rfl⟩ | ⟨rest, r, i, m, v, -, -, -, -, rfl⟩ := step_cases hstep
  · exact ⟨rfl, fun _ _ => rfl⟩
  · exact ⟨resetMove_cfg _, fun hreset => absurd (by rw [hmoves]; rfl) hreset⟩
  · exact ⟨rfl, fun _ _ => rfl⟩
  · obtain ⟨hcfg, hactlen⟩ := issue_constantsAndActlenKept hissue
    exact ⟨hcfg, fun _ => hactlen⟩
  · exact ⟨rfl, fun _ _ => rfl⟩
  · simp

end Sys2Proof.Machine
end

section
/-! The oversampling composition: `ZSTUFF` and `DECIM` (rules R136 to R138), then `OVSBEGIN` and
`OVSEND` (rules R139 to R145), which run them around a wrap, two convolutions and a split. -/

namespace Sys2Proof.Machine

open Sys2Proof.Reference Sys2Proof.Claims

variable {s : State} {len j r : Nat}

@[simp] theorem onlyCallback_iff {ph : Phase} : onlyCallback ph = true ↔ ph = .callback := by
  cases ph <;> decide

theorem blockCheck_of_lt (h : s.cfg.M < len) : blockCheck len s = .assertBlock :=
  if_neg (by omega)

/-! ### `ZSTUFF` -/

theorem exec_zstuff (h : s.phase = .ready) (hlen : len ≤ s.cfg.M) :
    exec (.zstuff len) s = .next (zeroStuff len s) :=
  exec_of_legal (onlyReady_iff.2 h) (blockCheck_eq_none_iff.2 hlen)

theorem elem_zeroStuff_os_mul (hF : 0 < s.cfg.F) (hj : j < len) :
    (zeroStuff len s).elem .os (j * s.cfg.F) =
      elemScale s.cfg s.draws (j * s.cfg.F) (s.elem .io j) := by
  rw [elem_zeroStuff, if_pos ⟨rfl, Nat.mul_lt_mul_of_pos_right hj hF⟩, stuffedElem,
    if_pos (Nat.mul_mod_left _ _), Nat.mul_div_cancel _ hF]

/-- R136: between two samples stands +0.0. -/
theorem elem_zeroStuff_os_between (hj : j < len) (hr : 0 < r) (hrF : r < s.cfg.F) :
    (zeroStuff len s).elem .os (j * s.cfg.F + r) = s.cfg.kind.zero := by
  have hlt : j * s.cfg.F + r < len * s.cfg.F :=
    calc j * s.cfg.F + r < (j + 1) * s.cfg.F := by rw [Nat.succ_mul]; omega
      _ ≤ len * s.cfg.F := Nat.mul_le_mul_right _ hj
  have hmod : (j * s.cfg.F + r) % s.cfg.F = r := by
    rw [Nat.mul_add_mod_self_right, Nat.mod_eq_of_lt hrF]
  rw [elem_zeroStuff, if_pos ⟨rfl, hlt⟩, stuffedElem, hmod, if_neg hr.ne']
  rfl

theorem elem_zeroStuff_os_of_ge (hj : len * s.cfg.F ≤ j) :
    (zeroStuff len s).elem .os j = s.elem .os j := by
  rw [elem_zeroStuff, if_neg (by omega)]

theorem sameMemories_zeroStuff (len : Nat) (s : State) :
    SameMemories [.os] s (zeroStuff len s) := by
  intro m hm i
  rw [elem_zeroStuff, if_neg fun h => hm (by simp [h.1])]

/-- Settles O36. -/
theorem zstuffExpandsTheBlock : Obligations.ZstuffExpandsTheBlock := by
  unfold Obligations.ZstuffExpandsTheBlock
  refine ⟨fun s len hs hlegal hlen => ?_, fun len => badPhaseOutside_of_legalIn fun ph h => ?_,
    fun s len hs hlen => exec_of_check (onlyReady_iff.2 hs) (blockCheck_of_lt hlen) nofun,
    encodesAs_of_mem_lengthCommands (by simp [lengthCommands])⟩
  · exact ⟨_, exec_zstuff hs hlen, fun j => elem_zeroStuff_os_mul (one_le_F_of_legal hlegal),
      fun j r => elem_zeroStuff_os_between, fun i => elem_zeroStuff_os_of_ge,
      sameMemories_zeroStuff len s, by simp [SameRecord], by simp [SameDiags],
      zeroStuff_phase len s, zeroStuff_actlen len s⟩
  · exact List.mem_singleton.2 (onlyReady_iff.1 h)

/-! ### `DECIM` -/

theorem exec_decim (h : s.phase = .ready) (hlen : len ≤ s.cfg.M) :
    exec (.decim len) s = .next (decimate len s) :=
  exec_of_legal (onlyReady_iff.2 h) (blockCheck_eq_none_iff.2 hlen)

theorem elem_decimate_io (hj : j < len) :
    (decimate len s).elem .io j = s.elem .os (j * s.cfg.F) := by
  rw [elem_decimate, if_pos ⟨rfl, hj⟩]

theorem elem_decimate_io_of_ge (hj : len ≤ j) : (decimate len s).elem .io j = s.elem .io j := by
  rw [elem_decimate, if_neg (by omega)]

theorem sameMemories_decimate (len : Nat) (s : State) : SameMemories [.io] s (decimate len s) := by
  intro m hm i
  rw [elem_decimate, if_neg fun h => hm (by simp [h.1])]

/-- Settles O37. -/
theorem decimKeepsEveryFth : Obligations.DecimKeepsEveryFth := by
  unfold Obligations.DecimKeepsEveryFth
  refine ⟨fun s len hs hlen => ?_, fun len => badPhaseOutside_of_legalIn fun ph h => ?_,
    fun s len hs hlen => exec_of_check (onlyReady_iff.2 hs) (blockCheck_of_lt hlen) nofun,
    encodesAs_of_mem_lengthCommands (by simp [lengthCommands])⟩
  · exact ⟨_, exec_decim hs hlen, fun j => elem_decimate_io, fun j => elem_decimate_io_of_ge,
      sameMemories_decimate len s, by simp [SameRecord], by simp [SameDiags],
      decimate_phase len s, decimate_actlen len s⟩
  · exact List.mem_singleton.2 (onlyReady_iff.1 h)

/-- Settles O38: `DECIM` keeps just the elements that `ZSTUFF` scaled. -/
theorem roundTripScalesByF : Obligations.RoundTripScalesByF := by
  unfold Obligations.RoundTripScalesByF
  intro s len hs hlegal hlen
  refine ⟨_, _, exec_zstuff hs hlen, exec_decim (by simpa using hs) (by simpa using hlen),
    fun j hj => ?_⟩
  have hsample : (decimate len (zeroStuff len s)).elem .io j =
      elemScale s.cfg s.draws (j * s.cfg.F) (s.elem .io j) := by
    rw [elem_decimate_io hj, zeroStuff_cfg, elem_zeroStuff_os_mul (one_le_F_of_legal hlegal) hj]
  exact ⟨hsample, fun hexact => by rw [hsample, elemReal_elemScale hexact]⟩

/-! ### The filter of the view -/

/-- R142: the samples the filter puts in place of the view. -/
def filteredSample (s : State) : Nat → Elem :=
  cconvElem s.cfg (s.elems .h (2 * s.cfg.N)) (s.elems .x (s.actlen.toNat + s.cfg.P))

/-- R24: the view fits the transform. -/
theorem viewLen_le_N (h : s.actlen.toNat ≤ s.cfg.OB) : s.actlen.toNat + s.cfg.P ≤ s.cfg.N :=
  Nat.add_le_add_right h _

theorem elem_filterView_x (h : s.actlen.toNat ≤ s.cfg.OB) (hj : j < s.actlen.toNat + s.cfg.P) :
    (filterView s).elem .x j = filteredSample s j := by
  rw [filterView, elem_convolve s .x _ (m := .x) nofun nofun, Nat.min_eq_left (viewLen_le_N h),
    if_pos ⟨rfl, hj⟩, filteredSample]

theorem elem_filterView_x_of_ge (hj : s.actlen.toNat + s.cfg.P ≤ j) :
    (filterView s).elem .x j = s.elem .x j := by
  rw [filterView, elem_convolve s .x _ (m := .x) nofun nofun, if_neg (by omega)]

theorem sameMemories_filterView (s : State) : SameMemories [.x, .w, .scr] s (filterView s) :=
  sameMemories_convolve s .x _

theorem counted_filterView (s : State) : Counted (s.actlen.toNat + s.cfg.P < s.cfg.N) s.diagShort
    (filterView s).diagShort := by
  rw [filterView, convolve_diagShort]
  exact counted_ite _ _

theorem filterView_diagLong (h : s.actlen.toNat ≤ s.cfg.OB) :
    (filterView s).diagLong = s.diagLong := by
  rw [filterView, convolve_diagLong, if_neg (viewLen_le_N h).not_gt]

/-! ### `OVSBEGIN` -/

theorem exec_ovsbegin (h : s.phase = .ready) (hlen : len ≤ s.cfg.M) :
    exec (.ovsbegin len) s = .next (beginOversample len s) :=
  exec_of_legal (onlyReady_iff.2 h) (blockCheck_eq_none_iff.2 hlen)

/-- R140: the zero-stuffed block wrapped, before the filter. -/
def stuffedView (len : Nat) (s : State) : State := wrap .os (len * s.cfg.F) (zeroStuff len s)

theorem beginOversample_eq (len : Nat) (s : State) :
    beginOversample len s = (filterView (stuffedView len s)).setPhase .callback := rfl

@[simp] theorem stuffedView_cfg (len : Nat) (s : State) : (stuffedView len s).cfg = s.cfg := by
  simp [stuffedView]

theorem stuffedLen_le_OB (hlen : len ≤ s.cfg.M) : len * s.cfg.F ≤ s.cfg.OB :=
  Nat.mul_le_mul_right _ hlen

theorem stuffedView_actlen (hlegal : s.cfg.legal = true) (hlen : len ≤ s.cfg.M) :
    (stuffedView len s).actlen.toNat = len * s.cfg.F := by
  have hle := stuffedLen_le_OB hlen
  rw [stuffedView, wrap_actlen, zeroStuff_cfg, Nat.min_eq_left hle, BitVec.toNat_ofNat,
    Nat.mod_eq_of_lt (hle.trans_lt (OB_lt_of_legal hlegal))]

theorem elem_stuffedView_os (len : Nat) (s : State) (j : Nat) :
    (stuffedView len s).elem .os j = (zeroStuff len s).elem .os j := by
  rw [stuffedView, elem_wrap, if_neg nofun]

/-- R140: only `OS` and the draws have changed when the view is made. -/
theorem elem_stuffedView_x (hlen : len ≤ s.cfg.M) (hj : j < len * s.cfg.F + s.cfg.P) :
    (stuffedView len s).elem .x j =
      extendedView s (s.draws + 1) (len * s.cfg.F) ((zeroStuff len s).elem .os) j := by
  have hpad : (zeroStuff len s).elem .pad j = s.elem .pad j :=
    sameMemories_zeroStuff len s .pad (by simp) j
  rw [stuffedView, elem_wrap, zeroStuff_cfg, Nat.min_eq_left (stuffedLen_le_OB hlen),
    if_pos ⟨rfl, hj⟩]
  simp [wrappedElem, extendedView, hpad, State.zero]

theorem elem_stuffedView_x_of_ge (hj : len * s.cfg.F + s.cfg.P ≤ j) :
    (stuffedView len s).elem .x j = s.elem .x j := by
  rw [stuffedView, elem_wrap, zeroStuff_cfg, if_neg (by omega)]
  exact sameMemories_zeroStuff len s .x (by simp) j

theorem sameMemories_stuffedView (len : Nat) (s : State) :
    SameMemories [.os, .x] s (stuffedView len s) := by
  intro m hm i
  obtain ⟨hos, hx⟩ : m ≠ .os ∧ m ≠ .x := by simpa using hm
  rw [stuffedView, elem_wrap, if_neg fun h => hx h.1]
  exact sameMemories_zeroStuff len s m (by simpa using hos) i

theorem sameMemories_beginOversample (len : Nat) (s : State) :
    SameMemories [.os, .x, .w, .scr] s (beginOversample len s) := by
  intro m hm i
  obtain ⟨hos, hx, hw, hscr⟩ : m ≠ .os ∧ m ≠ .x ∧ m ≠ .w ∧ m ≠ .scr := by simpa using hm
  rw [beginOversample_eq, elem_setPhase, sameMemories_filterView _ m (by simp [hx, hw, hscr]),
    sameMemories_stuffedView _ _ m (by simp [hos, hx])]

theorem elem_beginOversample_os (len : Nat) (s : State) (j : Nat) :
    (beginOversample len s).elem .os j = (zeroStuff len s).elem .os j := by
  rw [beginOversample_eq, elem_setPhase, sameMemories_filterView _ .os (by simp),
    elem_stuffedView_os]

/-- The filter's operands: `H` as it was, and the view of the stuffed block. -/
theorem filteredSample_stuffedView (hlegal : s.cfg.legal = true) (hlen : len ≤ s.cfg.M) :
    filteredSample (stuffedView len s) = cconvElem s.cfg (s.elems .h (2 * s.cfg.N))
      ((List.range (len * s.cfg.F + s.cfg.P)).map
        (extendedView s (s.draws + 1) (len * s.cfg.F) ((beginOversample len s).elem .os))) := by
  have hh : (stuffedView len s).elem .h = s.elem .h :=
    funext (sameMemories_stuffedView len s .h (by simp))
  have hos : (beginOversample len s).elem .os = (zeroStuff len s).elem .os :=
    funext (elem_beginOversample_os len s)
  have hview : (stuffedView len s).elems .x (len * s.cfg.F + s.cfg.P) =
      (List.range (len * s.cfg.F + s.cfg.P)).map
        (extendedView s (s.draws + 1) (len * s.cfg.F) ((zeroStuff len s).elem .os)) :=
    List.map_congr_left fun j hj => elem_stuffedView_x hlen (List.mem_range.1 hj)
  rw [filteredSample, stuffedView_actlen hlegal hlen, stuffedView_cfg, hview, hos, State.elems, hh,
    ← State.elems]

theorem stuffedView_actlen_le (hlegal : s.cfg.legal = true) (hlen : len ≤ s.cfg.M) :
    (stuffedView len s).actlen.toNat ≤ (stuffedView len s).cfg.OB := by
  rw [stuffedView_actlen hlegal hlen, stuffedView_cfg]
  exact stuffedLen_le_OB hlen

theorem elem_beginOversample_x (hlegal : s.cfg.legal = true) (hlen : len ≤ s.cfg.M)
    (hj : j < len * s.cfg.F + s.cfg.P) :
    (beginOversample len s).elem .x j = cconvElem s.cfg (s.elems .h (2 * s.cfg.N))
      ((List.range (len * s.cfg.F + s.cfg.P)).map
        (extendedView s (s.draws + 1) (len * s.cfg.F) ((beginOversample len s).elem .os))) j := by
  rw [← filteredSample_stuffedView hlegal hlen, beginOversample_eq, elem_setPhase,
    elem_filterView_x (stuffedView_actlen_le hlegal hlen)
      (by rwa [stuffedView_actlen hlegal hlen, stuffedView_cfg])]

theorem elem_beginOversample_x_of_ge (hlegal : s.cfg.legal = true) (hlen : len ≤ s.cfg.M)
    (hj : len * s.cfg.F + s.cfg.P ≤ j) : (beginOversample len s).elem .x j = s.elem .x j := by
  rw [beginOversample_eq, elem_setPhase,
    elem_filterView_x_of_ge (by rwa [stuffedView_actlen hlegal hlen, stuffedView_cfg]),
    elem_stuffedView_x_of_ge hj]

/-- R145: the view is as long as the transform just for a full block. -/
theorem counted_beginOversample (hlegal : s.cfg.legal = true) (hlen : len ≤ s.cfg.M) :
    Counted (len < s.cfg.M) s.diagShort (beginOversample len s).diagShort := by
  have hshort : (stuffedView len s).actlen.toNat + (stuffedView len s).cfg.P <
      (stuffedView len s).cfg.N ↔ len < s.cfg.M := by
    rw [stuffedView_actlen hlegal hlen, stuffedView_cfg, Params.N, Params.OB,
      Nat.add_lt_add_iff_right, Nat.mul_lt_mul_right (one_le_F_of_legal hlegal)]
  have hcount := counted_filterView (stuffedView len s)
  rw [hshort] at hcount
  simpa [beginOversample_eq, stuffedView] using hcount

theorem beginOversample_diagLong (hlegal : s.cfg.legal = true) (hlen : len ≤ s.cfg.M) :
    (beginOversample len s).diagLong = s.diagLong := by
  rw [beginOversample_eq, setPhase_diagLong,
    filterView_diagLong (stuffedView_actlen_le hlegal hlen)]
  simp [stuffedView]

/-- R139: a block within M is never truncated. -/
theorem beginOversample_diagTrunc (hlen : len ≤ s.cfg.M) :
    (beginOversample len s).diagTrunc = s.diagTrunc := by
  rw [beginOversample_eq, setPhase_diagTrunc, filterView_diagTrunc, stuffedView, wrap_diagTrunc,
    zeroStuff_cfg, if_neg (stuffedLen_le_OB hlen).not_gt, zeroStuff_diagTrunc]

/-- Settles O39: the block is that of `ZSTUFF`, the rest is `beginOversample` read memory by
memory. -/
theorem ovsbeginOpensTheCallback : Obligations.OvsbeginOpensTheCallback := by
  unfold Obligations.OvsbeginOpensTheCallback
  refine ⟨fun s len hs hlegal hlen => ?_, fun len => badPhaseOutside_of_legalIn fun ph h => ?_,
    fun s len hs hlen => exec_of_check (onlyReady_iff.2 hs) (blockCheck_of_lt hlen) nofun,
    encodesAs_of_mem_lengthCommands (by simp [lengthCommands])⟩
  · refine ⟨_, exec_ovsbegin hs hlen, fun j hj => ?_, fun j r hj hr hrF => ?_, fun i hi => ?_,
      fun j => elem_beginOversample_x hlegal hlen,
      fun j => elem_beginOversample_x_of_ge hlegal hlen, ?_, beginOversample_phase len s,
      sameMemories_beginOversample len s, by simp [SameRecord],
      counted_beginOversample hlegal hlen, beginOversample_diagLong hlegal hlen,
      beginOversample_diagTrunc hlen⟩
    · rw [elem_beginOversample_os, elem_zeroStuff_os_mul (one_le_F_of_legal hlegal) hj]
    · rw [elem_beginOversample_os, elem_zeroStuff_os_between hj hr hrF]
    · rw [elem_beginOversample_os, elem_zeroStuff_os_of_ge hi]
    · rw [beginOversample_eq, setPhase_actlen, filterView_actlen, stuffedView_actlen hlegal hlen]
  · exact List.mem_singleton.2 (onlyReady_iff.1 h)

/-! ### `OVSEND` -/

theorem exec_ovsend (h : s.phase = .callback) : exec .ovsend s = .next (endOversample s) :=
  exec_of_legal (onlyCallback_iff.2 h) rfl

/-- R142: the filtered view at the split. -/
def splitSample (s : State) : Nat → Elem := splitView s (s.draws + 1) (filteredSample s)

/-- The split reads what the filter wrote; the filter leaves the carried padding. -/
theorem unwrappedElem_filterView (h : s.actlen.toNat ≤ s.cfg.OB)
    (hj : j < s.actlen.toNat + s.cfg.P) : unwrappedElem (filterView s) j = splitSample s j := by
  have hpad : (filterView s).elem .pad j = s.elem .pad j :=
    sameMemories_filterView s .pad (by simp) j
  simp [unwrappedElem, splitSample, splitView, elem_filterView_x h hj, hpad]

/-- R127: beyond the view no padding is added. -/
theorem unwrappedElem_filterView_of_ge (hj : s.actlen.toNat + s.cfg.P ≤ j) :
    unwrappedElem (filterView s) j = s.elem .x j := by
  rw [unwrappedElem, filterView_cfg, if_neg (by omega), elem_filterView_x_of_ge hj]

/-- R142: the decimation at the end writes `IO` alone. -/
theorem elem_endOversample_of_ne {m : Mem} (hm : m ≠ .io) (j : Nat) :
    (endOversample s).elem m j = (unwrap .os (filterView s)).elem m j := by
  rw [endOversample, elem_setPhase, elem_decimate, if_neg fun h => hm h.1]

theorem elem_endOversample_x (s : State) (j : Nat) :
    (endOversample s).elem .x j = unwrappedElem (filterView s) j := by
  rw [elem_endOversample_of_ne (m := .x) nofun, elem_unwrap, if_neg nofun,
    if_neg nofun, if_pos rfl]

theorem elem_unwrap_filterView_os (h : s.actlen.toNat ≤ s.cfg.OB) (hj : j < s.actlen.toNat) :
    (unwrap .os (filterView s)).elem .os j = splitSample s j := by
  rw [elem_unwrap, if_neg nofun, filterView_actlen, if_pos ⟨rfl, hj⟩,
    unwrappedElem_filterView h (by omega)]

theorem elem_endOversample_os (h : s.actlen.toNat ≤ s.cfg.OB) (hj : j < s.actlen.toNat) :
    (endOversample s).elem .os j = splitSample s j := by
  rw [elem_endOversample_of_ne (m := .os) nofun, elem_unwrap_filterView_os h hj]

theorem elem_endOversample_os_of_ge (hj : s.actlen.toNat ≤ j) :
    (endOversample s).elem .os j = s.elem .os j := by
  rw [elem_endOversample_of_ne (m := .os) nofun, elem_unwrap, if_neg nofun,
    filterView_actlen, if_neg (by omega), if_neg nofun, sameMemories_filterView s .os (by simp)]

theorem elem_endOversample_pad (h : s.actlen.toNat ≤ s.cfg.OB) (hj : j < s.cfg.P) :
    (endOversample s).elem .pad j = splitSample s (s.actlen.toNat + j) := by
  rw [elem_endOversample_of_ne (m := .pad) nofun, elem_unwrap, filterView_cfg,
    if_pos ⟨rfl, hj⟩, filterView_actlen, unwrappedElem_filterView h (by omega)]

theorem elem_endOversample_pad_of_ge (hj : s.cfg.P ≤ j) :
    (endOversample s).elem .pad j = s.elem .pad j := by
  rw [elem_endOversample_of_ne (m := .pad) nofun, elem_unwrap, filterView_cfg,
    if_neg (by omega), if_neg nofun, if_neg nofun, sameMemories_filterView s .pad (by simp)]

/-- R142: with F dividing ACTLEN, the samples kept are those at the multiples of F below it. -/
theorem lt_actlen_div_iff (h : Inv s) (hs : s.phase = .callback) :
    j < s.actlen.toNat / s.cfg.F ↔ j * s.cfg.F < s.actlen.toNat :=
  Nat.lt_div_iff_mul_lt_of_dvd (Nat.ne_of_gt (one_le_F_of_legal h.legal)) (h.actlen_callback hs)

theorem elem_endOversample_io (h : Inv s) (hs : s.phase = .callback)
    (hj : j * s.cfg.F < s.actlen.toNat) :
    (endOversample s).elem .io j = splitSample s (j * s.cfg.F) := by
  rw [endOversample, elem_setPhase, elem_decimate_io ((lt_actlen_div_iff h hs).2 hj), unwrap_cfg,
    filterView_cfg, elem_unwrap_filterView_os h.actlen_le hj]

theorem elem_endOversample_io_of_ge (h : Inv s) (hs : s.phase = .callback)
    (hj : s.actlen.toNat ≤ j * s.cfg.F) : (endOversample s).elem .io j = s.elem .io j := by
  have hout : s.actlen.toNat / s.cfg.F ≤ j := by
    rw [← Nat.not_lt, lt_actlen_div_iff h hs]
    omega
  rw [endOversample, elem_setPhase, elem_decimate_io_of_ge hout, elem_unwrap, if_neg nofun,
    if_neg nofun, if_neg nofun, sameMemories_filterView s .io (by simp)]

theorem sameMemories_endOversample (s : State) :
    SameMemories [.x, .os, .pad, .io, .w, .scr] s (endOversample s) := by
  intro m hm i
  obtain ⟨hx, hos, hpad, hio, hw, hscr⟩ :
      m ≠ .x ∧ m ≠ .os ∧ m ≠ .pad ∧ m ≠ .io ∧ m ≠ .w ∧ m ≠ .scr := by simpa using hm
  rw [elem_endOversample_of_ne hio, elem_unwrap, if_neg fun h => hpad h.1, if_neg fun h => hos h.1,
    if_neg hx, sameMemories_filterView s m (by simp [hx, hw, hscr])]

theorem counted_endOversample (s : State) : Counted (s.actlen.toNat + s.cfg.P < s.cfg.N)
    s.diagShort (endOversample s).diagShort := by
  simpa [endOversample] using counted_filterView s

theorem endOversample_diagLong (h : s.actlen.toNat ≤ s.cfg.OB) :
    (endOversample s).diagLong = s.diagLong := by
  simpa [endOversample] using filterView_diagLong h

/-- Settles O40: the invariant bounds ACTLEN, so that the whole view is filtered, and makes it a
multiple of F, so that `IO` is written up to it. -/
theorem ovsendClosesTheCallback : Obligations.OvsendClosesTheCallback := by
  unfold Obligations.OvsendClosesTheCallback
  refine ⟨fun s hs hinv => ?_, badPhaseOutside_of_legalIn fun ph h => ?_, rfl⟩
  · have hle := hinv.actlen_le
    refine ⟨_, exec_ovsend hs, fun j hj => ?_, fun j hj => ?_, fun j => elem_endOversample_os hle,
      fun j => elem_endOversample_os_of_ge, fun j => elem_endOversample_pad hle,
      fun j => elem_endOversample_pad_of_ge, fun j => elem_endOversample_io hinv hs,
      fun j => elem_endOversample_io_of_ge hinv hs, sameMemories_endOversample s,
      by simp [SameRecord], endOversample_phase s, endOversample_actlen s,
      counted_endOversample s, endOversample_diagLong hle, endOversample_diagTrunc s⟩
    · rw [elem_endOversample_x, unwrappedElem_filterView hle hj]
      rfl
    · rw [elem_endOversample_x, unwrappedElem_filterView_of_ge hj]
  · exact List.mem_singleton.2 (onlyCallback_iff.1 h)

end Sys2Proof.Machine
end

section
/-! The phase machine (rule R156): the model's checks and effects agree with its table command by
command, so that one lemma, `exec_cases`, says how every command ends. Then FAULT (rule R157) and
the system commands `NOP` and `DIAGCLR` (rules R153, R154). -/

namespace Sys2Proof.Machine

open Sys2Proof.Claims

variable {i : Instr} {s : State} {len : Nat}

/-! ### The table's phases -/

@[simp] theorem phaseTable_fault (i : Instr) : phaseTable i .fault = .fault := by
  cases i <;> rfl

@[simp] theorem phaseTable_nop (ph : Phase) : phaseTable .nop ph = ph := by cases ph <;> rfl

@[simp] theorem phaseTable_diagclr (ph : Phase) : phaseTable .diagclr ph = ph := by
  cases ph <;> rfl

@[simp] theorem anyPhase_iff {ph : Phase} : anyPhase ph = true ↔ ph ≠ .fault := by
  cases ph <;> decide

@[simp] theorem onlyWindow_iff {ph : Phase} :
    onlyWindow ph = true ↔ ph = .inner ∨ ph = .callback := by
  cases ph <;> decide

/-- R81, R156: a command is legal in just the phases where the table has no F. -/
theorem legalIn_iff {ph : Phase} : legalIn i ph = true ↔ phaseTable i ph ≠ .fault := by
  cases i with
  | nop | diagclr => simp [legalIn]
  | conv r len => cases r <;> cases ph <;> simp [legalIn, convLegal, phaseTable]
  | kgen | kfft | kfreq | ovlwrap | ovlunwrap | ovlreset | ovsbegin | ovsend | zstuff | decim =>
    cases ph <;> simp [legalIn, phaseTable]

/-- R156: a legal command that is executed leads to the phase of the table. -/
theorem effectOf_phase (hlegal : legalIn i s.phase = true) :
    (effectOf i s).phase = phaseTable i s.phase := by
  cases i with
  | nop | diagclr => simp [effectOf]
  | kgen | kfft | kfreq => simp [effectOf, onlyUnbuilt_iff.1 hlegal, phaseTable]
  | conv r len =>
    cases r with
    | io => simp [effectOf, onlyReady_iff.1 hlegal, phaseTable]
    | x => obtain hs | hs := onlyWindow_iff.1 hlegal <;> simp [effectOf, hs, phaseTable]
  | ovlunwrap => simp [effectOf, onlyInner_iff.1 hlegal, phaseTable]
  | ovsend => simp [effectOf, onlyCallback_iff.1 hlegal, phaseTable]
  | ovlwrap | ovlreset | ovsbegin | zstuff | decim =>
    simp [effectOf, onlyReady_iff.1 hlegal, phaseTable]

/-! ### The operand checks -/

theorem operandFault_ne_none (i : Instr) : operandFault i ≠ .none := by cases i <;> nofun

/-- R62, R81: the two bounds of `CONV X` are the length of the open window. -/
theorem operandsFit_convX_iff (hs : s.phase = .inner ∨ s.phase = .callback) :
    OperandsFit s (.conv .x len) ↔ len ≤ windowLen s := by
  obtain hs | hs := hs <;> simp [OperandsFit, windowLen, hs]

/-- R81: where a command is legal, its check passes when its operands fit. -/
theorem checkOf_of_operandsFit (hlegal : legalIn i s.phase = true) (hfit : OperandsFit s i) :
    checkOf i s = .none := by
  cases i with
  | conv r len =>
    cases r with
    | io => exact ioCheck_of_le hfit
    | x => exact windowCheck_of_le ((operandsFit_convX_iff (onlyWindow_iff.1 hlegal)).1 hfit)
  | ovlwrap len => exact ioCheck_of_le hfit
  | ovsbegin | zstuff | decim => exact blockCheck_eq_none_iff.2 hfit
  | nop | kgen | kfft | kfreq | ovlunwrap | ovlreset | ovsend | diagclr => rfl

/-- R81: where a command is legal, its check gives the fault of the last column when they do not. -/
theorem checkOf_of_not_operandsFit (hlegal : legalIn i s.phase = true) (hfit : ¬OperandsFit s i) :
    checkOf i s = operandFault i := by
  cases i with
  | conv r len =>
    cases r with
    | io => exact ioCheck_of_lt (not_le.1 hfit)
    | x =>
      rw [operandsFit_convX_iff (onlyWindow_iff.1 hlegal)] at hfit
      exact windowCheck_of_lt (not_le.1 hfit)
  | ovlwrap len => exact ioCheck_of_lt (not_le.1 hfit)
  | ovsbegin | zstuff | decim => exact blockCheck_of_lt (not_le.1 hfit)
  | nop | kgen | kfft | kfreq | ovlunwrap | ovlreset | ovsend | diagclr => exact absurd trivial hfit

/-! ### How a command ends -/

/-- R157: a command is ignored in FAULT. -/
theorem exec_of_fault (hs : s.phase = .fault) (i : Instr) : exec i s = .next s := by
  rw [exec_eq_runCommand, runCommand_of_fault hs]

/-- R70, R156: every command has a next state, and it is one of four. -/
theorem exec_cases (i : Instr) (s : State) :
    (s.phase = .fault ∧ exec i s = .next s) ∨
    (s.phase ≠ .fault ∧ phaseTable i s.phase = .fault ∧
      exec i s = .next (raiseFault .badPhase (encode i) s)) ∨
    (phaseTable i s.phase ≠ .fault ∧ ¬OperandsFit s i ∧
      exec i s = .next (raiseFault (operandFault i) (encode i) s)) ∨
    (Executes s i ∧ exec i s = .next (effectOf i s)) := by
  by_cases hs : s.phase = .fault
  · exact .inl ⟨hs, exec_of_fault hs i⟩
  by_cases htable : phaseTable i s.phase = .fault
  · have hlegal : legalIn i s.phase = false :=
      Bool.eq_false_iff.2 fun h => legalIn_iff.1 h htable
    exact .inr (.inl ⟨hs, htable, by rw [exec_eq_runCommand, runCommand_of_illegal hs hlegal]⟩)
  have hlegal : legalIn i s.phase = true := legalIn_iff.2 htable
  by_cases hfit : OperandsFit s i
  · exact .inr (.inr (.inr
      ⟨⟨hs, htable, hfit⟩, exec_of_legal hlegal (checkOf_of_operandsFit hlegal hfit)⟩))
  · exact .inr (.inr (.inl ⟨htable, hfit,
      exec_of_check hlegal (checkOf_of_not_operandsFit hlegal hfit) (operandFault_ne_none i)⟩))

theorem step_cmdWrite_of_fault (hs : s.phase = .fault) (w : Word) :
    step (offering s (.csrWrite 0x04 w)) = .next { s with reply := .done } := if_pos hs

theorem step_cmdWrite_of_illegal {w : Word} (hw : decode w = none) (hs : s.phase ≠ .fault) :
    step (offering s (.csrWrite 0x04 w)) =
      .next (raiseFault .illegalCmd w { s with reply := .done }) :=
  issue_of_decode_eq_none hw (s := { s with reply := .done }) hs

/-- R156: a step that neither resets nor issues a command keeps the phase. -/
theorem step_phase_of_no_command {t : State} (hreset : noReset s)
    (hcmd : ∀ w, s.moves.head? ≠ some (.csrWrite 0x04 w)) (hstep : step s = .next t) :
    t.phase = s.phase := by
  obtain ⟨-, rfl⟩ | ⟨rest, hmoves, -⟩ | ⟨rest, off, c, -, -, rfl⟩ | ⟨rest, w, hmoves, -⟩ |
    ⟨rest, r, i, m, -, -, -, rfl⟩ | ⟨rest, r, i, m, v, -, -, -, -, rfl⟩ := step_cases hstep
  · rfl
  · exact absurd (by rw [hmoves]; rfl) hreset
  · rfl
  · exact absurd (by rw [hmoves]; rfl) (hcmd w)
  · rfl
  · simp

/-- Settles O10: the commands by `exec_cases`, the other steps by `step_phase_of_no_command`. -/
theorem phaseMachineIsComplete : Obligations.PhaseMachineIsComplete := by
  unfold Obligations.PhaseMachineIsComplete
  refine ⟨fun s i => ?_, fun s w hw => ?_, fun s => ⟨_, step_offering s .reset, resetMove_phase s⟩,
    fun s t => step_phase_of_no_command⟩
  · obtain ⟨hs, hexec⟩ | ⟨-, htable, hexec⟩ | ⟨htable, hfit, hexec⟩ |
      ⟨⟨-, htable, hfit⟩, hexec⟩ := exec_cases i s
    · exact ⟨_, hexec, fun _ => by rw [hs, phaseTable_fault], fun _ => hs, fun h => absurd hs h⟩
    · exact ⟨_, hexec, fun _ => htable.symm, fun _ => rfl, fun _ _ => rfl⟩
    · exact ⟨_, hexec, fun h => absurd h hfit, fun _ => rfl, fun _ h => absurd h htable⟩
    · exact ⟨_, hexec, fun _ => effectOf_phase (legalIn_iff.2 htable), fun h => absurd hfit h,
        fun _ h => absurd h htable⟩
  · by_cases hs : s.phase = .fault
    · exact ⟨_, step_cmdWrite_of_fault hs w, hs, fun h => absurd hs h⟩
    · exact ⟨_, step_cmdWrite_of_illegal hw hs, rfl, fun _ => rfl⟩

/-- Settles O7. -/
theorem faultPhaseIgnoresCommands : Obligations.FaultPhaseIgnoresCommands := by
  unfold Obligations.FaultPhaseIgnoresCommands
  exact fun s w hs => step_cmdWrite_of_fault hs w

/-! ### `NOP` and `DIAGCLR` -/

/-- Settles O15: in FAULT the command is ignored, elsewhere it is executed, and its effect is
none. -/
theorem nopChangesNothing : Obligations.NopChangesNothing := by
  unfold Obligations.NopChangesNothing
  refine ⟨by decide, fun s => ?_⟩
  by_cases hs : s.phase = .fault
  · exact exec_of_fault hs .nop
  · exact exec_of_legal (anyPhase_iff.2 hs) rfl

/-- Settles O16: DIAG_ANY is the bit that `statusFields` says, and the counters are 0. -/
theorem diagclrClearsTheCounters : Obligations.DiagclrClearsTheCounters := by
  unfold Obligations.DiagclrClearsTheCounters
  refine ⟨by decide, fun s hs => ⟨clearDiags s, exec_of_legal (anyPhase_iff.2 hs) rfl, rfl, ?_⟩⟩
  obtain ⟨-, -, hany, -⟩ := statusFields (clearDiags s)
  simpa using hany

end Sys2Proof.Machine
end

section
/-! Fault entry (rules R163 to R168): which fault a command word raises, and that its record and
the phase are all that changes. -/

namespace Sys2Proof.Machine

open Sys2Proof.Claims

variable {i : Instr} {s t : State} {w : Word} {code : FaultCode}

/-! ### How a command word ends -/

/-- R81: a command in a phase where the table has F raises `BAD_PHASE`. -/
theorem exec_of_phaseTable_fault (hs : s.phase ≠ .fault) (htable : phaseTable i s.phase = .fault) :
    exec i s = .next (raiseFault .badPhase (encode i) s) := by
  have hlegal : legalIn i s.phase = false := Bool.eq_false_iff.2 fun h => legalIn_iff.1 h htable
  rw [exec_eq_runCommand, runCommand_of_illegal hs hlegal]

/-- R166: a fault records its code and the word, and enters FAULT. -/
theorem step_of_raises (h : Raises s w code) :
    step (offering s (.csrWrite 0x04 w)) = .next (raiseFault code w (replied s .done)) := by
  obtain ⟨hs, ⟨hw, rfl⟩ | ⟨i, hw, ⟨htable, rfl⟩ | ⟨htable, hfit, rfl⟩⟩⟩ := h
  · exact step_cmdWrite_of_illegal hw hs
  · rw [step_cmdWrite hw, ← (encodeOfDecode w i hw).2]
    exact exec_of_phaseTable_fault hs htable
  · have hlegal : legalIn i s.phase = true := legalIn_iff.2 htable
    rw [step_cmdWrite hw, ← (encodeOfDecode w i hw).2]
    exact exec_of_check hlegal (checkOf_of_not_operandsFit hlegal hfit) (operandFault_ne_none i)

/-- R70: a command that is legal and whose operands fit has its effect. -/
theorem step_of_executes (hw : decode w = some i) (h : Executes s i) :
    step (offering s (.csrWrite 0x04 w)) = .next (effectOf i (replied s .done)) := by
  obtain ⟨-, htable, hfit⟩ := h
  have hlegal : legalIn i s.phase = true := legalIn_iff.2 htable
  rw [step_cmdWrite hw]
  exact exec_of_legal hlegal (checkOf_of_operandsFit hlegal hfit)

/-- R70: a command word is ignored, raises a fault, or is executed. -/
theorem commandWord_cases (s : State) (w : Word) : s.phase = .fault ∨
    (∃ code, Raises s w code) ∨ ∃ i, decode w = some i ∧ Executes s i := by
  by_cases hs : s.phase = .fault
  · exact .inl hs
  obtain hw | ⟨i, hw⟩ := (decode w).eq_none_or_eq_some
  · exact .inr (.inl ⟨_, hs, .inl ⟨hw, rfl⟩⟩)
  by_cases htable : phaseTable i s.phase = .fault
  · exact .inr (.inl ⟨_, hs, .inr ⟨i, hw, .inl ⟨htable, rfl⟩⟩⟩)
  by_cases hfit : OperandsFit s i
  · exact .inr (.inr ⟨i, hw, hs, htable, hfit⟩)
  · exact .inr (.inl ⟨_, hs, .inr ⟨i, hw, .inr ⟨htable, hfit, rfl⟩⟩⟩)

theorem exists_step_cmdWrite (s : State) (w : Word) :
    ∃ t, step (offering s (.csrWrite 0x04 w)) = .next t := by
  obtain hs | ⟨code, hraises⟩ | ⟨i, hw, hexec⟩ := commandWord_cases s w
  · exact ⟨_, step_cmdWrite_of_fault hs w⟩
  · exact ⟨_, step_of_raises hraises⟩
  · exact ⟨_, step_of_executes hw hexec⟩

/-! ### What each ending leaves -/

theorem raises_ne_none (h : Raises s w code) : code ≠ .none := by
  obtain ⟨-, ⟨-, rfl⟩ | ⟨i, -, ⟨-, rfl⟩ | ⟨-, -, rfl⟩⟩⟩ := h
  · nofun
  · nofun
  · exact operandFault_ne_none i

theorem faultCode_of_raises (hstep : step (offering s (.csrWrite 0x04 w)) = .next t)
    (h : Raises s w code) : t.faultCode = code := by
  obtain rfl := Host.Outcome.next.inj ((step_of_raises h).symm.trans hstep)
  rfl

@[simp] theorem effectOf_faultCode (i : Instr) (s : State) :
    (effectOf i s).faultCode = s.faultCode := by
  cases i <;> simp [effectOf]

@[simp] theorem effectOf_faultCmd (i : Instr) (s : State) :
    (effectOf i s).faultCmd = s.faultCmd := by
  cases i <;> simp [effectOf]

/-- R156: no command that is executed leads to FAULT. -/
theorem effectOf_phase_ne_fault (h : Executes s i) :
    (effectOf i (replied s .done)).phase ≠ .fault := by
  obtain ⟨-, htable, -⟩ := h
  rwa [effectOf_phase (s := replied s .done) (legalIn_iff.2 htable), replied_phase]

/-- R168: a word after which the phase is FAULT has counted nothing. -/
theorem sameDiags_of_cmdWrite_fault (hstep : step (offering s (.csrWrite 0x04 w)) = .next t)
    (ht : t.phase = .fault) : SameDiags s t := by
  obtain hs | ⟨code, hraises⟩ | ⟨i, hw, hexec⟩ := commandWord_cases s w
  · obtain rfl := Host.Outcome.next.inj ((step_cmdWrite_of_fault hs w).symm.trans hstep)
    exact ⟨rfl, rfl, rfl⟩
  · obtain rfl := Host.Outcome.next.inj ((step_of_raises hraises).symm.trans hstep)
    exact ⟨rfl, rfl, rfl⟩
  · obtain rfl := Host.Outcome.next.inj ((step_of_executes hw hexec).symm.trans hstep)
    exact absurd ht (effectOf_phase_ne_fault hexec)

/-! ### The statements -/

/-- Settles O11: a word that enters FAULT is neither ignored nor executed. -/
theorem faultEntryIsPrecise : Obligations.FaultEntryIsPrecise := by
  unfold Obligations.FaultEntryIsPrecise
  refine ⟨fun s w code => step_of_raises, fun s t w hs hstep ht => ?_⟩
  obtain hfault | ⟨code, hraises⟩ | ⟨i, hw, hexec⟩ := commandWord_cases s w
  · exact absurd hfault hs
  · exact ⟨code, raises_ne_none hraises, hraises⟩
  · obtain rfl := Host.Outcome.next.inj ((step_of_executes hw hexec).symm.trans hstep)
    exact absurd ht (effectOf_phase_ne_fault hexec)

/-- Settles O12: each rank of the priority is a case of `Raises`. -/
theorem faultPriority : Obligations.FaultPriority := by
  unfold Obligations.FaultPriority
  intro s w
  obtain ⟨t, hstep⟩ := exists_step_cmdWrite s w
  refine ⟨t, hstep, fun hs => ?_, fun hs hw => ?_, fun i hs hw =>
    ⟨fun htable => ?_, fun htable hfit => ?_, fun hexec => ?_⟩, sameDiags_of_cmdWrite_fault hstep⟩
  · obtain rfl := Host.Outcome.next.inj ((step_cmdWrite_of_fault hs w).symm.trans hstep)
    exact ⟨rfl, rfl⟩
  · exact faultCode_of_raises hstep ⟨hs, .inl ⟨hw, rfl⟩⟩
  · exact faultCode_of_raises hstep ⟨hs, .inr ⟨i, hw, .inl ⟨htable, rfl⟩⟩⟩
  · exact faultCode_of_raises hstep ⟨hs, .inr ⟨i, hw, .inr ⟨htable, hfit, rfl⟩⟩⟩
  · obtain rfl := Host.Outcome.next.inj ((step_of_executes hw hexec).symm.trans hstep)
    exact ⟨effectOf_phase_ne_fault hexec, effectOf_faultCode i _, effectOf_faultCmd i _⟩

/-- R164: a command legal in READY whose operand check is that of a block. -/
theorem raisesAbove_of_blockCheck {cmd : Nat → Instr}
    (hlegal : ∀ len, legalIn (cmd len) = onlyReady)
    (hcheck : ∀ len, checkOf (cmd len) = blockCheck len) :
    RaisesAbove (fun s => s.cfg.M) .assertBlock cmd := by
  intro s len hs hlen
  refine exec_of_check ?_ ?_ nofun
  · rw [hlegal, onlyReady_iff, hs]
  · rw [hcheck, blockCheck_of_lt hlen]

/-- Settles O13. -/
theorem oversizedBlockAsserts : Obligations.OversizedBlockAsserts := by
  unfold Obligations.OversizedBlockAsserts
  exact ⟨raisesAbove_of_blockCheck (fun _ => rfl) fun _ => rfl,
    raisesAbove_of_blockCheck (fun _ => rfl) fun _ => rfl,
    raisesAbove_of_blockCheck (fun _ => rfl) fun _ => rfl⟩

end Sys2Proof.Machine
end

section
/-! FAULT is left by `Reset` alone (rules R157, R170). -/

namespace Sys2Proof.Machine

open Sys2Proof.Claims

variable {s t : State}

/-- R62: in FAULT the host has no right to write. -/
theorem mayWrite_fault (m : Mem) : mayWrite .fault m = false := by cases m <;> rfl

/-- In FAULT a step that is not `Reset` only takes the move and answers it. -/
theorem step_of_fault (hs : s.phase = .fault) (hreset : noReset s) (hstep : step s = .next t) :
    t = s ∨ ∃ rest r, t = replied (afterTake s rest) r := by
  obtain ⟨-, rfl⟩ | ⟨rest, hmoves, -⟩ | ⟨rest, off, c, -, -, rfl⟩ | ⟨rest, w, -, hissue⟩ |
    ⟨rest, r, i, m, -, -, -, rfl⟩ | ⟨rest, r, i, m, v, -, -, ⟨hright, -⟩, -, -⟩ :=
    step_cases hstep
  · exact .inl rfl
  · exact absurd (by rw [hmoves]; rfl) hreset
  · exact .inr ⟨rest, _, rfl⟩
  · obtain ⟨-, rfl⟩ | ⟨hne, -⟩ | ⟨hne, -⟩ := issue_cases hissue
    · exact .inr ⟨rest, _, rfl⟩
    · exact absurd hs hne
    · exact absurd hs hne
  · exact .inr ⟨rest, _, rfl⟩
  · rw [hs, mayWrite_fault] at hright
    exact absurd hright nofun

/-- Settles O47: the queue and the answer are no part of what must stay. -/
theorem onlyResetLeavesFault : Obligations.OnlyResetLeavesFault := by
  unfold Obligations.OnlyResetLeavesFault
  intro s t hs hreset hstep
  obtain rfl | ⟨rest, r, rfl⟩ := step_of_fault hs hreset hstep
  · exact ⟨hs, rfl, rfl, rfl, rfl, ⟨rfl, rfl, rfl⟩, fun _ _ _ => rfl⟩
  · exact ⟨hs, rfl, rfl, rfl, rfl, ⟨rfl, rfl, rfl⟩, fun m _ i => by simp⟩

end Sys2Proof.Machine
end

section
/-! The diagnostic counters (rules R160, R161): one step counts at most one event. -/

namespace Sys2Proof.Machine

open Sys2Proof.Claims

variable {i : Instr} {s a t : State} {w : Word} {len : Nat}

/-- At most one of the counters has counted, once (rule R161). -/
def CountsAtMostOnce (s t : State) : Prop :=
  SameDiags s t ∨
    (Counted True s.diagShort t.diagShort ∧ t.diagLong = s.diagLong ∧ t.diagTrunc = s.diagTrunc) ∨
    (Counted True s.diagLong t.diagLong ∧ t.diagShort = s.diagShort ∧ t.diagTrunc = s.diagTrunc) ∨
    (Counted True s.diagTrunc t.diagTrunc ∧ t.diagShort = s.diagShort ∧ t.diagLong = s.diagLong)

theorem counted_satIncrement (c : Word) : Counted True c (satIncrement c) :=
  ⟨fun _ => satIncrement_toNat c, fun h => absurd trivial h⟩

theorem countsAtMostOnce_diag (s : State) (d : Diag) : CountsAtMostOnce s (s.diag d) := by
  cases d with
  | short => exact .inr (.inl ⟨counted_satIncrement _, rfl, rfl⟩)
  | long => exact .inr (.inr (.inl ⟨counted_satIncrement _, rfl, rfl⟩))
  | trunc => exact .inr (.inr (.inr ⟨counted_satIncrement _, rfl, rfl⟩))

/-- Before and after the count the counters may be carried along. -/
theorem CountsAtMostOnce.sameDiags_right (h : CountsAtMostOnce s a) (ht : SameDiags a t) :
    CountsAtMostOnce s t := by
  obtain ⟨hshort, hlong, htrunc⟩ := ht
  rwa [CountsAtMostOnce, SameDiags, hshort, hlong, htrunc]

theorem CountsAtMostOnce.sameDiags_left (h : CountsAtMostOnce a t) (ha : SameDiags s a) :
    CountsAtMostOnce s t := by
  obtain ⟨hshort, hlong, htrunc⟩ := ha
  rwa [CountsAtMostOnce, SameDiags, ← hshort, ← hlong, ← htrunc]

/-! ### The operations that count -/

/-- R112, R113: a block is not both shorter and longer than N. -/
theorem countsAtMostOnce_convolve (m : Mem) (len : Nat) (s : State) :
    CountsAtMostOnce s (convolve m len s) := by
  have hdiag : CountsAtMostOnce s (lengthDiag len s) := by
    unfold lengthDiag
    split_ifs
    · exact countsAtMostOnce_diag s .short
    · exact countsAtMostOnce_diag s .long
    · exact .inl ⟨rfl, rfl, rfl⟩
  exact hdiag.sameDiags_right (by simp [SameDiags, convolve])

theorem countsAtMostOnce_wrap (src : Mem) (len : Nat) (s : State) :
    CountsAtMostOnce s (wrap src len s) := by
  have hdiag : CountsAtMostOnce s (truncDiag len s) := by
    unfold truncDiag
    split_ifs
    · exact countsAtMostOnce_diag s .trunc
    · exact .inl ⟨rfl, rfl, rfl⟩
  exact hdiag.sameDiags_right (by simp [SameDiags, wrap])

/-- R139: a block within M is not truncated, so that only the filter of the view may count. -/
theorem sameDiags_stuffedView (hlen : len ≤ s.cfg.M) : SameDiags s (stuffedView len s) := by
  refine ⟨by simp [stuffedView], by simp [stuffedView], ?_⟩
  rw [stuffedView, wrap_diagTrunc, zeroStuff_cfg, if_neg (stuffedLen_le_OB hlen).not_gt,
    zeroStuff_diagTrunc]

theorem countsAtMostOnce_filterView (s : State) : CountsAtMostOnce s (filterView s) :=
  countsAtMostOnce_convolve .x _ s

theorem countsAtMostOnce_beginOversample (hlen : len ≤ s.cfg.M) :
    CountsAtMostOnce s (beginOversample len s) := by
  have hfilter : CountsAtMostOnce s (filterView (stuffedView len s)) :=
    (countsAtMostOnce_filterView _).sameDiags_left (sameDiags_stuffedView hlen)
  exact hfilter.sameDiags_right (by simp [SameDiags, beginOversample_eq])

theorem countsAtMostOnce_endOversample (s : State) : CountsAtMostOnce s (endOversample s) :=
  (countsAtMostOnce_filterView s).sameDiags_right (by simp [SameDiags, endOversample])

/-! ### Commands and moves -/

theorem countsAtMostOnce_effectOf (hi : i ≠ .diagclr) (hcheck : checkOf i s = .none) :
    CountsAtMostOnce s (effectOf i s) := by
  cases i with
  | conv r len => exact countsAtMostOnce_convolve _ len s
  | ovlwrap len => exact countsAtMostOnce_wrap .io len s
  | ovsbegin len => exact countsAtMostOnce_beginOversample (blockCheck_eq_none_iff.1 hcheck)
  | ovsend => exact countsAtMostOnce_endOversample s
  | diagclr => exact absurd rfl hi
  | nop | kgen | kfft | kfreq | ovlunwrap | ovlreset | zstuff | decim =>
    exact .inl (by simp [SameDiags, effectOf])

theorem exec_countsAtMostOnce (hi : i ≠ .diagclr) (hexec : exec i s = .next t) :
    CountsAtMostOnce s t := by
  rw [exec_eq_runCommand] at hexec
  obtain ⟨-, rfl⟩ | ⟨-, -, rfl⟩ | ⟨-, -, -, rfl⟩ | ⟨-, -, hcheck, rfl⟩ := runCommand_cases hexec
  · exact .inl ⟨rfl, rfl, rfl⟩
  · exact .inl ⟨rfl, rfl, rfl⟩
  · exact .inl ⟨rfl, rfl, rfl⟩
  · exact countsAtMostOnce_effectOf hi hcheck

/-- R76: `DIAGCLR` has one word. -/
theorem issue_countsAtMostOnce (hw : w ≠ 0xC0000000) (hissue : issue w s = .next t) :
    CountsAtMostOnce s t := by
  obtain ⟨-, rfl⟩ | ⟨-, -, rfl⟩ | ⟨-, i, hdecode, hexec⟩ := issue_cases hissue
  · exact .inl ⟨rfl, rfl, rfl⟩
  · exact .inl ⟨rfl, rfl, rfl⟩
  · refine exec_countsAtMostOnce ?_ hexec
    rintro rfl
    exact hw (encodeOfDecode w .diagclr hdecode).2.symm

/-- Settles O48: one case a kind of move; the commands by `issue_countsAtMostOnce`. -/
theorem countersGrowByAtMostOneEvent : Obligations.CountersGrowByAtMostOneEvent := by
  unfold Obligations.CountersGrowByAtMostOneEvent
  intro s t hreset hclear hstep
  obtain ⟨-, rfl⟩ | ⟨rest, hmoves, -⟩ | ⟨rest, off, c, -, -, rfl⟩ | ⟨rest, w, hmoves, hissue⟩ |
    ⟨rest, r, i, m, -, -, -, rfl⟩ | ⟨rest, r, i, m, v, -, -, -, -, rfl⟩ := step_cases hstep
  · exact .inl ⟨rfl, rfl, rfl⟩
  · exact absurd (by rw [hmoves]; rfl) hreset
  · exact .inl ⟨rfl, rfl, rfl⟩
  · have hw : w ≠ 0xC0000000 := by
      rintro rfl
      exact hclear (by rw [hmoves]; rfl)
    exact (issue_countsAtMostOnce hw hissue).sameDiags_left ⟨rfl, rfl, rfl⟩
  · exact .inl ⟨rfl, rfl, rfl⟩
  · exact .inl (by simp [SameDiags])

end Sys2Proof.Machine
end

section
/-! The channels (rule R173, log 20): one entry of the list steps, the others stay. -/

namespace Sys2Proof.Machine

variable {l l' : Channels} {c : Nat} {s t : State}

theorem stepChannel_of_step (hc : l[c]? = some s) (hstep : step s = .next t) :
    stepChannel c l = .next (l.set c t) := by
  simp [stepChannel, hc, hstep]

/-- A channel that has a step replaces its own entry; one that does not exist changes nothing. -/
theorem stepChannel_cases (h : stepChannel c l = .next l') :
    l' = l ∨ ∃ s t, l[c]? = some s ∧ step s = .next t ∧ l' = l.set c t := by
  unfold stepChannel at h
  split at h
  · exact .inl (Host.Outcome.next.inj h).symm
  · split at h
    · exact .inr ⟨_, _, ‹_›, ‹_›, (Host.Outcome.next.inj h).symm⟩
    · cases h
    · cases h

/-- Settles O51. -/
theorem channelsAreIndependent : Obligations.ChannelsAreIndependent := by
  unfold Obligations.ChannelsAreIndependent
  refine ⟨fun l c s t hc hstep => ⟨_, stepChannel_of_step hc hstep, ?_⟩, fun l l' c h => ?_⟩
  · obtain ⟨hlt, -⟩ := List.getElem?_eq_some_iff.1 hc
    exact List.getElem?_set_self hlt
  · obtain rfl | ⟨s, t, -, -, rfl⟩ := stepChannel_cases h
    · exact ⟨rfl, fun _ _ => rfl⟩
    · exact ⟨List.length_set, fun d hd => List.getElem?_set_ne hd.symm⟩

end Sys2Proof.Machine
end

section
/-! Reset, and the engine before its build (rules R51, R180, R182, R184): what `Reset` leaves, that
an engine with no move to make waits, and that no step from UNBUILT fills what the first block
starts from. -/

namespace Sys2Proof.Machine

open Sys2Proof.Claims

variable {i : Instr} {s t : State} {w : Word}

/-! ### The memories after reset -/

theorem elem_resetOf (p : Params) (m : Mem) (j : Nat) :
    (State.resetOf p).elem m j = p.kind.zero := by
  cases m <;> rfl

/-- R51: only the two hidden memories may read other than +0.0 after `Reset`. -/
theorem elem_resetMove (s : State) {m : Mem} (hw : m ≠ .w) (hscr : m ≠ .scr) (j : Nat) :
    (resetMove s).elem m j = (resetMove s).cfg.kind.zero := by
  rw [resetMove_cfg, resetMove, elem_advance, elem_scribble _ _ hw hscr]
  exact elem_resetOf s.cfg m j

/-- Settles O9. -/
theorem resetMoveRestoresEverything : Obligations.ResetMoveRestoresEverything := by
  unfold Obligations.ResetMoveRestoresEverything
  refine fun s => ⟨resetMove s, step_offering s .reset, resetMove_cfg s, resetMove_phase s,
    resetMove_actlen s, resetMove_faultCode s, resetMove_faultCmd s, resetMove_diagShort s,
    resetMove_diagLong s, resetMove_diagTrunc s, fun m hm => elem_resetMove s ?_ ?_⟩
  · exact ne_of_mem_of_not_mem hm (by decide)
  · exact ne_of_mem_of_not_mem hm (by decide)

/-! ### An empty queue -/

theorem step_of_no_move (h : s.moves = []) : step s = .next s := by
  rw [step, h]

/-- Settles O8. -/
theorem engineWaitsForTheFirstMove : Obligations.EngineWaitsForTheFirstMove := by
  unfold Obligations.EngineWaitsForTheFirstMove
  exact ⟨rfl, fun _ => step_of_no_move⟩

/-! ### Clean states -/

theorem clean_resetOf (p : Params) : CleanForTheFirstBlock (State.resetOf p) :=
  ⟨fun m _ => elem_resetOf p m, rfl, rfl, rfl⟩

theorem clean_resetMove (s : State) : CleanForTheFirstBlock (resetMove s) := by
  refine ⟨fun m hm => elem_resetMove s ?_ ?_, resetMove_diagShort s, resetMove_diagLong s,
    resetMove_diagTrunc s⟩
  · exact ne_of_mem_of_not_mem hm (by decide)
  · exact ne_of_mem_of_not_mem hm (by decide)

/-- R184 speaks of three memories and the counters; the others may change. -/
theorem clean_of_same (h : CleanForTheFirstBlock s) (hcfg : t.cfg = s.cfg)
    (hmem : SameMemories [.io, .k, .h, .w, .scr] s t) (hdiag : SameDiags s t) :
    CleanForTheFirstBlock t := by
  obtain ⟨hzero, hshort, hlong, htrunc⟩ := h
  obtain ⟨hshort', hlong', htrunc'⟩ := hdiag
  refine ⟨fun m hm j => ?_, hshort'.trans hshort, hlong'.trans hlong, htrunc'.trans htrunc⟩
  have hkept : m ∉ [Mem.io, .k, .h, .w, .scr] := by
    cases m <;> simp at hm ⊢
  rw [hmem m hkept, hzero m hm, hcfg]

theorem clean_afterTake (h : CleanForTheFirstBlock s) (rest : List Move) :
    CleanForTheFirstBlock (afterTake s rest) :=
  clean_of_same h rfl (fun m _ => elem_afterTake s rest m) ⟨rfl, rfl, rfl⟩

theorem clean_replied (h : CleanForTheFirstBlock s) (r : Reply) :
    CleanForTheFirstBlock (replied s r) :=
  clean_of_same h rfl (fun m _ => elem_replied s r m) ⟨rfl, rfl, rfl⟩

theorem clean_raiseFault (h : CleanForTheFirstBlock s) (code : FaultCode) (w : Word) :
    CleanForTheFirstBlock (raiseFault code w s) :=
  clean_of_same h rfl (fun m _ => elem_raiseFault code w s m) ⟨rfl, rfl, rfl⟩

/-! ### Steps from UNBUILT -/

/-- R184: of the commands legal in UNBUILT, `KGEN` writes `K`, `KFFT` writes `H` and the hidden
memories, and `DIAGCLR` clears the counters. -/
theorem clean_effectOf (h : CleanForTheFirstBlock s) (hs : s.phase = .unbuilt)
    (hlegal : legalIn i s.phase = true) : CleanForTheFirstBlock (effectOf i s) := by
  cases i with
  | nop => exact h
  | kgen =>
    exact clean_of_same h (buildKernel_cfg s)
      (fun m hm => elem_buildKernel_ne (ne_of_mem_of_not_mem (by decide) hm).symm)
      ⟨buildKernel_diagShort s, buildKernel_diagLong s, buildKernel_diagTrunc s⟩
  | kfft =>
    exact clean_of_same h (transformKernel_cfg s)
      (fun m hm => sameMemories_transformKernel s m fun hwritten =>
        hm (List.mem_append_right [Mem.io, .k] hwritten))
      ⟨transformKernel_diagShort s, transformKernel_diagLong s, transformKernel_diagTrunc s⟩
  | kfreq => exact clean_of_same h rfl (fun m _ => elem_setPhase s .ready m) ⟨rfl, rfl, rfl⟩
  | diagclr =>
    obtain ⟨hzero, -⟩ := h
    exact ⟨fun m hm j => (elem_clearDiags s m j).trans (hzero m hm j), rfl, rfl, rfl⟩
  | conv r len => cases r <;> simp [legalIn_iff, hs, phaseTable] at hlegal
  | ovlwrap | ovlunwrap | ovlreset | ovsbegin | ovsend | zstuff | decim =>
    simp [legalIn_iff, hs, phaseTable] at hlegal

theorem clean_exec (h : CleanForTheFirstBlock s) (hs : s.phase = .unbuilt)
    (hexec : exec i s = .next t) : CleanForTheFirstBlock t := by
  rw [exec_eq_runCommand] at hexec
  obtain ⟨-, rfl⟩ | ⟨-, -, rfl⟩ | ⟨-, -, -, rfl⟩ | ⟨-, hlegal, -, rfl⟩ := runCommand_cases hexec
  · exact h
  · exact clean_raiseFault h _ _
  · exact clean_raiseFault h _ _
  · exact clean_effectOf h hs hlegal

theorem clean_issue (h : CleanForTheFirstBlock s) (hs : s.phase = .unbuilt)
    (hissue : issue w s = .next t) : CleanForTheFirstBlock t := by
  obtain ⟨-, rfl⟩ | ⟨-, -, rfl⟩ | ⟨-, i, -, hexec⟩ := issue_cases hissue
  · exact h
  · exact clean_raiseFault h _ _
  · exact clean_exec h hs hexec

/-- R62: what the host may write before the build. -/
theorem mem_of_mayWrite_unbuilt {m : Mem} (h : mayWrite .unbuilt m = true) :
    m ∈ [Mem.io, .k, .h] := by
  cases m <;> simp [mayWrite, onlyWindow] at h ⊢

/-- A sample written before the build is none of R184's. -/
theorem clean_sampleWrite {m : Mem} (h : CleanForTheFirstBlock s)
    (hright : mayWrite .unbuilt m = true) (a : Nat) (f : Nat → Elem) :
    CleanForTheFirstBlock (s.fill m a 1 f) := by
  refine clean_of_same h (by simp) (fun m' hm' => elem_fill_ne ?_ a 1 f) (by simp [SameDiags])
  have hwritten : m ∈ [Mem.io, .k, .h, .w, .scr] :=
    List.mem_append_left [Mem.w, .scr] (mem_of_mayWrite_unbuilt hright)
  exact (ne_of_mem_of_not_mem hwritten hm').symm

/-- R184: no step from UNBUILT writes `PAD`, `X` or `OS`, or counts. -/
theorem clean_step_of_unbuilt (h : CleanForTheFirstBlock s) (hs : s.phase = .unbuilt)
    (hstep : step s = .next t) : CleanForTheFirstBlock t := by
  obtain ⟨-, rfl⟩ | ⟨rest, -, rfl⟩ | ⟨rest, off, c, -, -, rfl⟩ | ⟨rest, w, -, hissue⟩ |
    ⟨rest, r, i, m, -, -, -, rfl⟩ | ⟨rest, r, i, m, v, -, -, ⟨hright, -⟩, -, rfl⟩ :=
    step_cases hstep
  · exact h
  · exact clean_resetMove _
  · exact clean_replied (clean_afterTake h rest) _
  · exact clean_issue (clean_replied (clean_afterTake h rest) _) hs hissue
  · exact clean_replied (clean_afterTake h rest) _
  · rw [hs] at hright
    exact clean_replied (clean_sampleWrite (clean_afterTake h rest) hright i.toNat _) _

/-- R180: a step into UNBUILT from another phase is `Reset`. -/
theorem eq_resetMove_of_enters_unbuilt (hs : s.phase ≠ .unbuilt) (hstep : step s = .next t)
    (ht : t.phase = .unbuilt) : ∃ rest, t = resetMove (afterTake s rest) := by
  by_cases hreset : noReset s
  · obtain ⟨hbuilt, -⟩ := builtKernelIsImmutable s t hs hreset hstep
    exact absurd ht hbuilt
  · obtain ⟨rest, hmoves⟩ := List.head?_eq_some_iff.1 (not_not.1 hreset)
    rw [step, hmoves] at hstep
    exact ⟨rest, (Host.Outcome.next.inj hstep).symm⟩

/-- Settles O50: UNBUILT is entered by `Reset` alone, and `clean_step_of_unbuilt` is about every
step from it, whatever phase it leads to. -/
theorem engineIsEmptyUntilBuilt : Obligations.EngineIsEmptyUntilBuilt := by
  unfold Obligations.EngineIsEmptyUntilBuilt
  refine ⟨fun p _ => clean_resetOf p, fun s t hempty hstep ht => ?_,
    fun s t hempty hs hstep _ => clean_step_of_unbuilt (hempty hs) hs hstep⟩
  by_cases hs : s.phase = .unbuilt
  · exact clean_step_of_unbuilt (hempty hs) hs hstep
  · obtain ⟨rest, rfl⟩ := eq_resetMove_of_enters_unbuilt hs hstep ht
    exact clean_resetMove _

end Sys2Proof.Machine
end
